-- ==== Sys2Proof/Word.lean ====
section
/-! DEFINITION. The units CORE moves: bytes and 64-bit words (spec/00_scope.md R16). -/

namespace Sys2Proof

/-- A byte is 8 bits (R16). -/
abbrev Byte := BitVec 8

/-- A 64-bit value: store data, load results, control values, counters, entries (R16, R91, R92). -/
abbrev Word := BitVec 64

/-- An address, virtual or physical: a 64-bit unsigned value; arithmetic on it wraps (R14, R16, R62). -/
abbrev Addr := BitVec 64

end Sys2Proof
end

