-- ==== Sys2Proof/Config.lean ====
section
/-! DEFINITION. The configuration: the parameters of spec/00_scope.md R8 to R10 that the document leaves to the
implementation, and the free values. The fixed structural parameters of R8 (64-byte blocks, 8 ways, 64 and 256 sets,
4096-byte pages, 64 TLB entries) are in the types of Machine/State.lean and the definitions of Machine/Operands.lean. -/

namespace Sys2Proof

/-- The active word width, 32 or 64 bits (spec/10_state.md R22). -/
inductive XLen where
  | w32
  | w64
  deriving DecidableEq, Repr

/-- What the TLB compares (spec/42_translator.md R166): the walk level with the key, or the key alone. -/
inductive TagMode where
  | levelQualified
  | vpnOnly
  deriving DecidableEq, Repr

/-- A range of physical addresses, `base` to `base + size - 1`. -/
structure Region where
  base : Nat
  size : Nat
  deriving DecidableEq, Repr

/-- The named parameters of R10. A machine holds them in `State.cfg`; nothing but their setting at initialization
writes them (R42), so a statement about every state is a statement about every configuration.
`REPL_POLICY` is fixed to `Random` (R144, U9), `PA_BITS` to 64, `FETCH_BLOCK_MAX` to 255: they are no fields. -/
structure Config where
  /-- `MEM_BASE`: the first physical address of the Backing Store (OPEN, D7). -/
  memBase : Nat
  /-- `MEM_SIZE`: its size in bytes (OPEN, D7). -/
  memSize : Nat
  /-- `INIT_MEM`: the Backing Store at reset, as (physical address, byte) pairs in canonical form (OPEN, D28). -/
  initMem : List Host.Cell
  /-- `XLEN_INIT`: the word width at reset (OPEN, D28). -/
  xlenInit : XLen
  /-- `STATUS_MPRV_BIT` (default 17, D11). -/
  mprvBit : Nat
  /-- `STATUS_MPP_LO` (default 11, D11): the field is this bit and the next. -/
  mppLo : Nat
  /-- `TLB_TAG_MODE` (default `LevelQualified`, D15). -/
  tagMode : TagMode
  /-- `LAT_L1_HIT` (OPEN, D26). -/
  latL1Hit : Nat
  /-- `LAT_L1_CHECK` (OPEN, D26). -/
  latL1Check : Nat
  /-- `LAT_L2_HIT` (OPEN, D26). -/
  latL2Hit : Nat
  /-- `LAT_L2_MISS` (OPEN, D26). -/
  latL2Miss : Nat
  /-- `LAT_TLB_HIT` (OPEN, D26). -/
  latTlbHit : Nat
  /-- `LAT_PTE_READ` (OPEN, D26). -/
  latPteRead : Nat
  /-- `LAT_PTE_WRITE` (OPEN, D26). -/
  latPteWrite : Nat
  /-- `EXTRA_VALID` (OPEN, D30): the further physical addresses `validate` accepts, as ranges; default none. -/
  extraValid : List Region
  deriving DecidableEq, Repr

/-- FREE VALUE (R13, R143, R171): the draws that no list of `State.draws` supplies. It is applied to the counter
`Draws.count`, which every such draw advances, so that each is a value of its own. It has no body: nothing constrains it. -/
opaque Config.freeDraw : Nat → Nat

/-- OPEN (D26): `LAT_L1_HIT` of the machine that `State.reset` describes. -/
opaque Config.openLatL1Hit : Nat
/-- OPEN (D26): `LAT_L1_CHECK` of the machine that `State.reset` describes. -/
opaque Config.openLatL1Check : Nat
/-- OPEN (D26): `LAT_L2_HIT` of the machine that `State.reset` describes. -/
opaque Config.openLatL2Hit : Nat
/-- OPEN (D26): `LAT_L2_MISS` of the machine that `State.reset` describes. -/
opaque Config.openLatL2Miss : Nat
/-- OPEN (D26): `LAT_TLB_HIT` of the machine that `State.reset` describes. -/
opaque Config.openLatTlbHit : Nat
/-- OPEN (D26): `LAT_PTE_READ` of the machine that `State.reset` describes. -/
opaque Config.openLatPteRead : Nat
/-- OPEN (D26): `LAT_PTE_WRITE` of the machine that `State.reset` describes. -/
opaque Config.openLatPteWrite : Nat

/-- The configuration of `State.reset`. DESIGN CHOICE, unsafe for a claim about `State.reset` alone (notes/assumptions/1.md):
the base R10 suggests, the 16 MiB that spec/95_test_vectors.md section 0 uses, no memory image, 64-bit words. The
latencies stay open; the other fields have the defaults of R10. -/
def Config.standard : Config where
  memBase := 0x80000000
  memSize := 0x1000000
  initMem := []
  xlenInit := .w64
  mprvBit := 17
  mppLo := 11
  tagMode := .levelQualified
  latL1Hit := Config.openLatL1Hit
  latL1Check := Config.openLatL1Check
  latL2Hit := Config.openLatL2Hit
  latL2Miss := Config.openLatL2Miss
  latTlbHit := Config.openLatTlbHit
  latPteRead := Config.openLatPteRead
  latPteWrite := Config.openLatPteWrite
  extraValid := []

end Sys2Proof
end

