-- ==== Sys2Proof/Machine/State.lean ====
section
/-! DEFINITION. The machine's state as plain data (spec/10_state.md R20 to R50), with the interface through which the
execution core and the host reach it (spec/30_encoding.md R91, R92; spec/70_reset_and_hazards.md R331), and reset. -/

namespace Sys2Proof.Machine

/-- Why a step stops with a fault: never. "Nothing in CORE is `stuck`" (spec/93_implementation_defined.md), a failure of
CORE is a response and the next command is accepted (R301), and what the spec leaves without a next state it calls
`refuse`, which is a `Refusal` here. -/
inductive Fault where
  deriving DecidableEq, Repr

/-- The places where the spec gives no next state (R12, R294: the outcome `refuse`). Each is safe: a run that reaches
one has no meaning, so nothing is proved of it. -/
inductive Refusal where
  /-- An arm of `exec` that has no meaning yet. No arm of this model raises it. Safe. -/
  | notModelled (mnemonic : String)
  /-- U1, U2: a Backing Store access that is not wholly inside the window (R124). Raised by the walker's entry read and
  rewrite, the block read of an L2 miss, the block write of an L2 write-back and a host write. Safe. -/
  | outsideBackingStore
  /-- U4: `MPP` = 2 while `priv` = M and `MPRV` is set, met by an access of a kind other than Execute (R182). Raised by
  loads, stores and `validate`. Safe. -/
  | reservedEffectivePrivilege
  /-- U13: a `flush` meets a valid L1 line that no L2 line owns (R219). Raised by `flush` in states no run from reset
  reaches (R221). Safe. -/
  | flushWithoutOwner
  deriving DecidableEq, Repr

/-- A privilege level (R25, R97, R303). -/
inductive Priv where
  | U
  | S
  | M
  deriving DecidableEq, Repr

/-- An addressing scheme (R23): `SCHEME_OFF`, `SCHEME_2L`, `SCHEME_3L`. -/
inductive Scheme where
  | off
  | twoLevel
  | threeLevel
  deriving DecidableEq, Repr

/-- The data of a cache line: byte `k` is at block offset `k` (R31). -/
abbrev Block := Vector Byte 64

/-- A line of L1 (R31). -/
structure L1Line where
  valid : Bool
  tag : BitVec 52
  data : Block
  deriving DecidableEq, Repr

/-- A line of L2 (R32). -/
structure L2Line where
  valid : Bool
  tag : BitVec 50
  data : Block
  incl : Bool
  deriving DecidableEq, Repr

/-- A TLB tag: 2 bits of level, 27 bits of key (R28, R166). -/
structure TlbTag where
  level : BitVec 2
  key : BitVec 27
  deriving DecidableEq, Repr

/-- A TLB entry (R28). -/
structure TlbEntry where
  valid : Bool
  tag : TlbTag
  pte : Word
  mru : Bool
  deriving DecidableEq, Repr

/-- The operation kind of a trace entry (R40). -/
inductive TraceKind where
  | read
  | write
  deriving DecidableEq, Repr

/-- A trace entry (R40, R41). -/
structure TraceEntry where
  addr : Addr
  kind : TraceKind
  cycle : Word
  deriving DecidableEq, Repr

/-- The status codes of R95, by name. -/
inductive Status where
  | ok
  | instructionPageFault
  | loadPageFault
  | storePageFault
  | loadAccessFault
  | storeAccessFault
  | illegal
  deriving DecidableEq, Repr

/-- A response (R92). -/
structure Response where
  status : Status
  rdata : Word
  tval : Word
  payload : List Byte
  deriving DecidableEq, Repr

/-- The draws presented with a command (R13, R103), free inputs of the step: one list each for the L1 victim, the L2
victim and the TLB slot, taken from the front. A draw no list supplies is the free value `Config.freeDraw`. -/
structure Draws where
  l1 : List Nat
  l2 : List Nat
  tlb : List Nat
  deriving DecidableEq, Repr

/-- What the outside can present to CORE, one at a time (R11): a request with its `now` (R41, R91) and its draws (R13), a
host write of one byte of the Backing Store, or a reset (R331). -/
inductive Input where
  | command (request : BitVec 144) (now : Word) (draws : Draws)
  | hostWrite (addr : Addr) (byte : Byte)
  | reset
  deriving DecidableEq, Repr

/-- The state. The fields from `xlen` to `trace` are CORE's (R22 to R41, R50); `cfg` is the configuration (R42); the last
five are the model's own: the inputs not yet taken, the current command's `now` and draws, the number of draws no list
supplied, the last response. -/
structure State where
  cfg : Config
  xlen : XLen
  scheme : Scheme
  rootPpn : BitVec 44
  priv : Priv
  status : Word
  lat : Word
  tlb : Vector TlbEntry 64
  l1 : Vector (Vector L1Line 8) 64
  l2 : Vector (Vector L2Line 8) 256
  l1Hit : Word
  l1Miss : Word
  l2Hit : Word
  l2Miss : Word
  bs : List Host.Cell
  trace : List TraceEntry
  inputs : List Input
  now : Word
  draws : Draws
  drawCount : Nat
  response : Option Response
  deriving DecidableEq, Repr

/-- A free TLB slot (R29). Its tag and entry value, unspecified and never read (R50), are zero: DESIGN CHOICE. -/
def TlbEntry.free : TlbEntry := ⟨false, ⟨0, 0⟩, 0, false⟩

/-- An invalid L1 line (R31). Its tag and data, unspecified and never read (R50), are zero: DESIGN CHOICE. -/
def L1Line.invalid : L1Line := ⟨false, 0, Vector.replicate 64 0⟩

/-- An invalid L2 line with `incl` = 0 (R32). Its tag and data are zero: DESIGN CHOICE. -/
def L2Line.invalid : L2Line := ⟨false, 0, Vector.replicate 64 0, false⟩

/-- Reset with given parameters (R50, R320), whatever inputs wait outside and however many free draws were taken. -/
def State.resetWith (cfg : Config) (inputs : List Input) (drawCount : Nat) : State where
  cfg := cfg
  xlen := cfg.xlenInit
  scheme := .off
  rootPpn := 0
  priv := .M
  status := 0
  lat := 0
  tlb := Vector.replicate 64 TlbEntry.free
  l1 := Vector.replicate 64 (Vector.replicate 8 L1Line.invalid)
  l2 := Vector.replicate 256 (Vector.replicate 8 L2Line.invalid)
  l1Hit := 0
  l1Miss := 0
  l2Hit := 0
  l2Miss := 0
  bs := cfg.initMem
  trace := []
  inputs := inputs
  now := 0
  draws := ⟨[], [], []⟩
  drawCount := drawCount
  response := none

/-- The machine right after reset, with the standard configuration, nothing waiting and no draw taken. -/
def State.reset : State := State.resetWith Config.standard [] 0

end Sys2Proof.Machine
end

