-- ==== Sys2Proof/Machine/Operands.lean ====
section
/-! DEFINITION. Every operand form and field the spec takes apart or puts together: little-endian values (R64), the
page test (R231), truncation (R180), the cache decomposition (R136, R137), the index fields, keys and entry addresses of
the walk (R163 to R166), the physical address (R191), and the fields of the control operands (R97, R98). -/

namespace Sys2Proof.Machine

/-! Values and bytes -/

/-- The little-endian value of up to 8 bytes, lowest address first, zero-extended (R64, R99). -/
def leWord : List Byte → Word
  | [] => 0
  | b :: bs => b.setWidth 64 ||| (leWord bs <<< 8)

/-- The low `n` bytes of a value, lowest first (R64, R122). -/
def bytesOf (n : Nat) (v : Word) : List Byte :=
  (List.range n).map fun k => v.extractLsb' (8 * k) 8

/-! Access kinds and control operands -/

/-- The access kind (R96). -/
inductive AccessKind where
  | execute
  | read
  | write
  | dontCare
  deriving DecidableEq, Repr

/-- The 2-bit code of an access kind (R96). -/
def AccessKind.code : AccessKind → BitVec 2
  | .execute => 0
  | .read => 1
  | .write => 2
  | .dontCare => 3

/-- The privilege level a 2-bit code stands for (R97); 2 is reserved. -/
def privOfCode (c : BitVec 2) : Option Priv :=
  match c with
  | 0 => some .U
  | 1 => some .S
  | 3 => some .M
  | _ => none

/-- The scheme a 2-bit code stands for (R98); 3 is reserved. -/
def schemeOfCode (c : BitVec 2) : Option Scheme :=
  match c with
  | 0 => some .off
  | 1 => some .twoLevel
  | 2 => some .threeLevel
  | _ => none

/-- The width `set.xlen` carries in `data[0]` (R98). -/
def xlenOfData (data : Word) : XLen := if data.getLsbD 0 then .w64 else .w32

/-- `MPRV`, the override bit of the status word (R26). -/
def mprv (cfg : Config) (status : Word) : Bool := status.getLsbD cfg.mprvBit

/-- `MPP`, the effective-privilege field of the status word (R26). -/
def mpp (cfg : Config) (status : Word) : BitVec 2 := status.extractLsb' cfg.mppLo 2

/-! Virtual addresses -/

/-- `SinglePage(va, n)` (R231). -/
def singlePage (va : Addr) (n : Nat) : Bool := (va &&& 0xFFF).toNat ≤ 4096 - n

/-- The effective address: `va` truncated to the word width, zero-extended (R180). -/
def effective (xlen : XLen) (va : Addr) : Addr :=
  match xlen with
  | .w64 => va
  | .w32 => (va.setWidth 32).setWidth 64

/-- A scheme that translates (R164). -/
inductive Paging where
  | twoLevel
  | threeLevel
  deriving DecidableEq, Repr

/-- The scheme's paging, `none` when translation is disabled (R181). -/
def Scheme.paging : Scheme → Option Paging
  | .off => none
  | .twoLevel => some .twoLevel
  | .threeLevel => some .threeLevel

/-- The top level of the walk, `LEVELS - 1` (R164). -/
def Paging.top : Paging → Nat
  | .twoLevel => 1
  | .threeLevel => 2

/-- `PTE_SIZE` in bytes (R164). -/
def Paging.pteSize : Paging → Nat
  | .twoLevel => 4
  | .threeLevel => 8

/-- `vpn[level]`, zero-extended (R164). -/
def Paging.vpn (p : Paging) (level : Nat) (a : Addr) : Word :=
  match p with
  | .twoLevel => (a.extractLsb' (12 + 10 * level) 10).setWidth 64
  | .threeLevel => (a.extractLsb' (12 + 9 * level) 9).setWidth 64

/-- The key: every index field packed, `a[31:12]` or `a[38:12]` (R166). -/
def Paging.key (p : Paging) (a : Addr) : BitVec 27 :=
  match p with
  | .twoLevel => (a.extractLsb' 12 20).setWidth 27
  | .threeLevel => a.extractLsb' 12 27

/-- The TLB tag of a walk step (R166): under `VpnOnly` the level takes no part. -/
def tlbTag (mode : TagMode) (level : Nat) (key : BitVec 27) : TlbTag :=
  match mode with
  | .levelQualified => ⟨BitVec.ofNat 2 level, key⟩
  | .vpnOnly => ⟨0, key⟩

/-- The entry address (R165). -/
def Paging.pteAddr (p : Paging) (level : Nat) (parent : BitVec 44) (a : Addr) : Addr :=
  parent.setWidth 64 * 4096 + p.vpn level a * BitVec.ofNat 64 p.pteSize

/-! Page-table entries -/

/-- `PPN(pte)`, zero-extended to the width of `root_ppn` (R162, R163). -/
def Paging.ppn (p : Paging) (pte : Word) : BitVec 44 :=
  match p with
  | .twoLevel => (pte.extractLsb' 10 22).setWidth 44
  | .threeLevel => pte.extractLsb' 10 44

/-- The physical address of a leaf found at a level (R191). -/
def Paging.leafAddr (p : Paging) (level : Nat) (pte : Word) (a : Addr) : Addr :=
  match p, level with
  | .twoLevel, 0 => (pte.extractLsb' 10 22 ++ a.extractLsb' 0 12).setWidth 64
  | .twoLevel, _ => (pte.extractLsb' 20 12 ++ a.extractLsb' 12 10 ++ a.extractLsb' 0 12).setWidth 64
  | .threeLevel, 0 => (pte.extractLsb' 10 44 ++ a.extractLsb' 0 12).setWidth 64
  | .threeLevel, 1 =>
    (pte.extractLsb' 28 26 ++ pte.extractLsb' 19 9 ++ a.extractLsb' 12 9 ++ a.extractLsb' 0 12).setWidth 64
  | .threeLevel, _ =>
    (pte.extractLsb' 28 26 ++ a.extractLsb' 21 9 ++ a.extractLsb' 12 9 ++ a.extractLsb' 0 12).setWidth 64

/-! Physical addresses -/

/-- The block offset, `pa[5:0]` (R136). -/
def blockOffset (pa : Addr) : Nat := (pa.extractLsb' 0 6).toNat

/-- The block address, `pa & ~0x3F` (spec/00_scope.md section 6). -/
def blockOf (pa : Addr) : Addr := pa &&& ~~~0x3F

/-- The L1 index, `pa[11:6]` (R136). -/
def l1Index (pa : Addr) : Fin 64 := (pa.extractLsb' 6 6).toFin

/-- The L1 tag, `pa[63:12]` (R136). -/
def l1Tag (pa : Addr) : BitVec 52 := pa.extractLsb' 12 52

/-- The L2 index, `pa[13:6]` (R136). -/
def l2Index (pa : Addr) : Fin 256 := (pa.extractLsb' 6 8).toFin

/-- The L2 tag, `pa[63:14]` (R136). -/
def l2Tag (pa : Addr) : BitVec 50 := pa.extractLsb' 14 50

/-- `BlockAddr(L1, index, tag)` (R137). -/
def l1BlockAddr (index : Fin 64) (tag : BitVec 52) : Addr :=
  tag ++ BitVec.ofNat 6 index.val ++ (0 : BitVec 6)

/-- `BlockAddr(L2, index, tag)` (R137). -/
def l2BlockAddr (index : Fin 256) (tag : BitVec 50) : Addr :=
  tag ++ BitVec.ofNat 8 index.val ++ (0 : BitVec 6)

/-! Blocks -/

/-- The block whose byte at offset `k` is `f k`. -/
def blockOfFn (f : Nat → Byte) : Block := ⟨((List.range 64).map f).toArray, by simp⟩

/-- The byte at block offset `k`; 0 beyond the block, where no rule reads. -/
def blockByte (d : Block) (k : Nat) : Byte := d.toList.getD k 0

/-- `LineGet`: `n` bytes from offset `o` (R138). -/
def blockGet (d : Block) (o n : Nat) : List Byte := (List.range n).map fun k => blockByte d (o + k)

/-- `LineSet`: the bytes written from offset `o` on, every other byte kept (R139). -/
def blockSet (d : Block) (o : Nat) (bs : List Byte) : Block :=
  blockOfFn fun k => if o ≤ k ∧ k < o + bs.length then bs.getD (k - o) 0 else blockByte d k

end Sys2Proof.Machine
end

