-- ==== Sys2Proof/Machine/Ops.lean ====
section
/-! DEFINITION. The named operations over memory and state: the canonical byte list behind the Backing Store, the
outcome of a procedure (R12, R15), every write of a state element, the draws (R13), the Backing Store primitives
(spec/40_backing_store.md R120 to R126), and the answer to a command: a result, a failure (spec/60_exceptions.md R296,
the model's TAKING AN EXCEPTION; CORE has no return from one), `Illegal`, or a refusal. -/

namespace Sys2Proof.Machine

/-! The byte list -/

/-- What an address no cell lists reads as. DESIGN CHOICE, unsafe (notes/assumptions/2.md): zero. -/
def Memory.unlisted : Byte := 0

/-- The byte at an address. -/
def Memory.read : List Host.Cell → Nat → Byte
  | [], _ => Memory.unlisted
  | (k, b) :: m, a => if k = a then b else Memory.read m a

/-- The list with one byte written; the form of `Memory.wf` is kept. -/
def Memory.write : List Host.Cell → Nat → Byte → List Host.Cell
  | [], a, v => if v = Memory.unlisted then [] else [(a, v)]
  | (k, b) :: m, a, v =>
    if k < a then (k, b) :: Memory.write m a v
    else if k = a then (if v = Memory.unlisted then m else (a, v) :: m)
    else if v = Memory.unlisted then (k, b) :: m else (a, v) :: (k, b) :: m

/-- The canonical form: addresses strictly rising, no cell equal to what an unlisted address reads as. -/
def Memory.wf : List Host.Cell → Bool
  | [] => true
  | (k, b) :: m => b != Memory.unlisted && (m.all fun c => decide (k < c.1)) && Memory.wf m

/-- Consecutive bytes written from an address on (R122). -/
def Memory.writeBytes : List Host.Cell → Addr → List Byte → List Host.Cell
  | m, _, [] => m
  | m, a, b :: bs => Memory.writeBytes (Memory.write m a.toNat b) (a + 1) bs

/-! The outcome of a procedure -/

/-- How a procedure ends (R12, R15): with a value, with a failure that propagates to the caller (the state reached stays:
nothing is rolled back), or outside what the spec defines, with no state. -/
inductive Run (ε α : Type) where
  | ok (a : α) (s : State)
  | raise (e : ε) (s : State)
  | refuse (r : Refusal)
  deriving DecidableEq, Repr

/-- One procedure after another; a failure or a refusal ends both. -/
def Run.bind {ε α β : Type} (x : Run ε α) (f : α → State → Run ε β) : Run ε β :=
  match x with
  | .ok a s => f a s
  | .raise e s => .raise e s
  | .refuse r => .refuse r

/-- The same outcome with another failure value: what a caller's rule makes of `fail` (R15). -/
def Run.mapFailure {ε ε' α : Type} (g : ε → ε') (x : Run ε α) : Run ε' α :=
  match x with
  | .ok a s => .ok a s
  | .raise e s => .raise (g e) s
  | .refuse r => .refuse r

/-- The same outcome with something done to the state it leaves, whether it returned or failed. -/
def Run.mapState {ε α : Type} (g : State → State) (x : Run ε α) : Run ε α :=
  match x with
  | .ok a s => .ok a (g s)
  | .raise e s => .raise e (g s)
  | .refuse r => .refuse r

/-- A procedure run for each element in turn, ended by the first failure or refusal. -/
def Run.forEach {ε α : Type} (f : α → State → Run ε Unit) : List α → State → Run ε Unit
  | [], s => .ok () s
  | a :: as, s => (f a s).bind fun _ s => Run.forEach f as s

/-! Writes of state elements -/

/-- `lat <- lat + n`, modulo 2^64 (R27, R345). -/
def State.addLat (s : State) (n : Nat) : State := { s with lat := s.lat + BitVec.ofNat 64 n }
/-- `l1_hit <- l1_hit + 1` (R33). -/
def State.bumpL1Hit (s : State) : State := { s with l1Hit := s.l1Hit + 1 }
/-- `l1_miss <- l1_miss + 1` (R33). -/
def State.bumpL1Miss (s : State) : State := { s with l1Miss := s.l1Miss + 1 }
/-- `l2_hit <- l2_hit + 1` (R33). -/
def State.bumpL2Hit (s : State) : State := { s with l2Hit := s.l2Hit + 1 }
/-- `l2_miss <- l2_miss + 1` (R33). -/
def State.bumpL2Miss (s : State) : State := { s with l2Miss := s.l2Miss + 1 }
/-- The substitution of `priv` during a translation, and its restoring (R182). -/
def State.setPriv (s : State) (p : Priv) : State := { s with priv := p }
/-- A new byte list behind the Backing Store. -/
def State.setBs (s : State) (m : List Host.Cell) : State := { s with bs := m }
/-- A trace entry appended, with `cycle = now` (R40, R41). -/
def State.appendTrace (s : State) (addr : Addr) (kind : TraceKind) : State :=
  { s with trace := s.trace ++ [⟨addr, kind, s.now⟩] }
/-- A response given (R92). -/
def State.respond (s : State) (r : Response) : State := { s with response := some r }

/-- `L1[i][w]`. -/
def State.line1 (s : State) (i : Fin 64) (w : Fin 8) : L1Line := (s.l1.get i).get w
/-- `L1[i][w] <- line`. -/
def State.setLine1 (s : State) (i : Fin 64) (w : Fin 8) (line : L1Line) : State :=
  { s with l1 := s.l1.set i.val ((s.l1.get i).set w.val line w.isLt) i.isLt }
/-- `L2[i][w]`. -/
def State.line2 (s : State) (i : Fin 256) (w : Fin 8) : L2Line := (s.l2.get i).get w
/-- `L2[i][w] <- line`. -/
def State.setLine2 (s : State) (i : Fin 256) (w : Fin 8) (line : L2Line) : State :=
  { s with l2 := s.l2.set i.val ((s.l2.get i).set w.val line w.isLt) i.isLt }
/-- `tlb[i]`. -/
def State.tlbEntry (s : State) (i : Fin 64) : TlbEntry := s.tlb.get i
/-- `tlb[i] <- entry`. -/
def State.setTlbEntry (s : State) (i : Fin 64) (e : TlbEntry) : State :=
  { s with tlb := s.tlb.set i.val e i.isLt }

/-! Draws -/

/-- The draw a list supplies, or the free value of the counter. -/
def Draws.value (q : List Nat) (count : Nat) : Nat :=
  match q with
  | n :: _ => n
  | [] => Config.freeDraw count

/-- The next L1 victim draw. -/
def State.l1Draw (s : State) : Nat := Draws.value s.draws.l1 s.drawCount
/-- The next L2 victim draw. -/
def State.l2Draw (s : State) : Nat := Draws.value s.draws.l2 s.drawCount
/-- The next TLB slot draw. -/
def State.tlbDraw (s : State) : Nat := Draws.value s.draws.tlb s.drawCount

/-- The state once the L1 victim draw is taken. -/
def State.tookL1Draw (s : State) : State :=
  match s.draws.l1 with
  | _ :: q => { s with draws := { s.draws with l1 := q } }
  | [] => { s with drawCount := s.drawCount + 1 }
/-- The state once the L2 victim draw is taken. -/
def State.tookL2Draw (s : State) : State :=
  match s.draws.l2 with
  | _ :: q => { s with draws := { s.draws with l2 := q } }
  | [] => { s with drawCount := s.drawCount + 1 }
/-- The state once the TLB slot draw is taken. -/
def State.tookTlbDraw (s : State) : State :=
  match s.draws.tlb with
  | _ :: q => { s with draws := { s.draws with tlb := q } }
  | [] => { s with drawCount := s.drawCount + 1 }

/-- `draw(S)` (R15): the member of the candidate list a drawn number selects; `d` only if there is none. Every candidate
is selected by some number. -/
def choose {α : Type} (candidates : List α) (n : Nat) (d : α) : α :=
  candidates.getD (n % candidates.length) d

/-! The Backing Store -/

/-- `BsValid(pa)` (R120, R123): the window test, on plain numbers. -/
def bsValid (cfg : Config) (pa : Addr) : Bool :=
  cfg.memBase ≤ pa.toNat && pa.toNat < cfg.memBase + cfg.memSize

/-- The byte `BS[pa - MEM_BASE]` (R35). -/
def State.bsByte (s : State) (pa : Addr) : Byte := Memory.read s.bs pa.toNat

/-- `BsRead(pa, n)` (R121), the bytes lowest address first; out of the window, R124. -/
def bsRead {ε : Type} (pa : Addr) (n : Nat) (s : State) : Run ε (List Byte) :=
  if bsValid s.cfg pa && bsValid s.cfg (pa + BitVec.ofNat 64 (n - 1)) then
    .ok ((List.range n).map fun k => s.bsByte (pa + BitVec.ofNat 64 k)) s
  else .refuse .outsideBackingStore

/-- `BsWrite(pa, n, v)` (R122), `v` given as its `n` bytes, lowest first; out of the window, R124. -/
def bsWrite {ε : Type} (pa : Addr) (bytes : List Byte) (s : State) : Run ε Unit :=
  if bsValid s.cfg pa && bsValid s.cfg (pa + BitVec.ofNat 64 (bytes.length - 1)) then
    .ok () (s.setBs (Memory.writeBytes s.bs pa bytes))
  else .refuse .outsideBackingStore

/-- `BsReadBlock(b)` (R125). -/
def bsReadBlock {ε : Type} (b : Addr) (s : State) : Run ε Block :=
  if bsValid s.cfg b && bsValid s.cfg (b + 63) then
    .ok (blockOfFn fun k => s.bsByte (b + BitVec.ofNat 64 k)) s
  else .refuse .outsideBackingStore

/-- `BsWriteBlock(b, data)` (R126): eight writes of 8 bytes, ascending. -/
def bsWriteBlock {ε : Type} (b : Addr) (data : Block) : State → Run ε Unit :=
  Run.forEach (fun k => bsWrite (b + BitVec.ofNat 64 (8 * k)) (blockGet data (8 * k) 8)) (List.range 8)

/-! Answers -/

/-- A failure: its kind is a status, its value the faulting virtual address (R290). -/
inductive FailureKind where
  | instructionPageFault
  | loadPageFault
  | storePageFault
  | loadAccessFault
  | storeAccessFault
  deriving DecidableEq, Repr

/-- The status of a failure kind (R290). -/
def FailureKind.status : FailureKind → Status
  | .instructionPageFault => .instructionPageFault
  | .loadPageFault => .loadPageFault
  | .storePageFault => .storePageFault
  | .loadAccessFault => .loadAccessFault
  | .storeAccessFault => .storeAccessFault

/-- A failure with the virtual address attached to it (R290). -/
structure Failure where
  kind : FailureKind
  tval : Addr
  deriving DecidableEq, Repr

/-- The 8-bit code of a status (R95). -/
def Status.code : Status → Byte
  | .ok => 0x00
  | .instructionPageFault => 0x01
  | .loadPageFault => 0x02
  | .storePageFault => 0x03
  | .loadAccessFault => 0x04
  | .storeAccessFault => 0x05
  | .illegal => 0xFF

/-- The response of a completed command with a result (R92). -/
def Response.value (v : Word) : Response := ⟨.ok, v, 0, []⟩
/-- The response of a completed command with a result and bytes (R92). -/
def Response.bytes (v : Word) (payload : List Byte) : Response := ⟨.ok, v, 0, payload⟩
/-- The response of a completed command without a result: `rdata` is 0 (R92). -/
def Response.done : Response := Response.value 0
/-- The response of a failure: `(status = kind, rdata = 0, tval)` (R296). -/
def Response.failure (f : Failure) : Response := ⟨f.kind.status, 0, f.tval, []⟩
/-- The response to an illegal request (R101). -/
def Response.rejected : Response := ⟨.illegal, 0, 0, []⟩

/-- What CORE does on a failure (R296): it stops at the failing step, whose state stays, and answers. Saving a program
counter, a cause or a status, and going to a handler, are the execution core's and no part of CORE. -/
def takeFailure (f : Failure) (s : State) : State := s.respond (.failure f)

/-- The answer to an illegal request: no state changes (R101). -/
def answerIllegal (s : State) : State := s.respond .rejected

/-- The end of a command (R12): a result, a failure or a refusal. -/
def finish {α : Type} (answer : α → Response) (x : Run Failure α) : Host.Outcome State Fault Refusal :=
  match x with
  | .ok a s => .next (s.respond (answer a))
  | .raise f s => .next (takeFailure f s)
  | .refuse r => .refused r

end Sys2Proof.Machine
end

