-- ==== Sys2Proof/Machine/Flags.lean ====
section
/-! DEFINITION. Every flag the spec gives (spec/10_state.md R34; spec/42_translator.md R161): the flag bits of a
page-table entry and what the walk asks of them, and the valid, inclusion and recency flags of lines and TLB entries. -/

namespace Sys2Proof.Machine

/-! Entry flags (R161) -/

/-- `V`, bit 0. -/
def pteV (pte : Word) : Bool := pte.getLsbD 0
/-- `R`, bit 1. -/
def pteR (pte : Word) : Bool := pte.getLsbD 1
/-- `W`, bit 2. -/
def pteW (pte : Word) : Bool := pte.getLsbD 2
/-- `X`, bit 3. -/
def pteX (pte : Word) : Bool := pte.getLsbD 3
/-- `A`, bit 6. -/
def pteA (pte : Word) : Bool := pte.getLsbD 6
/-- `D`, bit 7. -/
def pteD (pte : Word) : Bool := pte.getLsbD 7

/-- Whether an entry "already looks like a leaf": any of `R`, `W`, `X` set (R170). -/
def looksLikeLeaf (pte : Word) : Bool := pteR pte || pteW pte || pteX pte

/-- Whether the validity step rejects the entry: `V` clear, or `W` without `R` (R185). -/
def rejectedEntry (pte : Word) : Bool := !pteV pte || (!pteR pte && pteW pte)

/-- Whether the entry is a pointer: neither `R` nor `X` (R186). -/
def isPointer (pte : Word) : Bool := !pteR pte && !pteX pte

/-- Whether the Accessed/Dirty step rewrites the entry (R188). -/
def needsRewrite (kind : AccessKind) (pte : Word) : Bool :=
  !pteA pte || (kind == .write && !pteD pte)

/-- The entry with Accessed set, and Dirty for a Write (R188). -/
def withAccessed (kind : AccessKind) (pte : Word) : Word :=
  pte ||| 0x40 ||| (if kind = .write then 0x80 else 0)

/-- Whether the leaf supports the access (R189); DontCare asks nothing. -/
def permits (kind : AccessKind) (pte : Word) : Bool :=
  match kind with
  | .execute => pteX pte
  | .read => pteR pte
  | .write => pteW pte
  | .dontCare => true

/-- Whether a leaf at a level is a misaligned superpage (R190). -/
def misaligned (p : Paging) (level : Nat) (pte : Word) : Bool :=
  match p, level with
  | _, 0 => false
  | .twoLevel, _ => pte.extractLsb' 10 10 != 0
  | .threeLevel, 1 => pte.extractLsb' 10 9 != 0
  | .threeLevel, _ => pte.extractLsb' 19 9 != 0 || pte.extractLsb' 10 9 != 0

/-! Line flags -/

/-- The ways of a set, ascending (R135). -/
def allWays : List (Fin 8) := List.finRange 8

/-- `L1[i][w].valid <- 0`, tag and data kept (R212, R146). -/
def State.invalidate1 (s : State) (i : Fin 64) (w : Fin 8) : State :=
  s.setLine1 i w { s.line1 i w with valid := false }

/-- `L2[i][w].valid <- 0`, tag, data and `incl` kept (R146). -/
def State.invalidate2 (s : State) (i : Fin 256) (w : Fin 8) : State :=
  s.setLine2 i w { s.line2 i w with valid := false }

/-- `L2[i][w].incl <- b` (R214, R217). -/
def State.setIncl (s : State) (i : Fin 256) (w : Fin 8) (b : Bool) : State :=
  s.setLine2 i w { s.line2 i w with incl := b }

/-- The L2 ways eligible for eviction: inclusion flag false, validity playing no part (R143). -/
def eligible2 (s : State) (i : Fin 256) : List (Fin 8) :=
  allWays.filter fun w => !(s.line2 i w).incl

/-! TLB flags -/

/-- The TLB slots, ascending (R28). -/
def allSlots : List (Fin 64) := List.finRange 64

/-- The free slots (R171). -/
def freeSlots (s : State) : List (Fin 64) := allSlots.filter fun i => !(s.tlbEntry i).valid

/-- The slots whose marker is unset (R171). -/
def unmarkedSlots (s : State) : List (Fin 64) := allSlots.filter fun i => !(s.tlbEntry i).mru

/-- `tlb[i].mru <- 1` (R169). -/
def State.markTlb (s : State) (i : Fin 64) : State :=
  s.setTlbEntry i { s.tlbEntry i with mru := true }

/-- The entries with every marker cleared, nothing else changed (R171). Irreducible, so that Lean does not unroll the 64
entries when it compares states. -/
@[irreducible] def unmarkedEntries (tlb : Vector TlbEntry 64) : Vector TlbEntry 64 :=
  Vector.ofFn fun i => { tlb.get i with mru := false }

/-- Every marker cleared (R171). -/
def State.clearMarkers (s : State) : State := { s with tlb := unmarkedEntries s.tlb }

/-- The generational reset, taken when every marker is set (R171). -/
def State.generationalReset (s : State) : State :=
  if unmarkedSlots s = [] then s.clearMarkers else s

end Sys2Proof.Machine
end

