-- ==== Sys2Proof/Machine/Cache.lean ====
section
/-! DEFINITION. Cache and controller (spec/41_cache.md R141 to R146; spec/43_controller.md R210 to R219). A procedure's
`fail` is `Run.raise ()`: an internal inconsistency (R220). -/

namespace Sys2Proof.Machine

/-- `Lookup(L1, pa)` (R141). -/
def lookup1 (s : State) (pa : Addr) : Option (Fin 8) :=
  allWays.find? fun w => (s.line1 (l1Index pa) w).valid && (s.line1 (l1Index pa) w).tag == l1Tag pa

/-- `Lookup(L2, pa)` (R141). -/
def lookup2 (s : State) (pa : Addr) : Option (Fin 8) :=
  allWays.find? fun w => (s.line2 (l2Index pa) w).valid && (s.line2 (l2Index pa) w).tag == l2Tag pa

/-- `ChooseVictim(L1, _)`: any way (R143). -/
def victim1 (s : State) : Fin 8 := choose allWays s.l1Draw 0

/-- `ChooseVictim(L2, i)`: any way whose inclusion flag is false; none if there is none (R143). -/
def victim2 (s : State) (i : Fin 256) : Option (Fin 8) :=
  match eligible2 s i with
  | [] => none
  | w :: ws => some (choose (w :: ws) s.l2Draw w)

/-- `Refill(L1, index of pa, w, …)` with the block of `pa` (R145). -/
def refill1 (pa : Addr) (w : Fin 8) (data : Block) (s : State) : State :=
  s.setLine1 (l1Index pa) w ⟨true, l1Tag pa, data⟩

/-- `Refill(L2, index of pa, w, …)` with the block of `pa` (R145). -/
def refill2 (pa : Addr) (w : Fin 8) (data : Block) (incl : Bool) (s : State) : State :=
  s.setLine2 (l2Index pa) w ⟨true, l2Tag pa, data, incl⟩

/-- `WriteBack(line, i, L1)` (R217): into the owning L2 line, which becomes evictable. -/
def writeBack1 (line : L1Line) (i : Fin 64) (s : State) : Run Unit Unit :=
  let b := l1BlockAddr i line.tag
  match lookup2 s b with
  | some w => .ok () (s.setLine2 (l2Index b) w { s.line2 (l2Index b) w with data := line.data, incl := false })
  | none => .raise () s

/-- `WriteBack(line, i, L2)` (R218): into the Backing Store, with one Write trace entry. -/
def writeBack2 (line : L2Line) (i : Fin 256) (s : State) : Run Unit Unit :=
  let b := l2BlockAddr i line.tag
  (bsWriteBlock b line.data s).bind fun _ s => .ok () (s.appendTrace b .write)

/-- The eviction of R212: the victim, if valid, is written back to L2, then invalidated. -/
def evict1 (i : Fin 64) (w : Fin 8) (s : State) : Run Unit Unit :=
  if (s.line1 i w).valid then
    (writeBack1 (s.line1 i w) i s).bind fun _ s => .ok () (s.invalidate1 i w)
  else .ok () s

/-- The eviction of R215: the victim, if valid, is written back to the Backing Store, and the miss latency accounted. -/
def evict2 (i : Fin 256) (w : Fin 8) (s : State) : Run Unit Unit :=
  if (s.line2 i w).valid then
    (writeBack2 (s.line2 i w) i s).bind fun _ s => .ok () (s.addLat s.cfg.latL2Miss)
  else .ok () s

/-- Step 3a, L2 hit in way `w` (R214): L1 way `v` is filled from it and it becomes inclusive. -/
def fillFromL2 (pa : Addr) (v w : Fin 8) (s : State) : Run Unit (Fin 8) :=
  let s := (s.addLat s.cfg.latL2Hit).bumpL2Hit
  .ok v ((refill1 pa v (s.line2 (l2Index pa) w).data s).setIncl (l2Index pa) w true)

/-- Step 3b, the block read of an L2 miss and the two refills (R215). -/
def fillFromBs (pa : Addr) (v u : Fin 8) (s : State) : Run Unit (Fin 8) :=
  (bsReadBlock (blockOf pa) s).bind fun blk s =>
    let s := (s.appendTrace (blockOf pa) .read).addLat s.cfg.latL2Miss
    .ok v (refill1 pa v blk (refill2 pa u blk true s))

/-- Step 3b, L2 miss (R215). -/
def missL2 (pa : Addr) (v : Fin 8) (s : State) : Run Unit (Fin 8) :=
  let s := s.bumpL2Miss
  match victim2 s (l2Index pa) with
  | none => .raise () s
  | some u => (evict2 (l2Index pa) u s.tookL2Draw).bind fun _ s => fillFromBs pa v u s

/-- Step 3 (R213): the L2 lookup, after the L1 victim's write-back. -/
def consultL2 (pa : Addr) (v : Fin 8) (s : State) : Run Unit (Fin 8) :=
  match lookup2 s pa with
  | some w => fillFromL2 pa v w s
  | none => missL2 pa v s

/-- Step 2, L1 miss (R212). -/
def missL1 (pa : Addr) (s : State) : Run Unit (Fin 8) :=
  let s := s.bumpL1Miss
  let v := victim1 s
  (evict1 (l1Index pa) v s.tookL1Draw).bind fun _ s => consultL2 pa v (s.addLat s.cfg.latL1Check)

/-- `AcquireLine(pa)` (R210, R211): the L1 way that holds the block of `pa`. -/
def acquireLine (pa : Addr) (s : State) : Run Unit (Fin 8) :=
  match lookup1 s pa with
  | some w => .ok w (s.addLat s.cfg.latL1Hit).bumpL1Hit
  | none => missL1 pa s

/-! Flush -/

/-- One line of `FlushAll(L1)` (R146): invalidated, then written back. -/
def flushLine1 (i : Fin 64) (w : Fin 8) (s : State) : Run Unit Unit :=
  if (s.line1 i w).valid then writeBack1 (s.line1 i w) i (s.invalidate1 i w) else .ok () s

/-- One line of `FlushAll(L2)` (R146): invalidated, then written back. -/
def flushLine2 (i : Fin 256) (w : Fin 8) (s : State) : Run Unit Unit :=
  if (s.line2 i w).valid then writeBack2 (s.line2 i w) i (s.invalidate2 i w) else .ok () s

/-- `FlushAll(L1)` (R146): ascending set, then ascending way. -/
def flushAll1 : State → Run Unit Unit :=
  Run.forEach (fun i => Run.forEach (flushLine1 i) allWays) (List.finRange 64)

/-- `FlushAll(L2)` (R146): ascending set, then ascending way. -/
def flushAll2 : State → Run Unit Unit :=
  Run.forEach (fun i => Run.forEach (flushLine2 i) allWays) (List.finRange 256)

/-- `FlushBoth()` (R219): L1, then L2. -/
def flushBoth (s : State) : Run Unit Unit :=
  (flushAll1 s).bind fun _ s => flushAll2 s

end Sys2Proof.Machine
end

