-- ==== Sys2Proof/Machine/Control.lean ====
section
/-! DEFINITION. The control, maintenance and observation commands (spec/45_control.md R270 to R283). -/

namespace Sys2Proof.Machine

/-- `flush` (R270): it has no failure response, so a missing owner is U13 (R219). -/
def execFlush (s : State) : Host.Outcome State Fault Refusal :=
  match flushBoth s with
  | .ok _ s => .next (s.respond .done)
  | .raise _ _ => .refused .flushWithoutOwner
  | .refuse r => .refused r

/-- `sfence.vma` (R271): the no-op. -/
def execSfenceVma (s : State) : Host.Outcome State Fault Refusal := .next (s.respond .done)

/-- `set.xlen` (R272). -/
def execSetXlen (data : Word) (s : State) : Host.Outcome State Fault Refusal :=
  .next ({ s with xlen := xlenOfData data }.respond .done)

/-- `set.priv` (R273); the reserved value is illegal (R101). -/
def execSetPriv (data : Word) (s : State) : Host.Outcome State Fault Refusal :=
  match privOfCode (data.extractLsb' 0 2) with
  | some p => .next ((s.setPriv p).respond .done)
  | none => .next (answerIllegal s)

/-- `set.status` (R274). -/
def execSetStatus (data : Word) (s : State) : Host.Outcome State Fault Refusal :=
  .next ({ s with status := data }.respond .done)

/-- `set.atp` (R275); the reserved scheme is illegal (R101). -/
def execSetAtp (data : Word) (s : State) : Host.Outcome State Fault Refusal :=
  match schemeOfCode (data.extractLsb' 62 2) with
  | some sch => .next ({ s with scheme := sch, rootPpn := data.extractLsb' 0 44 }.respond .done)
  | none => .next (answerIllegal s)

/-- `rd.l1hit` (R277). -/
def execRdL1Hit (s : State) : Host.Outcome State Fault Refusal := .next (s.respond (.value s.l1Hit))
/-- `rd.l1miss` (R278). -/
def execRdL1Miss (s : State) : Host.Outcome State Fault Refusal := .next (s.respond (.value s.l1Miss))
/-- `rd.l2hit` (R279). -/
def execRdL2Hit (s : State) : Host.Outcome State Fault Refusal := .next (s.respond (.value s.l2Hit))
/-- `rd.l2miss` (R280). -/
def execRdL2Miss (s : State) : Host.Outcome State Fault Refusal := .next (s.respond (.value s.l2Miss))

/-- `drain.lat` (R281): read and zeroed in one step. -/
def execDrainLat (s : State) : Host.Outcome State Fault Refusal :=
  .next ({ s with lat := 0 }.respond (.value s.lat))

/-- The code of a trace entry's kind (R40). -/
def TraceKind.code : TraceKind → Byte
  | .read => 0
  | .write => 1

/-- The 17 bytes of a trace entry (R282). -/
def traceBytes (e : TraceEntry) : List Byte := bytesOf 8 e.addr ++ [e.kind.code] ++ bytesOf 8 e.cycle

/-- `trace.rd` (R282). -/
def execTraceRd (s : State) : Host.Outcome State Fault Refusal :=
  .next (s.respond (.bytes (BitVec.ofNat 64 s.trace.length) (s.trace.flatMap traceBytes)))

/-- `trace.clr` (R283). -/
def execTraceClr (s : State) : Host.Outcome State Fault Refusal :=
  .next ({ s with trace := [] }.respond .done)

end Sys2Proof.Machine
end

