-- ==== Sys2Proof/Machine/Translator.lean ====
section
/-! DEFINITION. The address translator, its TLB and the page walk (spec/42_translator.md R166 to R191). A procedure's
`fail` is `Run.raise ()`; what it becomes is the facade's (R193). No check beyond these is made (R194). -/

namespace Sys2Proof.Machine

/-- `TlbLookup(tag)` (R168). -/
def tlbLookup (s : State) (tag : TlbTag) : Option (Fin 64) :=
  allSlots.find? fun i => (s.tlbEntry i).valid && (s.tlbEntry i).tag == tag

/-- The slot an insertion takes, in a state whose markers a generational reset has left as they are: a free slot if there
is one, else an unmarked one (R171). -/
def insertSlot (s : State) : Fin 64 :=
  match freeSlots s with
  | [] => choose (unmarkedSlots s) s.tlbDraw 0
  | i :: is => choose (i :: is) s.tlbDraw 0

/-- `TlbInsert(tag, pte)` (R171): the generational reset only when no slot is free. -/
def tlbInsert (tag : TlbTag) (pte : Word) (s : State) : State :=
  let s := if freeSlots s = [] then s.generationalReset else s
  s.tookTlbDraw.setTlbEntry (insertSlot s) ⟨true, tag, pte, true⟩

/-- Walk step (a) (R184, R169, R170): the entry, from the TLB or else directly from the Backing Store. -/
def fetchPte (p : Paging) (level : Nat) (parent : BitVec 44) (a : Addr) (s : State) : Run Unit Word :=
  let tag := tlbTag s.cfg.tagMode level (p.key a)
  match tlbLookup s tag with
  | some i => .ok (s.tlbEntry i).pte ((s.markTlb i).addLat s.cfg.latTlbHit)
  | none =>
    (bsRead (p.pteAddr level parent a) p.pteSize s).bind fun bytes s =>
      let pte := leWord bytes
      let s := s.addLat s.cfg.latPteRead
      .ok pte (if looksLikeLeaf pte then tlbInsert tag pte s else s)

/-- Walk step (d) (R188): the Accessed/Dirty rewrite, in the Backing Store and nowhere else. -/
def rewriteEntry (p : Paging) (kind : AccessKind) (addr : Addr) (pte : Word) (s : State) : Run Unit Unit :=
  if needsRewrite kind pte then
    (bsWrite addr (bytesOf p.pteSize (withAccessed kind pte)) s).bind fun _ s =>
      .ok () (s.addLat s.cfg.latPteWrite)
  else .ok () s

/-- Walk steps (d) to (g) on a leaf (R188 to R191). -/
def useLeaf (p : Paging) (kind : AccessKind) (level : Nat) (addr a : Addr) (pte : Word) (s : State) :
    Run Unit Addr :=
  (rewriteEntry p kind addr pte s).bind fun _ s =>
    if !permits kind pte then .raise () s
    else if misaligned p level pte then .raise () s
    else .ok (p.leafAddr level pte a) s

/-- One walk step (R184 to R191); `descend` is the step one level down, which a pointer calls with its page number. -/
def walkStep (p : Paging) (kind : AccessKind) (a : Addr) (level : Nat) (parent : BitVec 44)
    (descend : BitVec 44 → State → Run Unit Addr) (s : State) : Run Unit Addr :=
  (fetchPte p level parent a s).bind fun pte s =>
    if rejectedEntry pte then .raise () s
    else if isPointer pte then descend (p.ppn pte) s
    else useLeaf p kind level (p.pteAddr level parent a) a pte s

/-- The page walk (R184 to R191), which fails on a pointer at level 0 (R186). -/
def walk (p : Paging) (kind : AccessKind) (a : Addr) : Nat → BitVec 44 → State → Run Unit Addr
  | 0, parent, s => walkStep p kind a 0 parent (fun _ s => .raise () s) s
  | level + 1, parent, s => walkStep p kind a (level + 1) parent (walk p kind a level) s

/-- Step 3 (R183): the walk from the top level with the root page number. -/
def startWalk (p : Paging) (va : Addr) (kind : AccessKind) (s : State) : Run Unit Addr :=
  walk p kind (effective s.xlen va) p.top s.rootPpn s

/-- Step 2 (R182) in Machine mode, for a kind other than Execute with `MPRV` set: `priv` substituted, translated, then
restored, unless the effective privilege is Machine; the reserved value is U4. -/
def translateAs (p : Paging) (va : Addr) (kind : AccessKind) (s : State) : Run Unit Addr :=
  match privOfCode (mpp s.cfg s.status) with
  | none => .refuse .reservedEffectivePrivilege
  | some .M => .ok (effective s.xlen va) s
  | some eff => (startWalk p va kind (s.setPriv eff)).mapState fun t => t.setPriv s.priv

/-- Step 2 (R182): who is translated. -/
def translatePaged (p : Paging) (va : Addr) (kind : AccessKind) (s : State) : Run Unit Addr :=
  match s.priv with
  | .M =>
    if kind = .execute then .ok (effective s.xlen va) s
    else if mprv s.cfg s.status then translateAs p va kind s
    else .ok (effective s.xlen va) s
  | .U | .S => startWalk p va kind s

/-- `Translate(va, kind)` (R179 to R183). -/
def translate (va : Addr) (kind : AccessKind) (s : State) : Run Unit Addr :=
  match s.scheme.paging with
  | none => .ok (effective s.xlen va) s
  | some p => translatePaged p va kind s

end Sys2Proof.Machine
end

