-- ==== Sys2Proof/Machine/Facade.lean ====
section
/-! DEFINITION. The memory access facade (spec/44_facade.md R230 to R250): the virtual-access and physical data-phase
primitives, and the meanings of the loads, stores, fetches and `validate`. -/

namespace Sys2Proof.Machine

/-! The physical data phase -/

/-- Whether the bytes lie in one line and a line access can move them (R238, R239). -/
def oneLine (pa : Addr) (n : Nat) : Bool := n ≤ 8 && blockOffset pa + n ≤ 64

/-- One controller round trip of a read: `AcquireLine`, then `LineGet` (R238). -/
def readLine (pa : Addr) (n : Nat) (s : State) : Run Unit (List Byte) :=
  (acquireLine pa s).bind fun w s => .ok (blockGet (s.line1 (l1Index pa) w).data (blockOffset pa) n) s

/-- One controller round trip of a write: `AcquireLine`, then `LineSet` on the L1 line only (R239). -/
def writeLine (pa : Addr) (bytes : List Byte) (s : State) : Run Unit Unit :=
  (acquireLine pa s).bind fun w s =>
    let line := s.line1 (l1Index pa) w
    .ok () (s.setLine1 (l1Index pa) w { line with data := blockSet line.data (blockOffset pa) bytes })

/-- `n` single-byte round trips of a read, ascending (R238). -/
def readLineBytes : Nat → Addr → State → Run Unit (List Byte)
  | 0, _, s => .ok [] s
  | n + 1, pa, s =>
    (readLine pa 1 s).bind fun b s => (readLineBytes n (pa + 1) s).bind fun bs s => .ok (b ++ bs) s

/-- Single-byte round trips of a write, ascending (R239). -/
def writeLineBytes : List Byte → Addr → State → Run Unit Unit
  | [], _, s => .ok () s
  | b :: bs, pa, s => (writeLine pa [b] s).bind fun _ s => writeLineBytes bs (pa + 1) s

/-- `PhysRead(pa, n)` (R238), the bytes lowest address first. -/
def physRead (pa : Addr) (n : Nat) (s : State) : Run Unit (List Byte) :=
  if oneLine pa n then readLine pa n s else readLineBytes n pa s

/-- `PhysWrite(pa, n, v)` (R239), `v` given as its bytes. -/
def physWrite (pa : Addr) (bytes : List Byte) (s : State) : Run Unit Unit :=
  if oneLine pa bytes.length then writeLine pa bytes s else writeLineBytes bytes pa s

/-! The virtual access -/

/-- The page fault of an access kind (R193); DontCare, which raises none (R250), is put with the loads. -/
def pageFault : AccessKind → FailureKind
  | .execute => .instructionPageFault
  | .read => .loadPageFault
  | .write => .storePageFault
  | .dontCare => .loadPageFault

/-- The access fault of an access kind (R232, R233): a fetch reports the load's (D29). -/
def accessFault : AccessKind → FailureKind
  | .execute => .loadAccessFault
  | .read => .loadAccessFault
  | .write => .storeAccessFault
  | .dontCare => .loadAccessFault

/-- One translation, then one data phase at the address it gives; the failure of either is raised with `va` (R232, R233). -/
def access {α : Type} (va : Addr) (kind : AccessKind) (phase : Addr → State → Run Unit α) (s : State) :
    Run Failure α :=
  ((translate va kind s).mapFailure fun _ => ⟨pageFault kind, va⟩).bind fun pa s =>
    (phase pa s).mapFailure fun _ => ⟨accessFault kind, va⟩

/-- `n` one-byte `MemRead`s, ascending, addresses modulo 2^64 (R234, R236). -/
def memReadBytes (kind : AccessKind) : Nat → Addr → State → Run Failure (List Byte)
  | 0, _, s => .ok [] s
  | n + 1, va, s =>
    (access va kind (fun pa s => physRead pa 1 s) s).bind fun b s =>
      (memReadBytes kind n (va + 1) s).bind fun bs s => .ok (b ++ bs) s

/-- One-byte `MemWrite`s, ascending, addresses modulo 2^64 (R235, R236). -/
def memWriteBytes : List Byte → Addr → State → Run Failure Unit
  | [], _, s => .ok () s
  | b :: bs, va, s =>
    (access va .write (fun pa s => physWrite pa [b] s) s).bind fun _ s => memWriteBytes bs (va + 1) s

/-- `MemRead(va, n, kind)` (R232, R234), the bytes lowest address first. -/
def memRead (va : Addr) (n : Nat) (kind : AccessKind) (s : State) : Run Failure (List Byte) :=
  if singlePage va n then access va kind (fun pa s => physRead pa n s) s else memReadBytes kind n va s

/-- `MemWrite(va, n, v)` (R233, R235), `v` given as its bytes. -/
def memWrite (va : Addr) (bytes : List Byte) (s : State) : Run Failure Unit :=
  if singlePage va bytes.length then access va .write (fun pa s => physWrite pa bytes s) s
  else memWriteBytes bytes va s

/-- A load of `n` bytes: the value, zero-extended, in `rdata` (R99, R240 to R243). -/
def load (addr : Addr) (n : Nat) (s : State) : Host.Outcome State Fault Refusal :=
  finish (fun bs => .value (leWord bs)) (memRead addr n .read s)

/-- A store of the low `n` bytes of `data` (R99, R244 to R247). -/
def store (addr : Addr) (n : Nat) (data : Word) (s : State) : Host.Outcome State Fault Refusal :=
  finish (fun _ => .done) (memWrite addr (bytesOf n data) s)

/-! Meanings -/

/-- `load.b` (R240). -/
def execLoadB (addr : Addr) (s : State) : Host.Outcome State Fault Refusal := load addr 1 s
/-- `load.h` (R241). -/
def execLoadH (addr : Addr) (s : State) : Host.Outcome State Fault Refusal := load addr 2 s
/-- `load.w` (R242). -/
def execLoadW (addr : Addr) (s : State) : Host.Outcome State Fault Refusal := load addr 4 s
/-- `load.d` (R243). -/
def execLoadD (addr : Addr) (s : State) : Host.Outcome State Fault Refusal := load addr 8 s
/-- `store.b` (R244). -/
def execStoreB (addr : Addr) (data : Word) (s : State) : Host.Outcome State Fault Refusal := store addr 1 data s
/-- `store.h` (R245). -/
def execStoreH (addr : Addr) (data : Word) (s : State) : Host.Outcome State Fault Refusal := store addr 2 data s
/-- `store.w` (R246). -/
def execStoreW (addr : Addr) (data : Word) (s : State) : Host.Outcome State Fault Refusal := store addr 4 data s
/-- `store.d` (R247). -/
def execStoreD (addr : Addr) (data : Word) (s : State) : Host.Outcome State Fault Refusal := store addr 8 data s

/-- `fetch.w` (R248): 4 bytes whatever the word width. -/
def execFetchW (addr : Addr) (s : State) : Host.Outcome State Fault Refusal :=
  finish (fun bs => .value (leWord bs)) (memRead addr 4 .execute s)

/-- `fetch.blk` (R249): the bytes in `payload`, `rdata` = 0; `len` = 0 is illegal (R101). -/
def execFetchBlk (addr : Addr) (len : Byte) (s : State) : Host.Outcome State Fault Refusal :=
  if len = 0 then .next (answerIllegal s)
  else finish (fun bs => .bytes 0 bs) (memRead addr len.toNat .execute s)

/-- Whether `validate` accepts a physical address: `BsValid(pa) or EXTRA_VALID(pa)` (R250). -/
def acceptable (cfg : Config) (pa : Addr) : Bool :=
  bsValid cfg pa || cfg.extraValid.any fun r => r.base ≤ pa.toNat && pa.toNat < r.base + r.size

/-- `validate` (R250): it never raises; a translation that fails gives 0. -/
def execValidate (addr : Addr) (s : State) : Host.Outcome State Fault Refusal :=
  match translate addr .dontCare s with
  | .ok pa s => .next (s.respond (.value (if acceptable s.cfg pa then 1 else 0)))
  | .raise _ s => .next (s.respond (.value 0))
  | .refuse r => .refused r

end Sys2Proof.Machine
end

