-- ==== Sys2Proof/Syntax.lean ====
section
/-! DEFINITION. The 24 commands of spec/opcode_table.json (spec/30_encoding.md R90, R94), one constructor a row. An
operand is the request field its format uses (R93), whole: the bits a command ignores (R98, R99) are ignored by its
meaning, not dropped here. -/

namespace Sys2Proof

/-- A command with its operands, in the order of R103: `addr`, `len`, `data`. -/
inductive Instr where
  /-- `load.b addr` (R240) -/
  | loadB (addr : Addr)
  /-- `load.h addr` (R241) -/
  | loadH (addr : Addr)
  /-- `load.w addr` (R242) -/
  | loadW (addr : Addr)
  /-- `load.d addr` (R243) -/
  | loadD (addr : Addr)
  /-- `store.b addr, data` (R244) -/
  | storeB (addr : Addr) (data : Word)
  /-- `store.h addr, data` (R245) -/
  | storeH (addr : Addr) (data : Word)
  /-- `store.w addr, data` (R246) -/
  | storeW (addr : Addr) (data : Word)
  /-- `store.d addr, data` (R247) -/
  | storeD (addr : Addr) (data : Word)
  /-- `fetch.w addr` (R248) -/
  | fetchW (addr : Addr)
  /-- `fetch.blk addr, len` (R249) -/
  | fetchBlk (addr : Addr) (len : Byte)
  /-- `validate addr` (R250) -/
  | validate (addr : Addr)
  /-- `flush` (R270) -/
  | flush
  /-- `sfence.vma` (R271) -/
  | sfenceVma
  /-- `set.xlen data` (R272) -/
  | setXlen (data : Word)
  /-- `set.priv data` (R273) -/
  | setPriv (data : Word)
  /-- `set.status data` (R274) -/
  | setStatus (data : Word)
  /-- `set.atp data` (R275) -/
  | setAtp (data : Word)
  /-- `rd.l1hit` (R277) -/
  | rdL1Hit
  /-- `rd.l1miss` (R278) -/
  | rdL1Miss
  /-- `rd.l2hit` (R279) -/
  | rdL2Hit
  /-- `rd.l2miss` (R280) -/
  | rdL2Miss
  /-- `drain.lat` (R281) -/
  | drainLat
  /-- `trace.rd` (R282) -/
  | traceRd
  /-- `trace.clr` (R283) -/
  | traceClr
  deriving DecidableEq, Repr

end Sys2Proof
end

