-- ==== Sys2Proof/Machine/Dispatch.lean ====
section
/-! DEFINITION. The meaning of each command: one arm per constructor, each one call. -/

namespace Sys2Proof.Machine

def exec (i : Instr) (s : State) : Host.Outcome State Fault Refusal :=
  match i with
  | .loadB addr => Sys2Proof.Machine.execLoadB addr s
  | .loadH addr => Sys2Proof.Machine.execLoadH addr s
  | .loadW addr => Sys2Proof.Machine.execLoadW addr s
  | .loadD addr => Sys2Proof.Machine.execLoadD addr s
  | .storeB addr data => Sys2Proof.Machine.execStoreB addr data s
  | .storeH addr data => Sys2Proof.Machine.execStoreH addr data s
  | .storeW addr data => Sys2Proof.Machine.execStoreW addr data s
  | .storeD addr data => Sys2Proof.Machine.execStoreD addr data s
  | .fetchW addr => Sys2Proof.Machine.execFetchW addr s
  | .fetchBlk addr len => Sys2Proof.Machine.execFetchBlk addr len s
  | .validate addr => Sys2Proof.Machine.execValidate addr s
  | .flush => Sys2Proof.Machine.execFlush s
  | .sfenceVma => Sys2Proof.Machine.execSfenceVma s
  | .setXlen data => Sys2Proof.Machine.execSetXlen data s
  | .setPriv data => Sys2Proof.Machine.execSetPriv data s
  | .setStatus data => Sys2Proof.Machine.execSetStatus data s
  | .setAtp data => Sys2Proof.Machine.execSetAtp data s
  | .rdL1Hit => Sys2Proof.Machine.execRdL1Hit s
  | .rdL1Miss => Sys2Proof.Machine.execRdL1Miss s
  | .rdL2Hit => Sys2Proof.Machine.execRdL2Hit s
  | .rdL2Miss => Sys2Proof.Machine.execRdL2Miss s
  | .drainLat => Sys2Proof.Machine.execDrainLat s
  | .traceRd => Sys2Proof.Machine.execTraceRd s
  | .traceClr => Sys2Proof.Machine.execTraceClr s

end Sys2Proof.Machine
end

