-- ==== Sys2Proof/WellFormed.lean ====
section
/-! DEFINITION. The operand values R101 (spec/30_encoding.md) makes illegal, as a check on commands. -/

namespace Sys2Proof

/-- Whether R101 admits the command's operands: `fetch.blk` has a nonzero length, `set.priv` names one of the three
levels, `set.atp` names one of the three schemes. Every other command admits every operand. -/
def Instr.wf : Instr → Bool
  | .fetchBlk _ len => len != 0
  | .setPriv data => data.extractLsb' 0 2 != 2
  | .setAtp data => data.extractLsb' 62 2 != 3
  | .loadB _ | .loadH _ | .loadW _ | .loadD _ => true
  | .storeB _ _ | .storeH _ _ | .storeW _ _ | .storeD _ _ => true
  | .fetchW _ | .validate _ | .flush | .sfenceVma => true
  | .setXlen _ | .setStatus _ => true
  | .rdL1Hit | .rdL1Miss | .rdL2Hit | .rdL2Miss | .drainLat | .traceRd | .traceClr => true

end Sys2Proof
end

