-- ==== Sys2Proof/Decode.lean ====
section
/-! DEFINITION. Requests (spec/30_encoding.md R91 to R94, R101, R102): their fields, the decoder, total and rejecting by
name, the encoder written from the same table, and the 18-byte serialisation. -/

namespace Sys2Proof

/-- A request: 144 bits, one length and one layout (R91, R102). -/
abbrev Request := BitVec 144

/-- `cmd`, bits 7:0 (R91). -/
def Request.cmd (w : Request) : Byte := w.extractLsb' 0 8
/-- `len`, bits 15:8 (R91). -/
def Request.len (w : Request) : Byte := w.extractLsb' 8 8
/-- `addr`, bits 79:16 (R91). -/
def Request.addr (w : Request) : Addr := w.extractLsb' 16 64
/-- `data`, bits 143:80 (R91). -/
def Request.data (w : Request) : Word := w.extractLsb' 80 64

/-- Why the decoder rejects a request (R101, and R91 for a byte string of another length). -/
inductive DecodeError where
  /-- `cmd` is not one of the 24 codes. -/
  | reservedCommand
  /-- `fetch.blk` with `len` = 0. -/
  | zeroLength
  /-- `set.priv` with `data[1:0]` = 2. -/
  | reservedPrivilege
  /-- `set.atp` with `data[63:62]` = 3. -/
  | reservedScheme
  /-- A byte string that is not 18 bytes long is no request (R91). -/
  | wrongLength
  deriving DecidableEq, Repr

/-- The command map of R94: `cmd` alone selects the command. -/
def select (w : Request) : Except DecodeError Instr :=
  match w.cmd with
  | 0x10 => .ok (.loadB w.addr)
  | 0x11 => .ok (.loadH w.addr)
  | 0x12 => .ok (.loadW w.addr)
  | 0x13 => .ok (.loadD w.addr)
  | 0x20 => .ok (.storeB w.addr w.data)
  | 0x21 => .ok (.storeH w.addr w.data)
  | 0x22 => .ok (.storeW w.addr w.data)
  | 0x23 => .ok (.storeD w.addr w.data)
  | 0x30 => .ok (.fetchW w.addr)
  | 0x31 => .ok (.fetchBlk w.addr w.len)
  | 0x40 => .ok (.validate w.addr)
  | 0x50 => .ok .flush
  | 0x51 => .ok .sfenceVma
  | 0x60 => .ok (.setXlen w.data)
  | 0x61 => .ok (.setPriv w.data)
  | 0x62 => .ok (.setStatus w.data)
  | 0x63 => .ok (.setAtp w.data)
  | 0x70 => .ok .rdL1Hit
  | 0x71 => .ok .rdL1Miss
  | 0x72 => .ok .rdL2Hit
  | 0x73 => .ok .rdL2Miss
  | 0x74 => .ok .drainLat
  | 0x75 => .ok .traceRd
  | 0x76 => .ok .traceClr
  | _ => .error .reservedCommand

/-- The name under which an ill-formed command is rejected (R101). -/
def rejection : Instr → DecodeError
  | .fetchBlk _ _ => .zeroLength
  | .setPriv _ => .reservedPrivilege
  | .setAtp _ => .reservedScheme
  | .loadB _ | .loadH _ | .loadW _ | .loadD _ => .reservedCommand
  | .storeB _ _ | .storeH _ _ | .storeW _ _ | .storeD _ _ => .reservedCommand
  | .fetchW _ | .validate _ | .flush | .sfenceVma => .reservedCommand
  | .setXlen _ | .setStatus _ => .reservedCommand
  | .rdL1Hit | .rdL1Miss | .rdL2Hit | .rdL2Miss | .drainLat | .traceRd | .traceClr => .reservedCommand

/-- The decoder (R94, R101): the selected command if its operands are admitted, else a rejection by name. -/
def decode (w : Request) : Except DecodeError Instr :=
  match select w with
  | .ok i => if i.wf then .ok i else .error (rejection i)
  | .error e => .error e

/-- The command code of R94. -/
def opcode : Instr → Byte
  | .loadB _ => 0x10
  | .loadH _ => 0x11
  | .loadW _ => 0x12
  | .loadD _ => 0x13
  | .storeB _ _ => 0x20
  | .storeH _ _ => 0x21
  | .storeW _ _ => 0x22
  | .storeD _ _ => 0x23
  | .fetchW _ => 0x30
  | .fetchBlk _ _ => 0x31
  | .validate _ => 0x40
  | .flush => 0x50
  | .sfenceVma => 0x51
  | .setXlen _ => 0x60
  | .setPriv _ => 0x61
  | .setStatus _ => 0x62
  | .setAtp _ => 0x63
  | .rdL1Hit => 0x70
  | .rdL1Miss => 0x71
  | .rdL2Hit => 0x72
  | .rdL2Miss => 0x73
  | .drainLat => 0x74
  | .traceRd => 0x75
  | .traceClr => 0x76

/-- The `addr` field a command sends: its operand, or zero where its format has none (R91, R93). -/
def addrField : Instr → Addr
  | .loadB a | .loadH a | .loadW a | .loadD a => a
  | .storeB a _ | .storeH a _ | .storeW a _ | .storeD a _ => a
  | .fetchW a | .fetchBlk a _ | .validate a => a
  | .flush | .sfenceVma | .setXlen _ | .setPriv _ | .setStatus _ | .setAtp _ => 0
  | .rdL1Hit | .rdL1Miss | .rdL2Hit | .rdL2Miss | .drainLat | .traceRd | .traceClr => 0

/-- The `len` field a command sends (R91, R93). -/
def lenField : Instr → Byte
  | .fetchBlk _ len => len
  | .loadB _ | .loadH _ | .loadW _ | .loadD _ | .fetchW _ | .validate _ => 0
  | .storeB _ _ | .storeH _ _ | .storeW _ _ | .storeD _ _ => 0
  | .flush | .sfenceVma | .setXlen _ | .setPriv _ | .setStatus _ | .setAtp _ => 0
  | .rdL1Hit | .rdL1Miss | .rdL2Hit | .rdL2Miss | .drainLat | .traceRd | .traceClr => 0

/-- The `data` field a command sends (R91, R93). -/
def dataField : Instr → Word
  | .storeB _ d | .storeH _ d | .storeW _ d | .storeD _ d => d
  | .setXlen d | .setPriv d | .setStatus d | .setAtp d => d
  | .loadB _ | .loadH _ | .loadW _ | .loadD _ | .fetchW _ | .fetchBlk _ _ | .validate _ => 0
  | .flush | .sfenceVma => 0
  | .rdL1Hit | .rdL1Miss | .rdL2Hit | .rdL2Miss | .drainLat | .traceRd | .traceClr => 0

/-- Whether a command's format uses the `addr` field: formats V, VL and VD (R93). -/
def usesAddr : Instr → Bool
  | .loadB _ | .loadH _ | .loadW _ | .loadD _ | .fetchW _ | .fetchBlk _ _ | .validate _ => true
  | .storeB _ _ | .storeH _ _ | .storeW _ _ | .storeD _ _ => true
  | .flush | .sfenceVma | .setXlen _ | .setPriv _ | .setStatus _ | .setAtp _ => false
  | .rdL1Hit | .rdL1Miss | .rdL2Hit | .rdL2Miss | .drainLat | .traceRd | .traceClr => false

/-- Whether a command's format uses the `len` field: format VL (R93). -/
def usesLen : Instr → Bool
  | .fetchBlk _ _ => true
  | .loadB _ | .loadH _ | .loadW _ | .loadD _ | .fetchW _ | .validate _ => false
  | .storeB _ _ | .storeH _ _ | .storeW _ _ | .storeD _ _ => false
  | .flush | .sfenceVma | .setXlen _ | .setPriv _ | .setStatus _ | .setAtp _ => false
  | .rdL1Hit | .rdL1Miss | .rdL2Hit | .rdL2Miss | .drainLat | .traceRd | .traceClr => false

/-- Whether a command's format uses the `data` field: formats VD and D (R93). -/
def usesData : Instr → Bool
  | .storeB _ _ | .storeH _ _ | .storeW _ _ | .storeD _ _ => true
  | .setXlen _ | .setPriv _ | .setStatus _ | .setAtp _ => true
  | .loadB _ | .loadH _ | .loadW _ | .loadD _ | .fetchW _ | .fetchBlk _ _ | .validate _ => false
  | .flush | .sfenceVma => false
  | .rdL1Hit | .rdL1Miss | .rdL2Hit | .rdL2Miss | .drainLat | .traceRd | .traceClr => false

/-- The encoder: the request of R91 that stands for a command, unused fields zero. -/
def encode (i : Instr) : Request :=
  dataField i ++ addrField i ++ lenField i ++ opcode i

/-- A request as its 18 bytes, byte 0 = `cmd`, byte 1 = `len`, then `addr` and `data` little-endian (R91). -/
def requestBytes (w : Request) : List Byte :=
  (List.range 18).map fun k => w.extractLsb' (8 * k) 8

/-- The request 18 bytes stand for. -/
def requestOfBytes : List Byte → Request
  | [] => 0
  | b :: bs => (b.setWidth 144) ||| (requestOfBytes bs <<< 8)

/-- The decoder on a byte string of any length (R91, R101). -/
def decodeBytes (bs : List Byte) : Except DecodeError Instr :=
  if bs.length = 18 then decode (requestOfBytes bs) else .error .wrongLength

/-- The instruction the decoder reads from a table word: `nbits` bits of `w`, every higher bit of the request 0. -/
def decodeTableWord (nbits w : Nat) : Option Instr :=
  match decodeBytes (requestBytes (BitVec.ofNat 144 (w % 2 ^ nbits))) with
  | .ok i => some i
  | .error _ => none

/-- The mnemonic of R94, the first word of the textual form of R103. -/
def Instr.mnemonic : Instr → String
  | .loadB _ => "load.b"
  | .loadH _ => "load.h"
  | .loadW _ => "load.w"
  | .loadD _ => "load.d"
  | .storeB _ _ => "store.b"
  | .storeH _ _ => "store.h"
  | .storeW _ _ => "store.w"
  | .storeD _ _ => "store.d"
  | .fetchW _ => "fetch.w"
  | .fetchBlk _ _ => "fetch.blk"
  | .validate _ => "validate"
  | .flush => "flush"
  | .sfenceVma => "sfence.vma"
  | .setXlen _ => "set.xlen"
  | .setPriv _ => "set.priv"
  | .setStatus _ => "set.status"
  | .setAtp _ => "set.atp"
  | .rdL1Hit => "rd.l1hit"
  | .rdL1Miss => "rd.l1miss"
  | .rdL2Hit => "rd.l2hit"
  | .rdL2Miss => "rd.l2miss"
  | .drainLat => "drain.lat"
  | .traceRd => "trace.rd"
  | .traceClr => "trace.clr"

/-- A number as R103 writes it, in hexadecimal. -/
def hexText (n : Nat) : String := "0x" ++ String.ofList (Nat.toDigits 16 n)

/-- The textual form of R103: the mnemonic, then the operands of the format, in the order `addr`, `len`, `data`. -/
def Instr.text (i : Instr) : String :=
  let operands := (if usesAddr i then [hexText (addrField i).toNat] else []) ++
    (if usesLen i then [toString (lenField i).toNat] else []) ++
    (if usesData i then [hexText (dataField i).toNat] else [])
  if operands = [] then i.mnemonic else i.mnemonic ++ " " ++ ", ".intercalate operands

/-- The pseudo-commands of R104. -/
inductive Pseudo where
  /-- `load a, w` -/
  | load (addr : Addr) (width : Nat)
  /-- `store a, w, v` -/
  | store (addr : Addr) (width : Nat) (data : Word)
  /-- `fence` -/
  | fence
  /-- `tick` -/
  | tick
  /-- `set.satp32 v` -/
  | setSatp32 (v : BitVec 32)
  /-- `set.satp64 v` -/
  | setSatp64 (v : Word)
  deriving DecidableEq, Repr

/-- The `set.atp` data word that carries a scheme code and a root page number (R98). -/
def atpData (scheme : BitVec 2) (root : BitVec 44) : Word := scheme ++ (0 : BitVec 18) ++ root

/-- The expansion of R104; `none` where the pseudo-command is not admitted. -/
def Pseudo.expand : Pseudo → Option (List Instr)
  | .load a 1 => some [.loadB a]
  | .load a 2 => some [.loadH a]
  | .load a 4 => some [.loadW a]
  | .load a 8 => some [.loadD a]
  | .load _ _ => none
  | .store a 1 v => some [.storeB a v]
  | .store a 2 v => some [.storeH a v]
  | .store a 4 v => some [.storeW a v]
  | .store a 8 v => some [.storeD a v]
  | .store _ _ _ => none
  | .fence => some [.flush]
  | .tick => some [.drainLat, .traceClr]
  | .setSatp32 v =>
    some [.setAtp (atpData (if v.getLsbD 31 then 1 else 0) ((v.extractLsb' 0 22).setWidth 44))]
  | .setSatp64 v =>
    if v.extractLsb' 60 4 = 0 then some [.setAtp (atpData 0 (v.extractLsb' 0 44))]
    else if v.extractLsb' 60 4 = 8 then some [.setAtp (atpData 2 (v.extractLsb' 0 44))]
    else none

end Sys2Proof
end

