-- ==== Sys2Proof/Machine/Interface.lean ====
section
/-! DEFINITION. What the outside does to CORE between commands: presenting a request (spec/30_encoding.md R90 to R92),
a host read or write of the Backing Store, and reset (spec/70_reset_and_hazards.md R320, R331). -/

namespace Sys2Proof.Machine

/-- The next input and the state once it is taken; none when nothing waits. -/
def takeInput (s : State) : Option (Input × State) :=
  match s.inputs with
  | [] => none
  | x :: rest => some (x, { s with inputs := rest })

/-- The state in which a request's command runs: `now` and the draws are those presented with it (R13, R41). -/
def beginCommand (now : Word) (draws : Draws) (s : State) : State := { s with now := now, draws := draws }

/-- A host write of one byte: `BS` changes and nothing else (R331); an address outside the window names no byte of `BS`. -/
def hostWrite (addr : Addr) (byte : Byte) (s : State) : Host.Outcome State Fault Refusal :=
  if bsValid s.cfg addr then .next (s.setBs (Memory.write s.bs addr.toNat byte))
  else .refused .outsideBackingStore

/-- What a host read of one byte gives: `BS`, not `View` (R331, R336). It changes nothing and is no step. -/
def hostRead (s : State) (addr : Addr) : Option Byte :=
  if bsValid s.cfg addr then some (s.bsByte addr) else none

/-- Reset as a host action (R320, R331): every state element at its reset value. The configuration stays, and so do the
inputs that wait outside and the count of free draws taken. -/
def hostReset (s : State) : State := State.resetWith s.cfg s.inputs s.drawCount

/-- A request waiting before all others, with the same `now` as the last and a first choice of 0 for each kind of draw
(DESIGN CHOICE of this helper, which no statement rests on: notes/assumptions/6.md). -/
def present (request : BitVec 144) (s : State) : State :=
  { s with inputs := .command request s.now ⟨[0], [0], [0]⟩ :: s.inputs }

end Sys2Proof.Machine
end

