-- ==== Sys2Proof/Machine/Step.lean ====
section
/-! DEFINITION. One step: one command run to completion, or one host action, or, when nothing waits, nothing. -/

namespace Sys2Proof.Machine

/-- One step (R11, R90). A request is decoded before any state is touched; a rejected one is answered `Illegal` (R101,
R293). With nothing waiting CORE stays as it is: it does nothing by itself (R301, R321). -/
def step (s : State) : Host.Outcome State Fault Refusal :=
  match takeInput s with
  | none => .next s
  | some (.command request now draws, s) =>
    match decode request with
    | .ok i => exec i (beginCommand now draws s)
    | .error _ => .next (answerIllegal (beginCommand now draws s))
  | some (.hostWrite addr byte, s) => hostWrite addr byte s
  | some (.reset, s) => .next (hostReset s)

/-- `s` with a request presented first: `nbits` bits of `w`, every higher bit of the request 0. -/
def State.withFetchWord (s : State) (nbits w : Nat) : State :=
  present (BitVec.ofNat 144 (w % 2 ^ nbits)) s

end Sys2Proof.Machine
end

