-- ==== Sys2Proof/Safety.lean ====
section
/-! DEFINITION. The terms claims use: `View` (spec/20_memory.md R71), what a configuration must satisfy (R81, R120), the
invariants of the state (spec/10_state.md R30, R44; spec/45_control.md R280), and what two states share. -/

namespace Sys2Proof

/-- What R81 and R120 require of the parameters (`MEM_BASE`, `MEM_SIZE` multiples of 64, the window within 64 bits), with
the memory image in canonical form. -/
abbrev Config.wf (c : Config) : Prop :=
  c.memBase % 64 = 0 ∧ c.memSize % 64 = 0 ∧ c.memBase + c.memSize ≤ 2 ^ 64 ∧
    Machine.Memory.wf c.initMem = true

namespace Machine

/-- `View(pa)` (R71): the byte the access path holds for a physical address. -/
def State.view (s : State) (pa : Addr) : Byte :=
  match lookup1 s pa with
  | some w => blockByte (s.line1 (l1Index pa) w).data (blockOffset pa)
  | none =>
    match lookup2 s pa with
    | some w => blockByte (s.line2 (l2Index pa) w).data (blockOffset pa)
    | none => s.bsByte pa

/-- The block address of the line in `L1[i][w]` (R137). -/
def State.block1 (s : State) (i : Fin 64) (w : Fin 8) : Addr := l1BlockAddr i (s.line1 i w).tag

/-- The block address of the line in `L2[i][w]` (R137). -/
def State.block2 (s : State) (i : Fin 256) (w : Fin 8) : Addr := l2BlockAddr i (s.line2 i w).tag

/-- Inclusion of presence (R44). -/
structure Inclusion (s : State) : Prop where
  /-- (a): a valid L1 line's block is in a valid L2 line whose `incl` is 1. -/
  owned : ∀ i w, (s.line1 i w).valid = true →
    ∃ j x, (s.line2 j x).valid = true ∧ s.block2 j x = s.block1 i w ∧ (s.line2 j x).incl = true
  /-- (b): an L2 line with `incl` = 1 is valid and its block is in a valid L1 line. -/
  resident : ∀ j x, (s.line2 j x).incl = true →
    (s.line2 j x).valid = true ∧ ∃ i w, (s.line1 i w).valid = true ∧ s.block1 i w = s.block2 j x
  /-- (c) at L1: no two valid lines have the same block address. -/
  distinct1 : ∀ i w i' w', (s.line1 i w).valid = true → (s.line1 i' w').valid = true →
    s.block1 i w = s.block1 i' w' → i = i' ∧ w = w'
  /-- (c) at L2. -/
  distinct2 : ∀ j x j' x', (s.line2 j x).valid = true → (s.line2 j' x').valid = true →
    s.block2 j x = s.block2 j' x' → j = j' ∧ x = x'

/-- Every valid L2 line's block lies in the Backing Store's window (R341, U3). -/
def LinesInWindow (s : State) : Prop :=
  ∀ j x, (s.line2 j x).valid = true → bsValid s.cfg (s.block2 j x) = true

/-- At most one valid TLB entry holds a given tag (R30). -/
def TlbDistinct (s : State) : Prop :=
  ∀ i j, (s.tlbEntry i).valid = true → (s.tlbEntry j).valid = true →
    (s.tlbEntry i).tag = (s.tlbEntry j).tag → i = j

/-- While a TLB slot is free, every valid entry is marked (R337 (d)). -/
def MarkedWhileFree (s : State) : Prop :=
  ∀ i j, (s.tlbEntry i).valid = false → (s.tlbEntry j).valid = true → (s.tlbEntry j).mru = true

/-- `l1_miss = l2_hit + l2_miss` modulo 2^64 (R280). -/
def MissesBalance (s : State) : Prop := s.l1Miss = s.l2Hit + s.l2Miss

/-- What makes the access path a flat memory: a configuration in order, the byte list in canonical form, inclusion, and
only blocks of the window cached. -/
structure Coherent (s : State) : Prop where
  config : s.cfg.wf
  memory : Memory.wf s.bs = true
  inclusion : Inclusion s
  window : LinesInWindow s

/-- The `n` bytes from a physical address on all lie in the window (R72). -/
def InWindow (cfg : Config) (pa : Addr) (n : Nat) : Prop :=
  ∀ k < n, bsValid cfg (pa + BitVec.ofNat 64 k) = true

/-- The `View` bytes of a physical range, lowest address first (R72). -/
def State.viewBytes (s : State) (pa : Addr) (n : Nat) : List Byte :=
  (List.range n).map fun k => s.view (pa + BitVec.ofNat 64 k)

/-- The physical address of byte `k` of an access that is not translated: each byte's own virtual address, truncated (R180,
R181, R236). -/
def State.plainAddr (s : State) (va : Addr) (k : Nat) : Addr := effective s.xlen (va + BitVec.ofNat 64 k)

/-- The `n` bytes of an access that is not translated all lie in the window. -/
def PlainInWindow (s : State) (va : Addr) (n : Nat) : Prop := ∀ k < n, bsValid s.cfg (s.plainAddr va k) = true

/-- The `View` bytes of an access that is not translated, lowest first (R72). -/
def State.plainBytes (s : State) (va : Addr) (n : Nat) : List Byte := (List.range n).map fun k => s.view (s.plainAddr va k)

/-- An access of this kind is not translated (R181, R182): translation is off, or Machine mode bypasses it. -/
def Bypassed (s : State) (kind : AccessKind) : Prop :=
  s.scheme = .off ∨
    (s.priv = .M ∧ (kind = .execute ∨ mprv s.cfg s.status = false ∨ mpp s.cfg s.status = 3))

/-- The control elements of the translator, and the configuration, are the same (R22 to R26). -/
def SameControl (s t : State) : Prop :=
  t.cfg = s.cfg ∧ t.xlen = s.xlen ∧ t.scheme = s.scheme ∧ t.rootPpn = s.rootPpn ∧ t.priv = s.priv ∧
    t.status = s.status

/-- What the controller writes is the same: the caches, the counters and the trace (R31 to R33, R40). -/
def SameCaches (s t : State) : Prop :=
  t.l1 = s.l1 ∧ t.l2 = s.l2 ∧ t.l1Hit = s.l1Hit ∧ t.l1Miss = s.l1Miss ∧ t.l2Hit = s.l2Hit ∧
    t.l2Miss = s.l2Miss ∧ t.trace = s.trace

/-- What waits outside is the same. -/
def SameInputs (s t : State) : Prop := t.inputs = s.inputs ∧ t.now = s.now

/-- What no data phase and no `flush` writes is the same: the configuration, the control elements, the TLB, the inputs. -/
def SameTranslation (s t : State) : Prop := SameControl s t ∧ t.tlb = s.tlb ∧ SameInputs s t

/-- What a completed read leaves: its response, a coherent state, every `View` byte and everything outside the caches kept. -/
structure ReadDone (s t : State) (r : Response) : Prop where
  response : t.response = some r
  coherent : Coherent t
  view : ∀ x, t.view x = s.view x
  outside : SameTranslation s t

/-- What a completed store of `n` bytes that is not translated leaves: no result, a coherent state, each stored byte of `data`
at its own address, every other `View` byte and everything outside the caches kept. -/
structure StoreDone (s t : State) (va : Addr) (n : Nat) (data : Word) : Prop where
  response : t.response = some ⟨.ok, 0, 0, []⟩
  coherent : Coherent t
  stored : ∀ k < n, t.view (s.plainAddr va k) = data.extractLsb' (8 * k) 8
  others : ∀ x, (∀ k < n, x ≠ s.plainAddr va k) → t.view x = s.view x
  outside : SameTranslation s t

/-- The bytes that one-byte `MemRead`s return at a virtual address, the next one, and so on, and the state they lead to (R234). -/
def BytesRead (kind : AccessKind) : State → Addr → List Byte → State → Prop
  | s, _, [], t => t = s
  | s, va, b :: bs, t => ∃ u, memRead va 1 kind s = .ok [b] u ∧ BytesRead kind u (va + 1) bs t

/-- One-byte `MemWrite`s of the bytes at a virtual address, the next one, and so on, and the state they lead to (R235). -/
def BytesWritten : State → Addr → List Byte → State → Prop
  | s, _, [], t => t = s
  | s, va, b :: bs, t => ∃ u, memWrite va [b] s = .ok () u ∧ BytesWritten u (va + 1) bs t

/-- The commands that move bytes through the data phase: loads, stores and fetches (R305). -/
def movesData : Instr → Bool
  | .loadB _ | .loadH _ | .loadW _ | .loadD _ | .fetchW _ | .fetchBlk _ _ => true
  | .storeB _ _ | .storeH _ _ | .storeW _ _ | .storeD _ _ => true
  | .validate _ | .flush | .sfenceVma | .setXlen _ | .setPriv _ | .setStatus _ | .setAtp _ => false
  | .rdL1Hit | .rdL1Miss | .rdL2Hit | .rdL2Miss | .drainLat | .traceRd | .traceClr => false

/-- No entry of the TLB is found for the page of a virtual address, at any level of the walk (R168). -/
def ColdFor (s : State) (va : Addr) : Prop :=
  ∀ p, s.scheme.paging = some p → ∀ level, tlbLookup s (tlbTag s.cfg.tagMode level (p.key (effective s.xlen va))) = none

/-- The page-table entry the Backing Store holds at an address, zero-extended (R121, R170). -/
def State.entryAt (s : State) (p : Paging) (addr : Addr) : Word :=
  leWord ((List.range p.pteSize).map fun k => s.bsByte (addr + BitVec.ofNat 64 k))

/-- The entry at an address lies in the window (R124). -/
def EntryInWindow (s : State) (p : Paging) (addr : Addr) : Prop :=
  bsValid s.cfg addr = true ∧ bsValid s.cfg (addr + BitVec.ofNat 64 (p.pteSize - 1)) = true

/-- A valid pointer entry (R186). -/
def ValidPointer (pte : Word) : Prop := pteV pte = true ∧ pteR pte = false ∧ pteW pte = false ∧ pteX pte = false

/-- A valid leaf that supports a kind of access (R185, R186, R189). -/
def ValidLeaf (kind : AccessKind) (pte : Word) : Prop :=
  rejectedEntry pte = false ∧ isPointer pte = false ∧ permits kind pte = true

/-- An access of this kind is translated in a state whose scheme is on: in user and supervisor mode, and in Machine mode for a
kind other than Execute with `MPRV` set and `MPP` user or supervisor (R182). -/
def TranslatedFor (s : State) (kind : AccessKind) : Prop :=
  s.priv ≠ .M ∨ (kind ≠ .execute ∧ mprv s.cfg s.status = true ∧ (mpp s.cfg s.status = 0 ∨ mpp s.cfg s.status = 1))

/-- A walk from a level, with no TLB entry for the levels it reaches, meets an entry outside the window: at once, or after
valid pointers in the window (R124, R170, R186). -/
def LeadsOutside (s : State) (p : Paging) (a : Addr) : Nat → BitVec 44 → Prop
  | 0, parent => tlbLookup s (tlbTag s.cfg.tagMode 0 (p.key a)) = none ∧ ¬EntryInWindow s p (p.pteAddr 0 parent a)
  | level + 1, parent =>
    tlbLookup s (tlbTag s.cfg.tagMode (level + 1) (p.key a)) = none ∧
      (¬EntryInWindow s p (p.pteAddr (level + 1) parent a) ∨
        (EntryInWindow s p (p.pteAddr (level + 1) parent a) ∧ ValidPointer (s.entryAt p (p.pteAddr (level + 1) parent a)) ∧
          LeadsOutside s p a level (p.ppn (s.entryAt p (p.pteAddr (level + 1) parent a)))))

/-- Every load, fetch and store of an address whose translation gives `pa` in state `u` answers the access fault of its kind in
state `c`: a load and a fetch the load's, a store the store's, with the address of the access (R220, R232, R233, D29). -/
structure AccessFaults (s u : State) (a pa : Addr) (d : Word) (c : State) : Prop where
  loads : translate a .read s = .ok pa u → ∀ i ∈ [Instr.loadB a, .loadH a, .loadW a, .loadD a],
    exec i s = .next { c with response := some ⟨.loadAccessFault, 0, a, []⟩ }
  fetchW : translate a .execute s = .ok pa u →
    exec (.fetchW a) s = .next { c with response := some ⟨.loadAccessFault, 0, a, []⟩ }
  fetchBlk : translate a .execute s = .ok pa u → ∀ len : Byte, len ≠ 0 →
    exec (.fetchBlk a len) s = .next { c with response := some ⟨.loadAccessFault, 0, a, []⟩ }
  stores : translate a .write s = .ok pa u → ∀ i ∈ [Instr.storeB a d, .storeH a d, .storeW a d, .storeD a d],
    exec i s = .next { c with response := some ⟨.storeAccessFault, 0, a, []⟩ }

/-- The Backing Store byte after the Accessed/Dirty rewrite of an entry at an address (R188). -/
def State.rewrittenByte (s : State) (p : Paging) (kind : AccessKind) (addr : Addr) (pte : Word) (x : Addr) : Byte :=
  if needsRewrite kind pte ∧ (x - addr).toNat < p.pteSize then
    (pte ||| 0x40 ||| (if kind = .write then 0x80 else 0)).extractLsb' (8 * (x - addr).toNat) 8
  else s.bsByte x

/-- The Write trace entries of a `flush`: one for each valid L2 line, ascending set, then ascending way (R146, R218). -/
def flushEntries (s : State) : List TraceEntry :=
  (List.finRange 256).flatMap fun j =>
    (allWays.filter fun x => (s.line2 j x).valid).map fun x => ⟨s.block2 j x, .write, s.now⟩

/-- Every line of both levels is invalid and every inclusion flag clear (R219, R50). -/
def NothingCached (s : State) : Prop :=
  (∀ i w, (s.line1 i w).valid = false) ∧ (∀ j x, (s.line2 j x).valid = false ∧ (s.line2 j x).incl = false)

end Machine

end Sys2Proof
end

