-- ==== Sys2Proof/Certificates/Slice0/Obligations.lean ====
section
/-! DEFINITION. The statements for the provers, from the numbered rules of spec/. A response is written out as
`⟨status, rdata, tval, payload⟩` (R92). -/

open Sys2Proof Sys2Proof.Machine

/-! Encoding -/

/-- Decode and encode agree on every well-formed command, with every operand at every value (R91, R94, R101). -/
def Obligations.EncodeThenDecodeGivesTheCommand : Prop :=
  ∀ i : Instr, i.wf = true →
    decode (encode i) = .ok i ∧ (requestBytes (encode i)).length = 18 ∧ decodeBytes (requestBytes (encode i)) = .ok i

/-- The command code alone selects the command, and the format says which fields are read (R93, R94). -/
def Obligations.DecodingReadsOnlyTheFieldsOfTheFormat : Prop :=
  ∀ (w : Request) (i : Instr), decode w = .ok i ↔
    (i.wf = true ∧ w.cmd = opcode i ∧ (usesAddr i = true → w.addr = addrField i) ∧
      (usesLen i = true → w.len = lenField i) ∧ (usesData i = true → w.data = dataField i))

/-- Which requests are illegal, and what CORE answers to one (R101). The request taken, `now`, the draws and the response are the model's own fields (notes/assumptions/4.md, 8.md, 3.md, 15.md), and that the meaning answers Illegal too is the model's (17.md). -/
def Obligations.IllegalRequestsAreAnsweredIllegal : Prop :=
  (∀ w : Request,
    ((∃ e, decode w = .error e) ↔
      (w.cmd ∉ ([0x10, 0x11, 0x12, 0x13, 0x20, 0x21, 0x22, 0x23, 0x30, 0x31, 0x40, 0x50, 0x51, 0x60, 0x61, 0x62, 0x63,
          0x70, 0x71, 0x72, 0x73, 0x74, 0x75, 0x76] : List Byte) ∨
        (w.cmd = 0x31 ∧ w.len = 0) ∨ (w.cmd = 0x61 ∧ w.data.extractLsb' 0 2 = 2) ∨
        (w.cmd = 0x63 ∧ w.data.extractLsb' 62 2 = 3))) ∧
    ∀ (s : State) (now : Word) (draws : Draws) (rest : List Input) (e : DecodeError),
      s.inputs = .command w now draws :: rest → decode w = .error e →
        step s = .next { s with inputs := rest, now := now, draws := draws, response := some ⟨.illegal, 0, 0, []⟩ }) ∧
    ∀ (s : State) (a : Addr), exec (.fetchBlk a 0) s = .next { s with response := some ⟨.illegal, 0, 0, []⟩ }

/-- Requests written out from the spec's encodings (spec/95_test_vectors.md V-ENC-1, V-ENC-2), fields `data`, `addr`, `len`, `cmd` from the left. -/
def Obligations.WordsOfTheSpecDecode : Prop :=
  decode 0x0000000000000000_0000000080001044_00_12 = .ok (.loadW 0x80001044) ∧
    decode 0x000000000000BEEF_0000000080001044_00_21 = .ok (.storeH 0x80001044 0xBEEF) ∧
    decode 0x0807060504030201_0000000080001040_00_23 = .ok (.storeD 0x80001040 0x0807060504030201) ∧
    decode 0x0000000000000000_000000008000103E_04_31 = .ok (.fetchBlk 0x8000103E 4) ∧
    decode 0x4000000000080010_0000000000000000_00_63 = .ok (.setAtp 0x4000000000080010) ∧
    decode 0x0000000000000000_0000000000000000_00_51 = .ok .sfenceVma ∧
    decode 0x0000000020008007_000000008001100C_00_22 = .ok (.storeW 0x8001100C 0x20008007)

/-- A step runs the decoded command to completion (R11, R90), with the `now` and the draws presented with its request (R13, R41); CORE does nothing by itself (R301). The queue of inputs is the model's (notes/assumptions/4.md). -/
def Obligations.StepRunsTheDecodedCommand : Prop :=
  (∀ (s : State) (w : Request) (now : Word) (draws : Draws) (rest : List Input) (i : Instr),
      s.inputs = .command w now draws :: rest → decode w = .ok i →
        step s = exec i { s with inputs := rest, now := now, draws := draws }) ∧
    ∀ s : State, s.inputs = [] → step s = .next s

/-! Control commands -/

/-- `set.xlen` (R272) and the write of `set.status` (R274). -/
def Obligations.SetXlenAndSetStatusWriteTheirElementAlone : Prop :=
  ∀ (s : State) (d : Word),
    exec (.setXlen d) s =
      .next { s with xlen := if d.getLsbD 0 = true then .w64 else .w32, response := some ⟨.ok, 0, 0, []⟩ } ∧
    exec (.setStatus d) s = .next { s with status := d, response := some ⟨.ok, 0, 0, []⟩ }

/-- `set.priv` (R273). -/
def Obligations.SetPrivWritesThePrivilegeAlone : Prop :=
  ∀ (s : State) (d : Word),
    (d.extractLsb' 0 2 = 0 → exec (.setPriv d) s = .next { s with priv := .U, response := some ⟨.ok, 0, 0, []⟩ }) ∧
    (d.extractLsb' 0 2 = 1 → exec (.setPriv d) s = .next { s with priv := .S, response := some ⟨.ok, 0, 0, []⟩ }) ∧
    (d.extractLsb' 0 2 = 3 → exec (.setPriv d) s = .next { s with priv := .M, response := some ⟨.ok, 0, 0, []⟩ }) ∧
    (d.extractLsb' 0 2 = 2 → exec (.setPriv d) s = .next { s with response := some ⟨.illegal, 0, 0, []⟩ })

/-- `set.atp` (R275). -/
def Obligations.SetAtpWritesSchemeAndRootTogether : Prop :=
  ∀ (s : State) (d : Word),
    (d.extractLsb' 62 2 = 0 → exec (.setAtp d) s =
      .next { s with scheme := .off, rootPpn := d.extractLsb' 0 44, response := some ⟨.ok, 0, 0, []⟩ }) ∧
    (d.extractLsb' 62 2 = 1 → exec (.setAtp d) s =
      .next { s with scheme := .twoLevel, rootPpn := d.extractLsb' 0 44, response := some ⟨.ok, 0, 0, []⟩ }) ∧
    (d.extractLsb' 62 2 = 2 → exec (.setAtp d) s =
      .next { s with scheme := .threeLevel, rootPpn := d.extractLsb' 0 44, response := some ⟨.ok, 0, 0, []⟩ }) ∧
    (d.extractLsb' 62 2 = 3 → exec (.setAtp d) s = .next { s with response := some ⟨.illegal, 0, 0, []⟩ })

/-- `sfence.vma` is a no-op (R78, R271). -/
def Obligations.SfenceVmaChangesNothing : Prop :=
  ∀ s : State, exec .sfenceVma s = .next { s with response := some ⟨.ok, 0, 0, []⟩ }

/-- `rd.l1hit`, `rd.l1miss` (R277, R278), `rd.l2hit`, `rd.l2miss` (the reads of R279, R280). -/
def Obligations.CounterReadsReturnTheCounters : Prop :=
  ∀ s : State,
    exec .rdL1Hit s = .next { s with response := some ⟨.ok, s.l1Hit, 0, []⟩ } ∧
    exec .rdL1Miss s = .next { s with response := some ⟨.ok, s.l1Miss, 0, []⟩ } ∧
    exec .rdL2Hit s = .next { s with response := some ⟨.ok, s.l2Hit, 0, []⟩ } ∧
    exec .rdL2Miss s = .next { s with response := some ⟨.ok, s.l2Miss, 0, []⟩ }

/-- `drain.lat`, `trace.rd` and `trace.clr` (R281, R282, R283). That the number of entries is taken modulo 2^64 in `rdata` is the model's (notes/assumptions/21.md). -/
def Obligations.LatencyDrainAndTraceCommands : Prop :=
  ∀ s : State,
    exec .drainLat s = .next { s with lat := 0, response := some ⟨.ok, s.lat, 0, []⟩ } ∧
    exec .traceRd s = .next { s with response := some ⟨.ok, BitVec.ofNat 64 s.trace.length, 0, s.trace.flatMap fun e =>
      ((List.range 8).map fun k => e.addr.extractLsb' (8 * k) 8) ++ [if e.kind = .write then 1 else 0] ++
        ((List.range 8).map fun k => e.cycle.extractLsb' (8 * k) 8)⟩ } ∧
    exec .traceClr s = .next { s with trace := [], response := some ⟨.ok, 0, 0, []⟩ }

/-- `flush` on a coherent state (R219, R270): completion, effect and frame. The order of the entries is that of R146 (D25); that they all carry the one `now` of the command is the model's choice (notes/assumptions/8.md). -/
def Obligations.FlushWritesBackAndInvalidatesEverything : Prop :=
  ∀ s : State, Coherent s → ∃ t, exec .flush s = .next t ∧ t.response = some ⟨.ok, 0, 0, []⟩ ∧
    Coherent t ∧ NothingCached t ∧ (∀ x, t.bsByte x = s.view x) ∧ (∀ x, t.view x = s.view x) ∧
    t.trace = s.trace ++ flushEntries s ∧ SameTranslation s t ∧ t.lat = s.lat ∧ t.l1Hit = s.l1Hit ∧
    t.l1Miss = s.l1Miss ∧ t.l2Hit = s.l2Hit ∧ t.l2Miss = s.l2Miss ∧ t.draws = s.draws ∧ t.drawCount = s.drawCount

/-- The missing owner of R219 (U13): `flush` has no failure response. -/
def Obligations.FlushWithoutOwnerIsRefused : Prop :=
  ∀ (s : State) (i : Fin 64) (w : Fin 8), (s.line1 i w).valid = true →
    (∀ j x, (s.line2 j x).valid = true → s.block2 j x ≠ s.block1 i w) → exec .flush s = .refused .flushWithoutOwner

/-! Loads, stores and fetches -/

/-- Little-endian values (R64), zero-extended (R99). -/
def Obligations.LittleEndianValueOfBytes : Prop :=
  (∀ bs : List Byte, bs.length ≤ 8 → ∀ k < 8, (leWord bs).extractLsb' (8 * k) 8 = bs.getD k 0) ∧
    ∀ (n : Nat) (v : Word), n ≤ 8 → leWord (bytesOf n v) = (v.setWidth (8 * n)).setWidth 64

/-- The flat-memory law of reads (R72) for every load and fetch, where translation is off or bypassed (R181, R182): completion, result and frame. -/
def Obligations.PlainReadsReturnTheView : Prop :=
  ∀ (s : State) (a : Addr), Coherent s →
    (Bypassed s .read → PlainInWindow s a 1 →
      ∃ t, exec (.loadB a) s = .next t ∧ ReadDone s t ⟨.ok, leWord (s.plainBytes a 1), 0, []⟩) ∧
    (Bypassed s .read → PlainInWindow s a 2 →
      ∃ t, exec (.loadH a) s = .next t ∧ ReadDone s t ⟨.ok, leWord (s.plainBytes a 2), 0, []⟩) ∧
    (Bypassed s .read → PlainInWindow s a 4 →
      ∃ t, exec (.loadW a) s = .next t ∧ ReadDone s t ⟨.ok, leWord (s.plainBytes a 4), 0, []⟩) ∧
    (Bypassed s .read → PlainInWindow s a 8 →
      ∃ t, exec (.loadD a) s = .next t ∧ ReadDone s t ⟨.ok, leWord (s.plainBytes a 8), 0, []⟩) ∧
    (Bypassed s .execute → PlainInWindow s a 4 →
      ∃ t, exec (.fetchW a) s = .next t ∧ ReadDone s t ⟨.ok, leWord (s.plainBytes a 4), 0, []⟩) ∧
    ∀ len : Byte, len ≠ 0 → Bypassed s .execute → PlainInWindow s a len.toNat →
      ∃ t, exec (.fetchBlk a len) s = .next t ∧ ReadDone s t ⟨.ok, 0, 0, s.plainBytes a len.toNat⟩

/-- The flat-memory law of writes (R72) for every store, where translation is off or bypassed (R181, R182): completion, effect and frame, the address stored to being `plainAddr`. -/
def Obligations.PlainStoresWriteTheView : Prop :=
  ∀ (s : State) (a : Addr) (d : Word), Coherent s → Bypassed s .write →
    (PlainInWindow s a 1 → ∃ t, exec (.storeB a d) s = .next t ∧ StoreDone s t a 1 d) ∧
    (PlainInWindow s a 2 → ∃ t, exec (.storeH a d) s = .next t ∧ StoreDone s t a 2 d) ∧
    (PlainInWindow s a 4 → ∃ t, exec (.storeW a d) s = .next t ∧ StoreDone s t a 4 d) ∧
    (PlainInWindow s a 8 → ∃ t, exec (.storeD a d) s = .next t ∧ StoreDone s t a 8 d)

/-- The round-trip properties of R251 where translation is bypassed, mixed widths (R65) and fetch coherence (R80). -/
def Obligations.LoadAfterStoreReturnsTheStoredValue : Prop :=
  ∀ (s : State) (a : Addr) (d : Word), Coherent s → Bypassed s .write → Bypassed s .read → Bypassed s .execute →
    (∀ t u, exec (.storeB a d) s = .next t → t.response = some ⟨.ok, 0, 0, []⟩ → PlainInWindow s a 1 →
      exec (.loadB a) t = .next u → u.response = some ⟨.ok, (d.setWidth 8).setWidth 64, 0, []⟩) ∧
    (∀ t u, exec (.storeH a d) s = .next t → t.response = some ⟨.ok, 0, 0, []⟩ → PlainInWindow s a 2 →
      exec (.loadH a) t = .next u → u.response = some ⟨.ok, (d.setWidth 16).setWidth 64, 0, []⟩) ∧
    (∀ t u, exec (.storeW a d) s = .next t → t.response = some ⟨.ok, 0, 0, []⟩ → PlainInWindow s a 4 →
      exec (.loadW a) t = .next u → u.response = some ⟨.ok, (d.setWidth 32).setWidth 64, 0, []⟩) ∧
    (∀ t u, exec (.storeD a d) s = .next t → t.response = some ⟨.ok, 0, 0, []⟩ → PlainInWindow s a 8 →
      exec (.loadD a) t = .next u → u.response = some ⟨.ok, (d.setWidth 64).setWidth 64, 0, []⟩) ∧
    (∀ t u, exec (.storeW a d) s = .next t → t.response = some ⟨.ok, 0, 0, []⟩ → PlainInWindow s a 4 →
      exec (.fetchW a) t = .next u → u.response = some ⟨.ok, (d.setWidth 32).setWidth 64, 0, []⟩) ∧
    (∀ t u, exec (.storeW a d) s = .next t → PlainInWindow s a 4 → exec (.loadB (a + 1)) t = .next u →
      u.response = some ⟨.ok, (d.extractLsb' 8 8).setWidth 64, 0, []⟩)

/-- One translation, then the data phase (R232, R238), for every load and fetch that stays in one page. -/
def Obligations.TranslatedReadsReturnTheView : Prop :=
  ∀ (s u : State) (a pa : Addr), Coherent s →
    (translate a .read s = .ok pa u →
      (InWindow s.cfg pa 1 → ∃ t, exec (.loadB a) s = .next t ∧ ReadDone u t ⟨.ok, leWord (u.viewBytes pa 1), 0, []⟩) ∧
      (singlePage a 2 = true → InWindow s.cfg pa 2 →
        ∃ t, exec (.loadH a) s = .next t ∧ ReadDone u t ⟨.ok, leWord (u.viewBytes pa 2), 0, []⟩) ∧
      (singlePage a 4 = true → InWindow s.cfg pa 4 →
        ∃ t, exec (.loadW a) s = .next t ∧ ReadDone u t ⟨.ok, leWord (u.viewBytes pa 4), 0, []⟩) ∧
      (singlePage a 8 = true → InWindow s.cfg pa 8 →
        ∃ t, exec (.loadD a) s = .next t ∧ ReadDone u t ⟨.ok, leWord (u.viewBytes pa 8), 0, []⟩)) ∧
    (translate a .execute s = .ok pa u →
      (singlePage a 4 = true → InWindow s.cfg pa 4 →
        ∃ t, exec (.fetchW a) s = .next t ∧ ReadDone u t ⟨.ok, leWord (u.viewBytes pa 4), 0, []⟩) ∧
      ∀ len : Byte, len ≠ 0 → singlePage a len.toNat = true → InWindow s.cfg pa len.toNat →
        ∃ t, exec (.fetchBlk a len) s = .next t ∧ ReadDone u t ⟨.ok, 0, 0, u.viewBytes pa len.toNat⟩)

/-- One translation, then the data phase (R233, R239), for every store that stays in one page; the address stored to is the one `translate` gives. -/
def Obligations.TranslatedStoresWriteTheView : Prop :=
  ∀ (s u : State) (a pa : Addr) (d : Word), Coherent s → translate a .write s = .ok pa u →
    (InWindow s.cfg pa 1 → ∃ t, exec (.storeB a d) s = .next t ∧
      t.response = some ⟨.ok, 0, 0, []⟩ ∧ Coherent t ∧ SameTranslation u t ∧
      ∀ x, t.view x = if (x - pa).toNat < 1 then d.extractLsb' (8 * (x - pa).toNat) 8 else u.view x) ∧
    (singlePage a 2 = true → InWindow s.cfg pa 2 → ∃ t, exec (.storeH a d) s = .next t ∧
      t.response = some ⟨.ok, 0, 0, []⟩ ∧ Coherent t ∧ SameTranslation u t ∧
      ∀ x, t.view x = if (x - pa).toNat < 2 then d.extractLsb' (8 * (x - pa).toNat) 8 else u.view x) ∧
    (singlePage a 4 = true → InWindow s.cfg pa 4 → ∃ t, exec (.storeW a d) s = .next t ∧
      t.response = some ⟨.ok, 0, 0, []⟩ ∧ Coherent t ∧ SameTranslation u t ∧
      ∀ x, t.view x = if (x - pa).toNat < 4 then d.extractLsb' (8 * (x - pa).toNat) 8 else u.view x) ∧
    (singlePage a 8 = true → InWindow s.cfg pa 8 → ∃ t, exec (.storeD a d) s = .next t ∧
      t.response = some ⟨.ok, 0, 0, []⟩ ∧ Coherent t ∧ SameTranslation u t ∧
      ∀ x, t.view x = if (x - pa).toNat < 8 then d.extractLsb' (8 * (x - pa).toNat) 8 else u.view x)

/-- The slow path of a read (R234): each byte a complete one-byte `MemRead`. -/
def Obligations.PageCrossingReadsAreByteReadsInOrder : Prop :=
  ∀ (s : State) (a : Addr),
    (singlePage a 2 = false → ∀ (bs : List Byte) (t : State), BytesRead .read s a bs t →
      (bs.length = 2 → exec (.loadH a) s = .next { t with response := some ⟨.ok, leWord bs, 0, []⟩ }) ∧
      ∀ (f : Failure) (u : State), bs.length < 2 → memRead (a + BitVec.ofNat 64 bs.length) 1 .read t = .raise f u →
        f.tval = a + BitVec.ofNat 64 bs.length ∧
          exec (.loadH a) s = .next { u with response := some ⟨f.kind.status, 0, f.tval, []⟩ }) ∧
    (singlePage a 4 = false → ∀ (bs : List Byte) (t : State), BytesRead .read s a bs t →
      (bs.length = 4 → exec (.loadW a) s = .next { t with response := some ⟨.ok, leWord bs, 0, []⟩ }) ∧
      ∀ (f : Failure) (u : State), bs.length < 4 → memRead (a + BitVec.ofNat 64 bs.length) 1 .read t = .raise f u →
        f.tval = a + BitVec.ofNat 64 bs.length ∧
          exec (.loadW a) s = .next { u with response := some ⟨f.kind.status, 0, f.tval, []⟩ }) ∧
    (singlePage a 8 = false → ∀ (bs : List Byte) (t : State), BytesRead .read s a bs t →
      (bs.length = 8 → exec (.loadD a) s = .next { t with response := some ⟨.ok, leWord bs, 0, []⟩ }) ∧
      ∀ (f : Failure) (u : State), bs.length < 8 → memRead (a + BitVec.ofNat 64 bs.length) 1 .read t = .raise f u →
        f.tval = a + BitVec.ofNat 64 bs.length ∧
          exec (.loadD a) s = .next { u with response := some ⟨f.kind.status, 0, f.tval, []⟩ }) ∧
    (singlePage a 4 = false → ∀ (bs : List Byte) (t : State), BytesRead .execute s a bs t →
      (bs.length = 4 → exec (.fetchW a) s = .next { t with response := some ⟨.ok, leWord bs, 0, []⟩ }) ∧
      ∀ (f : Failure) (u : State), bs.length < 4 → memRead (a + BitVec.ofNat 64 bs.length) 1 .execute t = .raise f u →
        f.tval = a + BitVec.ofNat 64 bs.length ∧
          exec (.fetchW a) s = .next { u with response := some ⟨f.kind.status, 0, f.tval, []⟩ }) ∧
    ∀ len : Byte, len ≠ 0 → singlePage a len.toNat = false → ∀ (bs : List Byte) (t : State), BytesRead .execute s a bs t →
      (bs.length = len.toNat → exec (.fetchBlk a len) s = .next { t with response := some ⟨.ok, 0, 0, bs⟩ }) ∧
      ∀ (f : Failure) (u : State), bs.length < len.toNat →
        memRead (a + BitVec.ofNat 64 bs.length) 1 .execute t = .raise f u →
        f.tval = a + BitVec.ofNat 64 bs.length ∧
          exec (.fetchBlk a len) s = .next { u with response := some ⟨f.kind.status, 0, f.tval, []⟩ }

/-- The slow path of a write (R235): no torn-write guarantee beyond byte-at-a-time ordering. -/
def Obligations.PageCrossingStoresAreByteStoresInOrder : Prop :=
  ∀ (s : State) (a : Addr) (d : Word),
    (singlePage a 2 = false →
      (∀ t, BytesWritten s a (bytesOf 2 d) t → exec (.storeH a d) s = .next { t with response := some ⟨.ok, 0, 0, []⟩ }) ∧
      ∀ (k : Nat) (t u : State) (f : Failure), k < 2 → BytesWritten s a ((bytesOf 2 d).take k) t →
        memWrite (a + BitVec.ofNat 64 k) [d.extractLsb' (8 * k) 8] t = .raise f u →
        f.tval = a + BitVec.ofNat 64 k ∧
          exec (.storeH a d) s = .next { u with response := some ⟨f.kind.status, 0, f.tval, []⟩ }) ∧
    (singlePage a 4 = false →
      (∀ t, BytesWritten s a (bytesOf 4 d) t → exec (.storeW a d) s = .next { t with response := some ⟨.ok, 0, 0, []⟩ }) ∧
      ∀ (k : Nat) (t u : State) (f : Failure), k < 4 → BytesWritten s a ((bytesOf 4 d).take k) t →
        memWrite (a + BitVec.ofNat 64 k) [d.extractLsb' (8 * k) 8] t = .raise f u →
        f.tval = a + BitVec.ofNat 64 k ∧
          exec (.storeW a d) s = .next { u with response := some ⟨f.kind.status, 0, f.tval, []⟩ }) ∧
    (singlePage a 8 = false →
      (∀ t, BytesWritten s a (bytesOf 8 d) t → exec (.storeD a d) s = .next { t with response := some ⟨.ok, 0, 0, []⟩ }) ∧
      ∀ (k : Nat) (t u : State) (f : Failure), k < 8 → BytesWritten s a ((bytesOf 8 d).take k) t →
        memWrite (a + BitVec.ofNat 64 k) [d.extractLsb' (8 * k) 8] t = .raise f u →
        f.tval = a + BitVec.ofNat 64 k ∧
          exec (.storeD a d) s = .next { u with response := some ⟨f.kind.status, 0, f.tval, []⟩ })

/-- Controller round trips, counted (R305, R238, R234). -/
def Obligations.RoundTripsAreCounted : Prop :=
  ∀ (s t : State) (a : Addr), Coherent s → Bypassed s .read →
    (PlainInWindow s a 1 → exec (.loadB a) s = .next t → t.l1Hit + t.l1Miss = s.l1Hit + s.l1Miss + 1) ∧
    (PlainInWindow s a 2 → exec (.loadH a) s = .next t →
      t.l1Hit + t.l1Miss = s.l1Hit + s.l1Miss + if a.toNat % 64 + 2 ≤ 64 then 1 else 2) ∧
    (PlainInWindow s a 4 → exec (.loadW a) s = .next t →
      t.l1Hit + t.l1Miss = s.l1Hit + s.l1Miss + if a.toNat % 64 + 4 ≤ 64 then 1 else 4) ∧
    (PlainInWindow s a 8 → exec (.loadD a) s = .next t →
      t.l1Hit + t.l1Miss = s.l1Hit + s.l1Miss + if a.toNat % 64 + 8 ≤ 64 then 1 else 8)

/-- `validate` (R250): completion, result and frame. EXTRA_VALID is the configuration's list of ranges. -/
def Obligations.ValidateAnswersAndTouchesNoCache : Prop :=
  ∀ (s : State) (a : Addr),
    (∀ (pa : Addr) (u : State), translate a .dontCare s = .ok pa u → exec (.validate a) s = .next { u with
      response := some ⟨.ok, if (s.cfg.memBase ≤ pa.toNat ∧ pa.toNat < s.cfg.memBase + s.cfg.memSize) ∨
        (∃ r ∈ s.cfg.extraValid, r.base ≤ pa.toNat ∧ pa.toNat < r.base + r.size) then 1 else 0, 0, []⟩ }) ∧
    (∀ u : State, translate a .dontCare s = .raise () u →
      exec (.validate a) s = .next { u with response := some ⟨.ok, 0, 0, []⟩ }) ∧
    (Bypassed s .dontCare → ∃ r : Word, exec (.validate a) s = .next { s with response := some ⟨.ok, r, 0, []⟩ }) ∧
    ∀ t, exec (.validate a) s = .next t → SameCaches s t ∧ SameControl s t ∧ SameInputs s t

/-! Failures and refusals -/

/-- A failed translation becomes the page fault of the access kind, value attached (R193, R290, R296), and leaves what R297 says. -/
def Obligations.FailedTranslationIsAPageFault : Prop :=
  ∀ (s : State) (a : Addr) (d : Word),
    (∀ u, translate a .read s = .raise () u →
      exec (.loadB a) s = .next { u with response := some ⟨.loadPageFault, 0, a, []⟩ } ∧ SameCaches s u ∧ SameControl s u) ∧
    (∀ u, singlePage a 2 = true → translate a .read s = .raise () u →
      exec (.loadH a) s = .next { u with response := some ⟨.loadPageFault, 0, a, []⟩ } ∧ SameCaches s u ∧ SameControl s u) ∧
    (∀ u, singlePage a 4 = true → translate a .read s = .raise () u →
      exec (.loadW a) s = .next { u with response := some ⟨.loadPageFault, 0, a, []⟩ } ∧ SameCaches s u ∧ SameControl s u) ∧
    (∀ u, singlePage a 8 = true → translate a .read s = .raise () u →
      exec (.loadD a) s = .next { u with response := some ⟨.loadPageFault, 0, a, []⟩ } ∧ SameCaches s u ∧ SameControl s u) ∧
    (∀ u, translate a .write s = .raise () u →
      exec (.storeB a d) s = .next { u with response := some ⟨.storePageFault, 0, a, []⟩ } ∧ SameCaches s u ∧ SameControl s u) ∧
    (∀ u, singlePage a 2 = true → translate a .write s = .raise () u →
      exec (.storeH a d) s = .next { u with response := some ⟨.storePageFault, 0, a, []⟩ } ∧ SameCaches s u ∧ SameControl s u) ∧
    (∀ u, singlePage a 4 = true → translate a .write s = .raise () u →
      exec (.storeW a d) s = .next { u with response := some ⟨.storePageFault, 0, a, []⟩ } ∧ SameCaches s u ∧ SameControl s u) ∧
    (∀ u, singlePage a 8 = true → translate a .write s = .raise () u →
      exec (.storeD a d) s = .next { u with response := some ⟨.storePageFault, 0, a, []⟩ } ∧ SameCaches s u ∧ SameControl s u) ∧
    (∀ u, singlePage a 4 = true → translate a .execute s = .raise () u →
      exec (.fetchW a) s = .next { u with response := some ⟨.instructionPageFault, 0, a, []⟩ } ∧ SameCaches s u ∧ SameControl s u) ∧
    ∀ (len : Byte) (u : State), len ≠ 0 → singlePage a len.toNat = true → translate a .execute s = .raise () u →
      exec (.fetchBlk a len) s = .next { u with response := some ⟨.instructionPageFault, 0, a, []⟩ } ∧
        SameCaches s u ∧ SameControl s u

/-- The five causes of a failing walk (R193, R291), in terms of the entry the step holds. -/
def Obligations.WalkFailsForTheFiveCausesOnly : Prop :=
  ∀ (p : Paging) (kind : AccessKind) (a : Addr) (level : Nat) (parent : BitVec 44) (s u : State) (pte : Word), level ≤ p.top →
    fetchPte p level parent a s = .ok pte u →
    ((∃ t, walk p kind a level parent s = .raise () t) ↔
      pteV pte = false ∨ (pteW pte = true ∧ pteR pte = false) ∨
      (pteR pte = false ∧ pteX pte = false ∧
        (level = 0 ∨ ∃ l t, level = l + 1 ∧ walk p kind a l (p.ppn pte) u = .raise () t)) ∨
      ((pteR pte = true ∨ pteX pte = true) ∧ (needsRewrite kind pte = true → EntryInWindow u p (p.pteAddr level parent a)) ∧
        ((kind = .execute ∧ pteX pte = false) ∨ (kind = .read ∧ pteR pte = false) ∨ (kind = .write ∧ pteW pte = false) ∨
          (p = .twoLevel ∧ level = 1 ∧ pte.extractLsb' 10 10 ≠ 0) ∨ (p = .threeLevel ∧ level = 1 ∧ pte.extractLsb' 10 9 ≠ 0) ∨
          (p = .threeLevel ∧ level = 2 ∧ (pte.extractLsb' 19 9 ≠ 0 ∨ pte.extractLsb' 10 9 ≠ 0)))))

/-- Access faults are internal inconsistencies only (R292). -/
def Obligations.CoherentStatesGiveNoAccessFault : Prop :=
  ∀ (s t : State) (i : Instr) (r : Response), Coherent s → exec i s = .next t → t.response = some r →
    r.status ≠ .loadAccessFault ∧ r.status ≠ .storeAccessFault

/-- The two places where `AcquireLine` fails (R220), through the facade (R232, R233; a fetch reports the load's fault: D29). -/
def Obligations.InconsistentCachesGiveAnAccessFault : Prop :=
  ∀ (s u : State) (a pa : Addr) (d : Word) (v : Fin 8), lookup1 u pa = none → victim1 u = v →
    ((u.line1 (l1Index pa) v).valid = true → lookup2 u (u.block1 (l1Index pa) v) = none →
      AccessFaults s u a pa d
        { u with l1Miss := u.l1Miss + 1, draws := u.tookL1Draw.draws, drawCount := u.tookL1Draw.drawCount }) ∧
    ∀ w : State, evict1 (l1Index pa) v u = .ok () w → lookup2 u pa = none → (∀ x, (w.line2 (l2Index pa) x).incl = true) →
      AccessFaults s u a pa d
        { u with l1 := w.l1, l2 := w.l2, l1Miss := u.l1Miss + 1, l2Miss := u.l2Miss + 1,
                 lat := u.lat + BitVec.ofNat 64 u.cfg.latL1Check,
                 draws := u.tookL1Draw.draws, drawCount := u.tookL1Draw.drawCount }

/-- Out-of-window accesses (R124, U1), for every command that moves data. -/
def Obligations.AccessOutsideTheWindowIsRefused : Prop :=
  ∀ (s : State) (a : Addr) (d : Word), Coherent s →
    (Bypassed s .read → (∃ k < 1, bsValid s.cfg (s.plainAddr a k) = false) →
      exec (.loadB a) s = .refused .outsideBackingStore) ∧
    (Bypassed s .read → (∃ k < 2, bsValid s.cfg (s.plainAddr a k) = false) →
      exec (.loadH a) s = .refused .outsideBackingStore) ∧
    (Bypassed s .read → (∃ k < 4, bsValid s.cfg (s.plainAddr a k) = false) →
      exec (.loadW a) s = .refused .outsideBackingStore) ∧
    (Bypassed s .read → (∃ k < 8, bsValid s.cfg (s.plainAddr a k) = false) →
      exec (.loadD a) s = .refused .outsideBackingStore) ∧
    (Bypassed s .write → (∃ k < 1, bsValid s.cfg (s.plainAddr a k) = false) →
      exec (.storeB a d) s = .refused .outsideBackingStore) ∧
    (Bypassed s .write → (∃ k < 2, bsValid s.cfg (s.plainAddr a k) = false) →
      exec (.storeH a d) s = .refused .outsideBackingStore) ∧
    (Bypassed s .write → (∃ k < 4, bsValid s.cfg (s.plainAddr a k) = false) →
      exec (.storeW a d) s = .refused .outsideBackingStore) ∧
    (Bypassed s .write → (∃ k < 8, bsValid s.cfg (s.plainAddr a k) = false) →
      exec (.storeD a d) s = .refused .outsideBackingStore) ∧
    (Bypassed s .execute → (∃ k < 4, bsValid s.cfg (s.plainAddr a k) = false) →
      exec (.fetchW a) s = .refused .outsideBackingStore) ∧
    ∀ len : Byte, len ≠ 0 → Bypassed s .execute → (∃ k < len.toNat, bsValid s.cfg (s.plainAddr a k) = false) →
      exec (.fetchBlk a len) s = .refused .outsideBackingStore

/-- A page walk whose entry address falls outside the window (R124, U2), the root's or one that a pointer names. -/
def Obligations.WalkOutsideTheWindowIsRefused : Prop :=
  ∀ (s : State) (p : Paging) (a : Addr) (d : Word), s.scheme.paging = some p →
    LeadsOutside s p (effective s.xlen a) p.top s.rootPpn →
    (TranslatedFor s .read →
      exec (.loadB a) s = .refused .outsideBackingStore ∧ exec (.loadH a) s = .refused .outsideBackingStore ∧
      exec (.loadW a) s = .refused .outsideBackingStore ∧ exec (.loadD a) s = .refused .outsideBackingStore) ∧
    (TranslatedFor s .write →
      exec (.storeB a d) s = .refused .outsideBackingStore ∧ exec (.storeH a d) s = .refused .outsideBackingStore ∧
      exec (.storeW a d) s = .refused .outsideBackingStore ∧ exec (.storeD a d) s = .refused .outsideBackingStore) ∧
    (TranslatedFor s .execute →
      exec (.fetchW a) s = .refused .outsideBackingStore ∧
      ∀ len : Byte, len ≠ 0 → exec (.fetchBlk a len) s = .refused .outsideBackingStore) ∧
    (TranslatedFor s .dontCare → exec (.validate a) s = .refused .outsideBackingStore)

/-- The reserved effective privilege (R182, U4). -/
def Obligations.ReservedEffectivePrivilegeIsRefused : Prop :=
  ∀ (s : State) (a : Addr) (d : Word), s.scheme ≠ .off → s.priv = .M → mprv s.cfg s.status = true → mpp s.cfg s.status = 2 →
    exec (.loadB a) s = .refused .reservedEffectivePrivilege ∧ exec (.loadH a) s = .refused .reservedEffectivePrivilege ∧
    exec (.loadW a) s = .refused .reservedEffectivePrivilege ∧ exec (.loadD a) s = .refused .reservedEffectivePrivilege ∧
    exec (.storeB a d) s = .refused .reservedEffectivePrivilege ∧ exec (.storeH a d) s = .refused .reservedEffectivePrivilege ∧
    exec (.storeW a d) s = .refused .reservedEffectivePrivilege ∧ exec (.storeD a d) s = .refused .reservedEffectivePrivilege ∧
    exec (.validate a) s = .refused .reservedEffectivePrivilege ∧ translate a .execute s = .ok (effective s.xlen a) s

/-! Translation and the TLB -/

/-- Step 1 of `Translate` (R181), after the truncation of R180. -/
def Obligations.SchemeOffTranslatesToTheSameAddress : Prop :=
  ∀ (s : State) (va : Addr) (kind : AccessKind), s.scheme = .off →
    (s.xlen = .w64 → translate va kind s = .ok va s) ∧
    (s.xlen = .w32 → translate va kind s = .ok ((va.setWidth 32).setWidth 64) s)

/-- Step 2 of `Translate` (R182). -/
def Obligations.PrivilegeDecidesWhoIsTranslated : Prop :=
  ∀ (s : State) (va : Addr) (kind : AccessKind) (p : Paging), s.scheme.paging = some p →
    (s.priv = .M → kind = .execute → translate va kind s = .ok (effective s.xlen va) s) ∧
    (s.priv = .M → kind ≠ .execute → mprv s.cfg s.status = false → translate va kind s = .ok (effective s.xlen va) s) ∧
    (s.priv = .M → kind ≠ .execute → mprv s.cfg s.status = true →
      (mpp s.cfg s.status = 3 → translate va kind s = .ok (effective s.xlen va) s) ∧
      (mpp s.cfg s.status = 2 → translate va kind s = .refuse .reservedEffectivePrivilege) ∧
      (mpp s.cfg s.status = 0 →
        translate va kind s = (translate va kind { s with priv := .U }).mapState fun t => { t with priv := .M }) ∧
      (mpp s.cfg s.status = 1 →
        translate va kind s = (translate va kind { s with priv := .S }).mapState fun t => { t with priv := .M })) ∧
    (s.priv = .U ∨ s.priv = .S → translate va kind s = walk p kind (effective s.xlen va) p.top s.rootPpn s)

/-- `U` and `S` are treated alike: the U bit is not checked (R194, R182). -/
def Obligations.UserAndSupervisorTranslateAlike : Prop :=
  ∀ (s : State) (va : Addr) (kind : AccessKind),
    (translate va kind { s with priv := .U }).mapState (fun t => { t with priv := .M }) =
      (translate va kind { s with priv := .S }).mapState fun t => { t with priv := .M }

/-- The entry address (R165), with the index fields of R164. -/
def Obligations.EntryAddressesAreAlignedAndExact : Prop :=
  ∀ (p : Paging) (level : Nat) (parent : BitVec 44) (a : Addr),
    (p.pteAddr level parent a).toNat = parent.toNat * 4096 +
      (match p with | .twoLevel => a.toNat / 2 ^ (12 + 10 * level) % 1024 * 4
                    | .threeLevel => a.toNat / 2 ^ (12 + 9 * level) % 512 * 8) ∧
    (p.pteAddr level parent a).toNat % p.pteSize = 0 ∧
    (p.pteAddr level parent a).toNat % 4096 + p.pteSize ≤ 4096

/-- Walk step (g) (R191), in shifts and masks. -/
def Obligations.LeafAddressesAreReconstructed : Prop :=
  ∀ pte a : Word,
    Paging.twoLevel.leafAddr 0 pte a = ((pte >>> 10 &&& 0x3FFFFF) <<< 12 ||| a &&& 0xFFF) ∧
    Paging.twoLevel.leafAddr 1 pte a = ((pte >>> 20 &&& 0xFFF) <<< 22 ||| (a >>> 12 &&& 0x3FF) <<< 12 ||| a &&& 0xFFF) ∧
    Paging.threeLevel.leafAddr 0 pte a = ((pte >>> 10 &&& 0xFFFFFFFFFFF) <<< 12 ||| a &&& 0xFFF) ∧
    Paging.threeLevel.leafAddr 1 pte a = ((pte >>> 28 &&& 0x3FFFFFF) <<< 30 ||| (pte >>> 19 &&& 0x1FF) <<< 21 |||
      (a >>> 12 &&& 0x1FF) <<< 12 ||| a &&& 0xFFF) ∧
    Paging.threeLevel.leafAddr 2 pte a = ((pte >>> 28 &&& 0x3FFFFFF) <<< 30 ||| (a >>> 21 &&& 0x1FF) <<< 21 |||
      (a >>> 12 &&& 0x1FF) <<< 12 ||| a &&& 0xFFF)

/-- Scenario A (R197), for every address, kind and page table, and the walks of the three-level scheme through one and two pointers. -/
def Obligations.PagesReachedThroughPointersTranslate : Prop :=
  (∀ (s : State) (va : Addr) (kind : AccessKind) (ptr leaf : Word) (e1 e0 : Addr), s.cfg.wf → Memory.wf s.bs = true →
      s.scheme = .twoLevel → s.priv ≠ .M → ColdFor s va →
      e1 = Paging.twoLevel.pteAddr 1 s.rootPpn (effective s.xlen va) → EntryInWindow s .twoLevel e1 →
      s.entryAt .twoLevel e1 = ptr → ValidPointer ptr →
      e0 = Paging.twoLevel.pteAddr 0 (Paging.twoLevel.ppn ptr) (effective s.xlen va) → EntryInWindow s .twoLevel e0 →
      s.entryAt .twoLevel e0 = leaf → ValidLeaf kind leaf →
      ∃ t, translate va kind s = .ok (leaf >>> 10 <<< 12 ||| effective s.xlen va &&& 0xFFF) t ∧
        (∀ x, t.bsByte x = s.rewrittenByte .twoLevel kind e0 leaf x) ∧
        (∃ i, t.tlbEntry i = ⟨true, tlbTag s.cfg.tagMode 0 (Paging.twoLevel.key (effective s.xlen va)), leaf, true⟩) ∧
        t.lat = s.lat + BitVec.ofNat 64 (2 * s.cfg.latPteRead + if needsRewrite kind leaf then s.cfg.latPteWrite else 0) ∧
        SameCaches s t ∧ SameControl s t) ∧
    (∀ (s : State) (va : Addr) (kind : AccessKind) (ptr2 ptr1 leaf : Word) (e2 e1 e0 : Addr), s.cfg.wf → Memory.wf s.bs = true →
      s.scheme = .threeLevel → s.priv ≠ .M → ColdFor s va →
      e2 = Paging.threeLevel.pteAddr 2 s.rootPpn (effective s.xlen va) → EntryInWindow s .threeLevel e2 →
      s.entryAt .threeLevel e2 = ptr2 → ValidPointer ptr2 →
      e1 = Paging.threeLevel.pteAddr 1 (Paging.threeLevel.ppn ptr2) (effective s.xlen va) → EntryInWindow s .threeLevel e1 →
      s.entryAt .threeLevel e1 = ptr1 → ValidPointer ptr1 →
      e0 = Paging.threeLevel.pteAddr 0 (Paging.threeLevel.ppn ptr1) (effective s.xlen va) → EntryInWindow s .threeLevel e0 →
      s.entryAt .threeLevel e0 = leaf → ValidLeaf kind leaf →
      ∃ t, translate va kind s = .ok ((leaf >>> 10 &&& 0xFFFFFFFFFFF) <<< 12 ||| effective s.xlen va &&& 0xFFF) t ∧
        (∀ x, t.bsByte x = s.rewrittenByte .threeLevel kind e0 leaf x) ∧
        (∃ i, t.tlbEntry i = ⟨true, tlbTag s.cfg.tagMode 0 (Paging.threeLevel.key (effective s.xlen va)), leaf, true⟩) ∧
        t.lat = s.lat + BitVec.ofNat 64 (3 * s.cfg.latPteRead + if needsRewrite kind leaf then s.cfg.latPteWrite else 0) ∧
        SameCaches s t ∧ SameControl s t) ∧
    ∀ (s : State) (va : Addr) (kind : AccessKind) (ptr leaf : Word) (e2 e1 : Addr), s.cfg.wf → Memory.wf s.bs = true →
      s.scheme = .threeLevel → s.priv ≠ .M → ColdFor s va →
      e2 = Paging.threeLevel.pteAddr 2 s.rootPpn (effective s.xlen va) → EntryInWindow s .threeLevel e2 →
      s.entryAt .threeLevel e2 = ptr → ValidPointer ptr →
      e1 = Paging.threeLevel.pteAddr 1 (Paging.threeLevel.ppn ptr) (effective s.xlen va) → EntryInWindow s .threeLevel e1 →
      s.entryAt .threeLevel e1 = leaf → ValidLeaf kind leaf →
      ∃ t,
        (leaf.extractLsb' 10 9 = 0 → translate va kind s = .ok ((leaf >>> 28 &&& 0x3FFFFFF) <<< 30 |||
          (leaf >>> 19 &&& 0x1FF) <<< 21 ||| effective s.xlen va &&& 0x1FFFFF) t) ∧
        (leaf.extractLsb' 10 9 ≠ 0 → translate va kind s = .raise () t) ∧
        (∀ x, t.bsByte x = s.rewrittenByte .threeLevel kind e1 leaf x) ∧
        (∃ i, t.tlbEntry i = ⟨true, tlbTag s.cfg.tagMode 1 (Paging.threeLevel.key (effective s.xlen va)), leaf, true⟩) ∧
        t.lat = s.lat + BitVec.ofNat 64 (2 * s.cfg.latPteRead + if needsRewrite kind leaf then s.cfg.latPteWrite else 0) ∧
        SameCaches s t ∧ SameControl s t

/-- Superpage leaves at the top level (R190, R191) of both schemes; the rewrite precedes the check (R188). -/
def Obligations.SuperpageTranslatesOrIsMisaligned : Prop :=
  ∀ (s : State) (va : Addr) (kind : AccessKind) (p : Paging) (leaf : Word) (e : Addr), s.cfg.wf → Memory.wf s.bs = true →
    s.scheme.paging = some p → s.priv ≠ .M → ColdFor s va →
    e = p.pteAddr p.top s.rootPpn (effective s.xlen va) → EntryInWindow s p e → s.entryAt p e = leaf → ValidLeaf kind leaf →
    ∃ t,
      (p = .twoLevel → leaf.extractLsb' 10 10 = 0 →
        translate va kind s = .ok ((leaf >>> 20 &&& 0xFFF) <<< 22 ||| effective s.xlen va &&& 0x3FFFFF) t) ∧
      (p = .threeLevel → leaf.extractLsb' 10 18 = 0 →
        translate va kind s = .ok ((leaf >>> 28 &&& 0x3FFFFFF) <<< 30 ||| effective s.xlen va &&& 0x3FFFFFFF) t) ∧
      (p = .twoLevel → leaf.extractLsb' 10 10 ≠ 0 → translate va kind s = .raise () t) ∧
      (p = .threeLevel → leaf.extractLsb' 10 18 ≠ 0 → translate va kind s = .raise () t) ∧
      (∀ x, t.bsByte x = s.rewrittenByte p kind e leaf x) ∧
      (∃ i, t.tlbEntry i = ⟨true, tlbTag s.cfg.tagMode p.top (p.key (effective s.xlen va)), leaf, true⟩) ∧
      SameCaches s t ∧ SameControl s t

/-- The Accessed/Dirty rewrite precedes the permission check and goes to the Backing Store alone (R188 corner cases 1 and 3). -/
def Obligations.RewritePrecedesThePermissionCheck : Prop :=
  ∀ (p : Paging) (kind : AccessKind) (a : Addr) (level : Nat) (parent : BitVec 44) (s u : State) (pte : Word),
    fetchPte p level parent a s = .ok pte u → u.cfg.wf → Memory.wf u.bs = true →
    EntryInWindow u p (p.pteAddr level parent a) → rejectedEntry pte = false → isPointer pte = false →
    permits kind pte = false → needsRewrite kind pte = true →
    ∃ t, walk p kind a level parent s = .raise () t ∧
      (∀ x, t.bsByte x = u.rewrittenByte p kind (p.pteAddr level parent a) pte x) ∧
      t.lat = u.lat + BitVec.ofNat 64 u.cfg.latPteWrite ∧ t.tlb = u.tlb ∧ SameCaches u t ∧ SameControl u t

/-- A TLB hit (R169). -/
def Obligations.TlbHitReusesTheStoredEntry : Prop :=
  ∀ (p : Paging) (level : Nat) (parent : BitVec 44) (a : Addr) (s : State) (i : Fin 64),
    tlbLookup s (tlbTag s.cfg.tagMode level (p.key a)) = some i →
    ∃ t, fetchPte p level parent a s = .ok (s.tlbEntry i).pte t ∧
      t = { s with tlb := t.tlb, lat := s.lat + BitVec.ofNat 64 s.cfg.latTlbHit } ∧
      t.tlbEntry i = { s.tlbEntry i with mru := true } ∧ ∀ j, j ≠ i → t.tlbEntry j = s.tlbEntry j

/-- `TlbInsert` (R171). -/
def Obligations.TlbInsertTakesAFreeOrAnUnmarkedSlot : Prop :=
  ∀ (s : State) (tag : TlbTag) (pte : Word),
    (∃ i, (tlbInsert tag pte s).tlbEntry i = ⟨true, tag, pte, true⟩ ∧
      ((∃ j, (s.tlbEntry j).valid = false) →
        (s.tlbEntry i).valid = false ∧ ∀ j, j ≠ i → (tlbInsert tag pte s).tlbEntry j = s.tlbEntry j) ∧
      ((∀ j, (s.tlbEntry j).valid = true) → (∃ j, (s.tlbEntry j).mru = false) →
        (s.tlbEntry i).mru = false ∧ ∀ j, j ≠ i → (tlbInsert tag pte s).tlbEntry j = s.tlbEntry j) ∧
      ((∀ j, (s.tlbEntry j).valid = true) → (∀ j, (s.tlbEntry j).mru = true) →
        ∀ j, j ≠ i → (tlbInsert tag pte s).tlbEntry j = { s.tlbEntry j with mru := false })) ∧
    (∀ i, ((s.tlbEntry i).valid = false ∨ (∀ j, (s.tlbEntry j).valid = true) ∧
        ((s.tlbEntry i).mru = false ∨ ∀ j, (s.tlbEntry j).mru = true)) →
      ∃ d, (tlbInsert tag pte { s with draws := d }).tlbEntry i = ⟨true, tag, pte, true⟩) ∧
    ∃ t, t = tlbInsert tag pte s ∧ t = { s with tlb := t.tlb, draws := t.draws, drawCount := t.drawCount }

/-- TLB transparency (R172) under `LevelQualified`, first cold, then warm. -/
def Obligations.TranslatingTwiceGivesTheSameAddress : Prop :=
  ∀ (s t : State) (va pa : Addr) (kind : AccessKind) (draws : Draws) (count : Nat), s.cfg.tagMode = .levelQualified →
    ColdFor s va → translate va kind s = .ok pa t →
    ∃ u, translate va kind { t with draws := draws, drawCount := count } = .ok pa u

/-- The insertion comes before the validity check (R170, R337 (b)). -/
def Obligations.FaultingLeafLookingEntryStaysCached : Prop :=
  ∀ (s : State) (va : Addr) (kind : AccessKind) (p : Paging) (e : Addr), s.scheme.paging = some p → s.priv ≠ .M → ColdFor s va →
    e = p.pteAddr p.top s.rootPpn (effective s.xlen va) → EntryInWindow s p e →
    looksLikeLeaf (s.entryAt p e) = true → rejectedEntry (s.entryAt p e) = true →
    ∃ t, translate va kind s = .raise () t ∧
      ∀ (kind' : AccessKind) (bs : List Host.Cell) (draws : Draws) (count : Nat),
        ∃ u, translate va kind' { t with bs := bs, draws := draws, drawCount := count } = .raise () u

/-! Rules of the whole machine -/

/-- The writers of the control elements (R22 to R26): a whole-machine rule. -/
def Obligations.OnlySetCommandsWriteControlElements : Prop :=
  ∀ (i : Instr) (s t : State), exec i s = .next t →
    (t.xlen ≠ s.xlen → ∃ d, i = .setXlen d) ∧ (t.scheme ≠ s.scheme ∨ t.rootPpn ≠ s.rootPpn → ∃ d, i = .setAtp d) ∧
    (t.priv ≠ s.priv → ∃ d, i = .setPriv d) ∧ (t.status ≠ s.status → ∃ d, i = .setStatus d) ∧ t.cfg = s.cfg

/-- The TLB is never invalidated (R29, R337): a whole-machine rule. -/
def Obligations.NoCommandInvalidatesTheTlb : Prop :=
  ∀ (i : Instr) (s t : State), exec i s = .next t →
    (∀ k, (s.tlbEntry k).valid = true → (t.tlbEntry k).valid = true) ∧
    (movesData i = false → (∀ a, i ≠ .validate a) → t.tlb = s.tlb)

/-- Who counts and who traces (R305, R40, R41): a whole-machine rule. R41 says that a `cycle` is the step input `now`; that every entry of one command has the same value, `s.now`, is the model's choice (notes/assumptions/8.md). -/
def Obligations.OnlyDataMovesCountAndOnlyTransfersTrace : Prop :=
  ∀ (i : Instr) (s t : State), exec i s = .next t →
    (movesData i = false → t.l1Hit = s.l1Hit ∧ t.l1Miss = s.l1Miss ∧ t.l2Hit = s.l2Hit ∧ t.l2Miss = s.l2Miss) ∧
    (i ≠ .traceClr → ∃ es, t.trace = s.trace ++ es ∧ (∀ e ∈ es, e.cycle = s.now ∧ blockOf e.addr = e.addr) ∧
      (movesData i = false → i ≠ .flush → es = []))

/-- A claim about CORE holds for every draw (R13, R342). -/
def Obligations.DrawsDoNotShowInLoadsAndStores : Prop :=
  ∀ (i : Instr) (s t : State) (n : Nat) (d d' : Draws) (c c' : Nat), Coherent s → movesData i = true →
    singlePage (addrField i) n = true →
    n = (match i with | .loadB _ | .storeB _ _ => 1 | .loadH _ | .storeH _ _ => 2
                      | .loadD _ | .storeD _ _ => 8 | .fetchBlk _ len => len.toNat | _ => 4) →
    exec i { s with draws := d, drawCount := c } = .next t →
    ∃ t', exec i { s with draws := d', drawCount := c' } = .next t' ∧ t'.response = t.response ∧ ∀ x, t'.view x = t.view x

/-! The cache controller -/

/-- Step 1 of `AcquireLine` (R211). -/
def Obligations.L1HitChangesCountAndLatencyOnly : Prop :=
  ∀ (s : State) (pa : Addr) (w : Fin 8), lookup1 s pa = some w →
    acquireLine pa s = .ok w { s with lat := s.lat + BitVec.ofNat 64 s.cfg.latL1Hit, l1Hit := s.l1Hit + 1 }

/-- Scenarios B and C (R223), for every configuration, address and draw. -/
def Obligations.FirstLoadOfAFreshHierarchy : Prop :=
  ∀ (s : State) (a pa : Addr), Coherent s → NothingCached s → Bypassed s .read → pa = effective s.xlen a →
    blockOffset pa + 4 ≤ 64 → bsValid s.cfg pa = true →
    ∃ t, exec (.loadW a) s = .next t ∧ t.l1Miss = s.l1Miss + 1 ∧ t.l2Miss = s.l2Miss + 1 ∧ t.l1Hit = s.l1Hit ∧
      t.l2Hit = s.l2Hit ∧ t.trace = s.trace ++ [⟨blockOf pa, .read, s.now⟩] ∧
      t.lat = s.lat + BitVec.ofNat 64 (s.cfg.latL1Check + s.cfg.latL2Miss) ∧
      (∃ v, lookup1 t pa = some v) ∧ (∃ u, lookup2 t pa = some u ∧ (t.line2 (l2Index pa) u).incl = true) ∧
      exec (.loadW a) t = .next { t with lat := t.lat + BitVec.ofNat 64 s.cfg.latL1Hit, l1Hit := t.l1Hit + 1 }

/-- The write phase of a store that hits (R239): write-back, not write-through. -/
def Obligations.StoreHitChangesTheL1LineAlone : Prop :=
  ∀ (s : State) (a pa : Addr) (d : Word) (w : Fin 8), Bypassed s .write → pa = effective s.xlen a → lookup1 s pa = some w →
    (blockOffset pa + 1 ≤ 64 → ∃ t, exec (.storeB a d) s = .next t ∧ t.response = some ⟨.ok, 0, 0, []⟩ ∧
      t = { s with l1 := t.l1, lat := s.lat + BitVec.ofNat 64 s.cfg.latL1Hit, l1Hit := s.l1Hit + 1, response := t.response } ∧
      (t.line1 (l1Index pa) w).valid = true ∧ (t.line1 (l1Index pa) w).tag = (s.line1 (l1Index pa) w).tag ∧
      (∀ k < 64, blockByte (t.line1 (l1Index pa) w).data k = if blockOffset pa ≤ k ∧ k < blockOffset pa + 1 then
        d.extractLsb' (8 * (k - blockOffset pa)) 8 else blockByte (s.line1 (l1Index pa) w).data k) ∧
      ∀ j v, ¬(j = l1Index pa ∧ v = w) → t.line1 j v = s.line1 j v) ∧
    (blockOffset pa + 2 ≤ 64 → ∃ t, exec (.storeH a d) s = .next t ∧ t.response = some ⟨.ok, 0, 0, []⟩ ∧
      t = { s with l1 := t.l1, lat := s.lat + BitVec.ofNat 64 s.cfg.latL1Hit, l1Hit := s.l1Hit + 1, response := t.response } ∧
      (t.line1 (l1Index pa) w).valid = true ∧ (t.line1 (l1Index pa) w).tag = (s.line1 (l1Index pa) w).tag ∧
      (∀ k < 64, blockByte (t.line1 (l1Index pa) w).data k = if blockOffset pa ≤ k ∧ k < blockOffset pa + 2 then
        d.extractLsb' (8 * (k - blockOffset pa)) 8 else blockByte (s.line1 (l1Index pa) w).data k) ∧
      ∀ j v, ¬(j = l1Index pa ∧ v = w) → t.line1 j v = s.line1 j v) ∧
    (blockOffset pa + 4 ≤ 64 → ∃ t, exec (.storeW a d) s = .next t ∧ t.response = some ⟨.ok, 0, 0, []⟩ ∧
      t = { s with l1 := t.l1, lat := s.lat + BitVec.ofNat 64 s.cfg.latL1Hit, l1Hit := s.l1Hit + 1, response := t.response } ∧
      (t.line1 (l1Index pa) w).valid = true ∧ (t.line1 (l1Index pa) w).tag = (s.line1 (l1Index pa) w).tag ∧
      (∀ k < 64, blockByte (t.line1 (l1Index pa) w).data k = if blockOffset pa ≤ k ∧ k < blockOffset pa + 4 then
        d.extractLsb' (8 * (k - blockOffset pa)) 8 else blockByte (s.line1 (l1Index pa) w).data k) ∧
      ∀ j v, ¬(j = l1Index pa ∧ v = w) → t.line1 j v = s.line1 j v) ∧
    (blockOffset pa + 8 ≤ 64 → ∃ t, exec (.storeD a d) s = .next t ∧ t.response = some ⟨.ok, 0, 0, []⟩ ∧
      t = { s with l1 := t.l1, lat := s.lat + BitVec.ofNat 64 s.cfg.latL1Hit, l1Hit := s.l1Hit + 1, response := t.response } ∧
      (t.line1 (l1Index pa) w).valid = true ∧ (t.line1 (l1Index pa) w).tag = (s.line1 (l1Index pa) w).tag ∧
      (∀ k < 64, blockByte (t.line1 (l1Index pa) w).data k = if blockOffset pa ≤ k ∧ k < blockOffset pa + 8 then
        d.extractLsb' (8 * (k - blockOffset pa)) 8 else blockByte (s.line1 (l1Index pa) w).data k) ∧
      ∀ j v, ¬(j = l1Index pa ∧ v = w) → t.line1 j v = s.line1 j v)

/-- `WriteBack(line, i1, L1)` (R217). -/
def Obligations.L1WriteBackGoesToTheOwningL2Line : Prop :=
  ∀ (s : State) (line : L1Line) (i : Fin 64),
    (∀ x, lookup2 s (l1BlockAddr i line.tag) = some x → ∃ t, writeBack1 line i s = .ok () t ∧ t = { s with l2 := t.l2 } ∧
      t.line2 (l2Index (l1BlockAddr i line.tag)) x =
        { s.line2 (l2Index (l1BlockAddr i line.tag)) x with data := line.data, incl := false } ∧
      ∀ j y, ¬(j = l2Index (l1BlockAddr i line.tag) ∧ y = x) → t.line2 j y = s.line2 j y) ∧
    (lookup2 s (l1BlockAddr i line.tag) = none → writeBack1 line i s = .raise () s)

/-- `WriteBack(line, i2, L2)` (R218) with its eight writes (R126). -/
def Obligations.L2WriteBackGoesToTheBackingStore : Prop :=
  ∀ (s : State) (line : L2Line) (j : Fin 256), s.cfg.wf → Memory.wf s.bs = true →
    bsValid s.cfg (l2BlockAddr j line.tag) = true →
    ∃ t, writeBack2 line j s = .ok () t ∧
      t = { s with bs := t.bs, trace := s.trace ++ [⟨l2BlockAddr j line.tag, .write, s.now⟩] } ∧ Memory.wf t.bs = true ∧
      ∀ x, t.bsByte x = if blockOf x = l2BlockAddr j line.tag then blockByte line.data (blockOffset x) else s.bsByte x

/-- `ChooseVictim` (R143), for every draw. -/
def Obligations.VictimsAreTheEligibleWays : Prop :=
  ∀ s : State, (∀ w, ∃ d, victim1 { s with draws := d } = w) ∧
    ∀ i, (∀ u, victim2 s i = some u → (s.line2 i u).incl = false) ∧
      (∀ u, (s.line2 i u).incl = false → ∃ d, victim2 { s with draws := d } i = some u) ∧
      (victim2 s i = none ↔ ∀ u, (s.line2 i u).incl = true)

/-- Step 3a of `AcquireLine` (R214) behind step 2 (R212), without and with the victim's write-back (R217). -/
def Obligations.L2HitFillsL1AndBecomesInclusive : Prop :=
  ∀ (s : State) (pa : Addr) (v x : Fin 8), lookup1 s pa = none → victim1 s = v → lookup2 s pa = some x →
    ((s.line1 (l1Index pa) v).valid = false →
      ∃ t, acquireLine pa s = .ok v t ∧ t.line1 (l1Index pa) v = ⟨true, l1Tag pa, (s.line2 (l2Index pa) x).data⟩ ∧
        t.line2 (l2Index pa) x = { s.line2 (l2Index pa) x with incl := true } ∧
        (∀ i w, ¬(i = l1Index pa ∧ w = v) → t.line1 i w = s.line1 i w) ∧
        (∀ j y, ¬(j = l2Index pa ∧ y = x) → t.line2 j y = s.line2 j y) ∧
        t = { s with l1 := t.l1, l2 := t.l2, l1Miss := s.l1Miss + 1, l2Hit := s.l2Hit + 1,
                     lat := s.lat + BitVec.ofNat 64 (s.cfg.latL1Check + s.cfg.latL2Hit),
                     draws := s.tookL1Draw.draws, drawCount := s.tookL1Draw.drawCount }) ∧
    ∀ (b : Addr) (z : Fin 8), (s.line1 (l1Index pa) v).valid = true → b = s.block1 (l1Index pa) v → lookup2 s b = some z →
      ∃ t, acquireLine pa s = .ok v t ∧ t.line1 (l1Index pa) v = ⟨true, l1Tag pa, (s.line2 (l2Index pa) x).data⟩ ∧
        t.line2 (l2Index pa) x = { s.line2 (l2Index pa) x with incl := true } ∧
        t.line2 (l2Index b) z = { s.line2 (l2Index b) z with data := (s.line1 (l1Index pa) v).data, incl := false } ∧
        (∀ i w, ¬(i = l1Index pa ∧ w = v) → t.line1 i w = s.line1 i w) ∧
        (∀ j y, ¬(j = l2Index pa ∧ y = x) → ¬(j = l2Index b ∧ y = z) → t.line2 j y = s.line2 j y) ∧
        t = { s with l1 := t.l1, l2 := t.l2, l1Miss := s.l1Miss + 1, l2Hit := s.l2Hit + 1,
                     lat := s.lat + BitVec.ofNat 64 (s.cfg.latL1Check + s.cfg.latL2Hit),
                     draws := s.tookL1Draw.draws, drawCount := s.tookL1Draw.drawCount }

/-! Invariants and reset -/

/-- Inclusion of presence (R44) with what it rests on, kept by every step (R221). -/
def Obligations.StepKeepsCoherence : Prop :=
  ∀ s t : State, Coherent s → step s = .next t → Coherent t

/-- The TLB invariants of R30 and R337 (d), kept by every step. -/
def Obligations.StepKeepsTheTlbInvariants : Prop :=
  ∀ s t : State, step s = .next t → (TlbDistinct s → TlbDistinct t) ∧ (MarkedWhileFree s → MarkedWhileFree t)

/-- The counter invariant of R280, kept by every step. -/
def Obligations.StepKeepsTheMissBalance : Prop :=
  ∀ s t : State, Coherent s → MissesBalance s → step s = .next t → MissesBalance t

/-- The reset state satisfies the invariants trivially (R321). -/
def Obligations.InvariantsHoldAtReset : Prop :=
  (∀ (cfg : Config) (xs : List Input) (n : Nat), cfg.wf →
      Coherent (State.resetWith cfg xs n) ∧ NothingCached (State.resetWith cfg xs n) ∧ TlbDistinct (State.resetWith cfg xs n) ∧
        MarkedWhileFree (State.resetWith cfg xs n) ∧ MissesBalance (State.resetWith cfg xs n)) ∧
    Config.standard.wf ∧ State.reset = State.resetWith Config.standard [] 0

/-- Reset (R50, R320). That a reset keeps the configuration, the waiting inputs and the count of free draws is the model's (notes/assumptions/7.md). -/
def Obligations.ResetGivesEveryElementItsValue : Prop :=
  (∀ (cfg : Config) (xs : List Input) (n : Nat) (t : State), t = State.resetWith cfg xs n →
      t.xlen = cfg.xlenInit ∧ t.scheme = .off ∧ t.rootPpn = 0 ∧ t.priv = .M ∧ t.status = 0 ∧ t.lat = 0 ∧
      (∀ i, (t.tlbEntry i).valid = false ∧ (t.tlbEntry i).mru = false) ∧ (∀ i w, (t.line1 i w).valid = false) ∧
      (∀ j x, (t.line2 j x).valid = false ∧ (t.line2 j x).incl = false) ∧
      t.l1Hit = 0 ∧ t.l1Miss = 0 ∧ t.l2Hit = 0 ∧ t.l2Miss = 0 ∧ t.trace = [] ∧ t.bs = cfg.initMem ∧ t.cfg = cfg) ∧
    ∀ (s : State) (rest : List Input), s.inputs = .reset :: rest → step s = .next (State.resetWith s.cfg rest s.drawCount)

/-- Host actions (R331) and their incoherence with cached blocks (R336). One byte per action, and the refusal of an address that names no byte of `BS`, are the model's (notes/assumptions/5.md). -/
def Obligations.HostWriteChangesTheBackingStoreAlone : Prop :=
  ∀ (s : State) (x : Addr) (b : Byte) (rest : List Input), Coherent s → s.inputs = .hostWrite x b :: rest →
    (bsValid s.cfg x = false → step s = .refused .outsideBackingStore) ∧
    (bsValid s.cfg x = true → ∃ t, step s = .next t ∧ t = { s with inputs := rest, bs := t.bs } ∧
      (∀ y, t.bsByte y = if y = x then b else s.bsByte y) ∧
      (∀ y, t.view y = if y = x ∧ lookup1 s x = none ∧ lookup2 s x = none then b else s.view y))

/-! The controller on an L2 miss -/

/-- Steps 2 and 3b of `AcquireLine` (R212, R215), for every draw, with valid and invalid victims at both levels. That both entries carry the same `now` is the model's choice (notes/assumptions/8.md). -/
def Obligations.L2MissEvictsAndRefillsBothLevels : Prop :=
  ∀ (s : State) (pa : Addr) (v : Fin 8), Coherent s → bsValid s.cfg pa = true → lookup1 s pa = none → lookup2 s pa = none →
    victim1 s = v →
    ∃ u t, acquireLine pa s = .ok v t ∧
      ((s.line2 (l2Index pa) u).incl = false ∨
        (s.line1 (l1Index pa) v).valid = true ∧ s.block2 (l2Index pa) u = s.block1 (l1Index pa) v) ∧
      t.trace = s.trace ++ (if (s.line2 (l2Index pa) u).valid = true then [⟨s.block2 (l2Index pa) u, .write, s.now⟩] else []) ++
        [⟨blockOf pa, .read, s.now⟩] ∧
      t.lat = s.lat + BitVec.ofNat 64 (s.cfg.latL1Check +
        if (s.line2 (l2Index pa) u).valid = true then 2 * s.cfg.latL2Miss else s.cfg.latL2Miss) ∧
      (∀ x, t.bsByte x = if (s.line2 (l2Index pa) u).valid = true ∧ blockOf x = s.block2 (l2Index pa) u then s.view x
        else s.bsByte x) ∧
      t.line1 (l1Index pa) v = ⟨true, l1Tag pa, blockOfFn fun k => s.bsByte (blockOf pa + BitVec.ofNat 64 k)⟩ ∧
      t.line2 (l2Index pa) u = ⟨true, l2Tag pa, blockOfFn fun k => s.bsByte (blockOf pa + BitVec.ofNat 64 k), true⟩ ∧
      (∀ i w, ¬(i = l1Index pa ∧ w = v) → t.line1 i w = s.line1 i w) ∧
      (∀ j y, ¬(j = l2Index pa ∧ y = u) → t.line2 j y =
        if (s.line1 (l1Index pa) v).valid = true ∧ (s.line2 j y).valid = true ∧ s.block2 j y = s.block1 (l1Index pa) v then
          { s.line2 j y with data := (s.line1 (l1Index pa) v).data, incl := false } else s.line2 j y) ∧
      t = { s with l1 := t.l1, l2 := t.l2, bs := t.bs, trace := t.trace, lat := t.lat, l1Miss := s.l1Miss + 1,
                   l2Miss := s.l2Miss + 1, draws := t.draws, drawCount := t.drawCount }
end

