-- ==== Sys2Proof/Laws/Address.lean ====
section
/-! SUPPORT. Addresses as numbers: the block, the index and tag of each level, and that tag, index and offset partition an
address (R136, R137). -/

namespace Sys2Proof.Machine

theorem blockOffset_eq (pa : Addr) : blockOffset pa = pa.toNat % 64 := by
  simp [blockOffset]

theorem blockOf_eq_append (pa : Addr) : blockOf pa = pa.extractLsb' 6 58 ++ (0 : BitVec 6) := by
  apply BitVec.eq_of_getLsbD_eq
  intro i hi
  simp only [blockOf, BitVec.getLsbD_and, BitVec.getLsbD_not, BitVec.getLsbD_append, BitVec.getLsbD_extractLsb']
  have h63 : (0x3F : BitVec 64).getLsbD i = decide (i < 6) := by
    have : ∀ j : Fin 64, (0x3F : BitVec 64).getLsbD j = decide (j.val < 6) := by decide
    exact this ⟨i, hi⟩
  rw [h63]
  by_cases h : i < 6
  · simp [h]
  · simp [h, show i - 6 < 58 by omega, show 6 + (i - 6) = i by omega, hi]

theorem toNat_append_zero {n : Nat} (x : BitVec n) (k : Nat) : (x ++ (0 : BitVec k)).toNat = x.toNat * 2 ^ k := by
  simp [BitVec.toNat_append, Nat.shiftLeft_eq]

theorem toNat_append_eq {n k : Nat} (x : BitVec n) (y : BitVec k) : (x ++ y).toNat = x.toNat * 2 ^ k + y.toNat := by
  rw [BitVec.toNat_append, ← Nat.shiftLeft_add_eq_or_of_lt y.isLt, Nat.shiftLeft_eq]

theorem blockOf_toNat (pa : Addr) : (blockOf pa).toNat = pa.toNat / 64 * 64 := by
  rw [blockOf_eq_append]
  have := toNat_append_zero (pa.extractLsb' 6 58) 6
  rw [this, BitVec.extractLsb'_toNat, Nat.shiftRight_eq_div_pow]
  have := pa.isLt
  omega

theorem l1Index_val (pa : Addr) : (l1Index pa).val = pa.toNat / 64 % 64 := by
  show (pa.extractLsb' 6 6).toNat = _
  rw [BitVec.extractLsb'_toNat, Nat.shiftRight_eq_div_pow]

theorem l2Index_val (pa : Addr) : (l2Index pa).val = pa.toNat / 64 % 256 := by
  show (pa.extractLsb' 6 8).toNat = _
  rw [BitVec.extractLsb'_toNat, Nat.shiftRight_eq_div_pow]

theorem l1Tag_toNat (pa : Addr) : (l1Tag pa).toNat = pa.toNat / 4096 := by
  have := pa.isLt
  rw [l1Tag, BitVec.extractLsb'_toNat, Nat.shiftRight_eq_div_pow]
  omega

theorem l2Tag_toNat (pa : Addr) : (l2Tag pa).toNat = pa.toNat / 16384 := by
  have := pa.isLt
  rw [l2Tag, BitVec.extractLsb'_toNat, Nat.shiftRight_eq_div_pow]
  omega

theorem l1BlockAddr_toNat (i : Fin 64) (t : BitVec 52) : (l1BlockAddr i t).toNat = t.toNat * 4096 + i.val * 64 := by
  have h1 : (l1BlockAddr i t).toNat = (t ++ BitVec.ofNat 6 i.val).toNat * 2 ^ 6 :=
    toNat_append_zero (t ++ BitVec.ofNat 6 i.val) 6
  rw [h1, toNat_append_eq, BitVec.toNat_ofNat]
  have := i.isLt
  omega

theorem l2BlockAddr_toNat (i : Fin 256) (t : BitVec 50) : (l2BlockAddr i t).toNat = t.toNat * 16384 + i.val * 64 := by
  have h1 : (l2BlockAddr i t).toNat = (t ++ BitVec.ofNat 8 i.val).toNat * 2 ^ 6 :=
    toNat_append_zero (t ++ BitVec.ofNat 8 i.val) 6
  rw [h1, toNat_append_eq, BitVec.toNat_ofNat]
  have := i.isLt
  omega

/-- A line of L1 holds the block of an address exactly when its set is the index and its tag the tag. -/
theorem l1BlockAddr_eq_iff (i : Fin 64) (t : BitVec 52) (pa : Addr) :
    l1BlockAddr i t = blockOf pa ↔ i = l1Index pa ∧ t = l1Tag pa := by
  rw [← BitVec.toNat_inj, l1BlockAddr_toNat, blockOf_toNat, Fin.ext_iff, l1Index_val, ← BitVec.toNat_inj, l1Tag_toNat]
  have := i.isLt
  omega

/-- A line of L2 holds the block of an address exactly when its set is the index and its tag the tag. -/
theorem l2BlockAddr_eq_iff (i : Fin 256) (t : BitVec 50) (pa : Addr) :
    l2BlockAddr i t = blockOf pa ↔ i = l2Index pa ∧ t = l2Tag pa := by
  rw [← BitVec.toNat_inj, l2BlockAddr_toNat, blockOf_toNat, Fin.ext_iff, l2Index_val, ← BitVec.toNat_inj, l2Tag_toNat]
  have := i.isLt
  omega

@[simp] theorem l1BlockAddr_of (pa : Addr) : l1BlockAddr (l1Index pa) (l1Tag pa) = blockOf pa :=
  (l1BlockAddr_eq_iff _ _ _).2 ⟨rfl, rfl⟩

@[simp] theorem l2BlockAddr_of (pa : Addr) : l2BlockAddr (l2Index pa) (l2Tag pa) = blockOf pa :=
  (l2BlockAddr_eq_iff _ _ _).2 ⟨rfl, rfl⟩

/-- The block address of a line is the block of itself. -/
@[simp] theorem blockOf_l1BlockAddr (i : Fin 64) (t : BitVec 52) : blockOf (l1BlockAddr i t) = l1BlockAddr i t := by
  rw [← BitVec.toNat_inj, blockOf_toNat, l1BlockAddr_toNat]; omega

@[simp] theorem blockOf_l2BlockAddr (i : Fin 256) (t : BitVec 50) : blockOf (l2BlockAddr i t) = l2BlockAddr i t := by
  rw [← BitVec.toNat_inj, blockOf_toNat, l2BlockAddr_toNat]; omega

@[simp] theorem blockOf_blockOf (pa : Addr) : blockOf (blockOf pa) = blockOf pa := by
  rw [← BitVec.toNat_inj, blockOf_toNat, blockOf_toNat]; omega

@[simp] theorem l1Index_blockAddr (i : Fin 64) (t : BitVec 52) : l1Index (l1BlockAddr i t) = i :=
  ((l1BlockAddr_eq_iff i t _).1 (blockOf_l1BlockAddr i t).symm).1.symm

@[simp] theorem l1Tag_blockAddr (i : Fin 64) (t : BitVec 52) : l1Tag (l1BlockAddr i t) = t :=
  ((l1BlockAddr_eq_iff i t _).1 (blockOf_l1BlockAddr i t).symm).2.symm

@[simp] theorem l2Index_blockAddr (i : Fin 256) (t : BitVec 50) : l2Index (l2BlockAddr i t) = i :=
  ((l2BlockAddr_eq_iff i t _).1 (blockOf_l2BlockAddr i t).symm).1.symm

@[simp] theorem l2Tag_blockAddr (i : Fin 256) (t : BitVec 50) : l2Tag (l2BlockAddr i t) = t :=
  ((l2BlockAddr_eq_iff i t _).1 (blockOf_l2BlockAddr i t).symm).2.symm

/-- Two addresses have the same L1 index and tag exactly when they are in one block. -/
theorem blockOf_eq_iff_l1 (pa pb : Addr) : blockOf pa = blockOf pb ↔ l1Index pa = l1Index pb ∧ l1Tag pa = l1Tag pb := by
  rw [← l1BlockAddr_of pa, l1BlockAddr_eq_iff]

/-- Two addresses have the same L2 index and tag exactly when they are in one block. -/
theorem blockOf_eq_iff_l2 (pa pb : Addr) : blockOf pa = blockOf pb ↔ l2Index pa = l2Index pb ∧ l2Tag pa = l2Tag pb := by
  rw [← l2BlockAddr_of pa, l2BlockAddr_eq_iff]

/-- An address is its block and its offset. -/
theorem blockOf_add_offset (pa : Addr) : blockOf pa + BitVec.ofNat 64 (blockOffset pa) = pa := by
  rw [← BitVec.toNat_inj, BitVec.toNat_add, blockOf_toNat, BitVec.toNat_ofNat, blockOffset_eq]
  have := pa.isLt
  omega

/-- Bytes that lie in one line have the same block and consecutive offsets. -/
theorem blockOf_add {pa : Addr} {k : Nat} (h : blockOffset pa + k < 64) :
    blockOf (pa + BitVec.ofNat 64 k) = blockOf pa ∧ blockOffset (pa + BitVec.ofNat 64 k) = blockOffset pa + k := by
  rw [blockOffset_eq] at h ⊢
  rw [← BitVec.toNat_inj, blockOf_toNat, blockOf_toNat, blockOffset_eq, BitVec.toNat_add, BitVec.toNat_ofNat]
  have := pa.isLt
  omega

theorem blockOffset_lt (pa : Addr) : blockOffset pa < 64 := by
  rw [blockOffset_eq]; exact Nat.mod_lt _ (by decide)

end Sys2Proof.Machine
end

