-- ==== Sys2Proof/Laws/Run.lean ====
section
/-! SUPPORT. The outcome of a procedure: how `bind`, `mapFailure`, `mapState` and `forEach` act on each outcome, how to take
a finished `bind` apart, and the induction over `forEach`. -/

namespace Sys2Proof.Machine

variable {ε ε' α β : Type}

@[simp] theorem Run.bind_ok (a : α) (s : State) (f : α → State → Run ε β) : (Run.ok a s).bind f = f a s := rfl
@[simp] theorem Run.bind_raise (e : ε) (s : State) (f : α → State → Run ε β) : (Run.raise e s).bind f = .raise e s := rfl
@[simp] theorem Run.bind_refuse (r : Refusal) (f : α → State → Run ε β) : (Run.refuse r : Run ε α).bind f = .refuse r := rfl

@[simp] theorem Run.mapFailure_ok (g : ε → ε') (a : α) (s : State) : (Run.ok a s).mapFailure g = .ok a s := rfl
@[simp] theorem Run.mapFailure_raise (g : ε → ε') (e : ε) (s : State) :
    (Run.raise e s : Run ε α).mapFailure g = .raise (g e) s := rfl
@[simp] theorem Run.mapFailure_refuse (g : ε → ε') (r : Refusal) :
    (Run.refuse r : Run ε α).mapFailure g = .refuse r := rfl

@[simp] theorem Run.mapState_ok (g : State → State) (a : α) (s : State) :
    (Run.ok a s : Run ε α).mapState g = .ok a (g s) := rfl
@[simp] theorem Run.mapState_raise (g : State → State) (e : ε) (s : State) :
    (Run.raise e s : Run ε α).mapState g = .raise e (g s) := rfl
@[simp] theorem Run.mapState_refuse (g : State → State) (r : Refusal) :
    (Run.refuse r : Run ε α).mapState g = .refuse r := rfl

@[simp] theorem Run.forEach_nil (f : α → State → Run ε Unit) (s : State) : Run.forEach f [] s = .ok () s := rfl
@[simp] theorem Run.forEach_cons (f : α → State → Run ε Unit) (a : α) (as : List α) (s : State) :
    Run.forEach f (a :: as) s = (f a s).bind fun _ s => Run.forEach f as s := rfl

/-- A `bind` that returned went through both procedures. -/
theorem Run.bind_eq_ok {x : Run ε α} {f : α → State → Run ε β} {b : β} {t : State} :
    x.bind f = .ok b t ↔ ∃ a s, x = .ok a s ∧ f a s = .ok b t := by
  cases x <;> simp [Run.bind]

/-- A `bind` that failed failed in the first procedure or in the second. -/
theorem Run.bind_eq_raise {x : Run ε α} {f : α → State → Run ε β} {e : ε} {t : State} :
    x.bind f = .raise e t ↔ x = .raise e t ∨ ∃ a s, x = .ok a s ∧ f a s = .raise e t := by
  cases x <;> simp [Run.bind]

/-- A `bind` that refused refused in the first procedure or in the second. -/
theorem Run.bind_eq_refuse {x : Run ε α} {f : α → State → Run ε β} {r : Refusal} :
    x.bind f = .refuse r ↔ x = .refuse r ∨ ∃ a s, x = .ok a s ∧ f a s = .refuse r := by
  cases x <;> simp [Run.bind]

/-- The states an outcome leaves, whether it returned or failed, satisfy a property. -/
def Run.Leaves (P : State → Prop) : Run ε α → Prop
  | .ok _ s => P s
  | .raise _ s => P s
  | .refuse _ => True

@[simp] theorem Run.leaves_ok (P : State → Prop) (a : α) (s : State) : (Run.ok a s : Run ε α).Leaves P ↔ P s := Iff.rfl
@[simp] theorem Run.leaves_raise (P : State → Prop) (e : ε) (s : State) : (Run.raise e s : Run ε α).Leaves P ↔ P s := Iff.rfl
@[simp] theorem Run.leaves_refuse (P : State → Prop) (r : Refusal) : (Run.refuse r : Run ε α).Leaves P ↔ True := Iff.rfl

/-- What the second procedure leaves from every state of the first, a `bind` leaves, if a failure of the first does too. -/
theorem Run.Leaves.bind {P Q : State → Prop} {x : Run ε α} {f : α → State → Run ε β} (hx : x.Leaves P)
    (hP : ∀ s, P s → Q s) (hf : ∀ a s, P s → (f a s).Leaves Q) : (x.bind f).Leaves Q := by
  cases x with
  | ok a s => exact hf a s hx
  | raise e s => exact hP s hx
  | refuse r => trivial

theorem Run.Leaves.mono {P Q : State → Prop} {x : Run ε α} (hx : x.Leaves P) (h : ∀ s, P s → Q s) : x.Leaves Q := by
  cases x with
  | ok a s => exact h s hx
  | raise e s => exact h s hx
  | refuse r => trivial

theorem Run.Leaves.and {P Q : State → Prop} {x : Run ε α} (hp : x.Leaves P) (hq : x.Leaves Q) :
    x.Leaves fun s => P s ∧ Q s := by
  cases x with
  | ok a s => exact ⟨hp, hq⟩
  | raise e s => exact ⟨hp, hq⟩
  | refuse r => trivial

theorem Run.leaves_mapFailure {P : State → Prop} {g : ε → ε'} {x : Run ε α} :
    (x.mapFailure g).Leaves P ↔ x.Leaves P := by cases x <;> rfl

theorem Run.leaves_mapState {P : State → Prop} {g : State → State} {x : Run ε α} :
    (x.mapState g).Leaves P ↔ x.Leaves fun s => P (g s) := by cases x <;> rfl

/-- A property each run keeps is kept by `forEach`. -/
theorem Run.Leaves.forEach {P : State → Prop} {f : α → State → Run ε Unit} (hf : ∀ a s, P s → (f a s).Leaves P)
    (as : List α) {s : State} (hs : P s) : (Run.forEach f as s).Leaves P := by
  induction as generalizing s with
  | nil => exact hs
  | cons a as ih => exact (hf a s hs).bind (fun _ h => h) fun _ s hs => ih hs

/-- `forEach` returns, with a property every run needs and keeps, if each run does. -/
theorem Run.forEach_returns {P : State → Prop} {f : α → State → Run ε Unit}
    (hf : ∀ a s, P s → ∃ t, f a s = .ok () t ∧ P t) (as : List α) {s : State} (hs : P s) :
    ∃ t, Run.forEach f as s = .ok () t ∧ P t := by
  induction as generalizing s with
  | nil => exact ⟨s, rfl, hs⟩
  | cons a as ih =>
    obtain ⟨u, hu, hPu⟩ := hf a s hs
    obtain ⟨t, ht, hPt⟩ := ih hPu
    exact ⟨t, by simp [hu, ht], hPt⟩

/-- `forEach` establishes for each element what its run establishes and no other run undoes. -/
theorem Run.forEach_establishes {P : State → Prop} {Q : α → State → Prop} {f : α → State → Run ε Unit}
    (hf : ∀ a s, P s → ∃ t, f a s = .ok () t ∧ P t ∧ Q a t ∧ ∀ b, Q b s → Q b t) (as : List α) {s : State} (hs : P s) :
    ∃ t, Run.forEach f as s = .ok () t ∧ P t ∧ (∀ a ∈ as, Q a t) ∧ ∀ b, Q b s → Q b t := by
  induction as generalizing s with
  | nil => exact ⟨s, rfl, hs, by simp, fun _ h => h⟩
  | cons a as ih =>
    obtain ⟨u, hu, hPu, ha, hk⟩ := hf a s hs
    obtain ⟨t, ht, hPt, hb, hk'⟩ := ih hPu
    refine ⟨t, by simp [hu, ht], hPt, fun b h => ?_, fun b h => hk' b (hk b h)⟩
    rcases List.mem_cons.1 h with rfl | h
    · exact hk' _ ha
    · exact hb b h

/-- `forEach` over two lists in a row. -/
theorem Run.forEach_append (f : α → State → Run ε Unit) (as bs : List α) (s : State) :
    Run.forEach f (as ++ bs) s = (Run.forEach f as s).bind fun _ s => Run.forEach f bs s := by
  induction as generalizing s with
  | nil => rfl
  | cons a as ih =>
    simp only [List.cons_append, Run.forEach_cons]
    cases f a s <;> simp [ih]

end Sys2Proof.Machine
end

