-- ==== Sys2Proof/Laws/State.lean ====
section
/-! SUPPORT. One lemma per field per update: what each named write of a state element leaves in each field. The line and
TLB arrays have their own lemmas in Laws/Lines.lean. -/

namespace Sys2Proof.Machine

/-! `beginCommand` and `takeInput` have theirs in Laws/Step.lean. -/

/-! `State.addLat` -/

@[simp] theorem State.addLat_cfg (s : State) (n : Nat) : (s.addLat n).cfg = s.cfg := rfl
@[simp] theorem State.addLat_xlen (s : State) (n : Nat) : (s.addLat n).xlen = s.xlen := rfl
@[simp] theorem State.addLat_scheme (s : State) (n : Nat) : (s.addLat n).scheme = s.scheme := rfl
@[simp] theorem State.addLat_rootPpn (s : State) (n : Nat) : (s.addLat n).rootPpn = s.rootPpn := rfl
@[simp] theorem State.addLat_priv (s : State) (n : Nat) : (s.addLat n).priv = s.priv := rfl
@[simp] theorem State.addLat_status (s : State) (n : Nat) : (s.addLat n).status = s.status := rfl
@[simp] theorem State.addLat_lat (s : State) (n : Nat) : (s.addLat n).lat = s.lat + BitVec.ofNat 64 n := rfl
@[simp] theorem State.addLat_tlb (s : State) (n : Nat) : (s.addLat n).tlb = s.tlb := rfl
@[simp] theorem State.addLat_l1 (s : State) (n : Nat) : (s.addLat n).l1 = s.l1 := rfl
@[simp] theorem State.addLat_l2 (s : State) (n : Nat) : (s.addLat n).l2 = s.l2 := rfl
@[simp] theorem State.addLat_l1Hit (s : State) (n : Nat) : (s.addLat n).l1Hit = s.l1Hit := rfl
@[simp] theorem State.addLat_l1Miss (s : State) (n : Nat) : (s.addLat n).l1Miss = s.l1Miss := rfl
@[simp] theorem State.addLat_l2Hit (s : State) (n : Nat) : (s.addLat n).l2Hit = s.l2Hit := rfl
@[simp] theorem State.addLat_l2Miss (s : State) (n : Nat) : (s.addLat n).l2Miss = s.l2Miss := rfl
@[simp] theorem State.addLat_bs (s : State) (n : Nat) : (s.addLat n).bs = s.bs := rfl
@[simp] theorem State.addLat_trace (s : State) (n : Nat) : (s.addLat n).trace = s.trace := rfl
@[simp] theorem State.addLat_inputs (s : State) (n : Nat) : (s.addLat n).inputs = s.inputs := rfl
@[simp] theorem State.addLat_now (s : State) (n : Nat) : (s.addLat n).now = s.now := rfl
@[simp] theorem State.addLat_draws (s : State) (n : Nat) : (s.addLat n).draws = s.draws := rfl
@[simp] theorem State.addLat_drawCount (s : State) (n : Nat) : (s.addLat n).drawCount = s.drawCount := rfl
@[simp] theorem State.addLat_response (s : State) (n : Nat) : (s.addLat n).response = s.response := rfl

/-! `State.bumpL1Hit` -/

@[simp] theorem State.bumpL1Hit_cfg (s : State) : (s.bumpL1Hit).cfg = s.cfg := rfl
@[simp] theorem State.bumpL1Hit_xlen (s : State) : (s.bumpL1Hit).xlen = s.xlen := rfl
@[simp] theorem State.bumpL1Hit_scheme (s : State) : (s.bumpL1Hit).scheme = s.scheme := rfl
@[simp] theorem State.bumpL1Hit_rootPpn (s : State) : (s.bumpL1Hit).rootPpn = s.rootPpn := rfl
@[simp] theorem State.bumpL1Hit_priv (s : State) : (s.bumpL1Hit).priv = s.priv := rfl
@[simp] theorem State.bumpL1Hit_status (s : State) : (s.bumpL1Hit).status = s.status := rfl
@[simp] theorem State.bumpL1Hit_lat (s : State) : (s.bumpL1Hit).lat = s.lat := rfl
@[simp] theorem State.bumpL1Hit_tlb (s : State) : (s.bumpL1Hit).tlb = s.tlb := rfl
@[simp] theorem State.bumpL1Hit_l1 (s : State) : (s.bumpL1Hit).l1 = s.l1 := rfl
@[simp] theorem State.bumpL1Hit_l2 (s : State) : (s.bumpL1Hit).l2 = s.l2 := rfl
@[simp] theorem State.bumpL1Hit_l1Hit (s : State) : (s.bumpL1Hit).l1Hit = s.l1Hit + 1 := rfl
@[simp] theorem State.bumpL1Hit_l1Miss (s : State) : (s.bumpL1Hit).l1Miss = s.l1Miss := rfl
@[simp] theorem State.bumpL1Hit_l2Hit (s : State) : (s.bumpL1Hit).l2Hit = s.l2Hit := rfl
@[simp] theorem State.bumpL1Hit_l2Miss (s : State) : (s.bumpL1Hit).l2Miss = s.l2Miss := rfl
@[simp] theorem State.bumpL1Hit_bs (s : State) : (s.bumpL1Hit).bs = s.bs := rfl
@[simp] theorem State.bumpL1Hit_trace (s : State) : (s.bumpL1Hit).trace = s.trace := rfl
@[simp] theorem State.bumpL1Hit_inputs (s : State) : (s.bumpL1Hit).inputs = s.inputs := rfl
@[simp] theorem State.bumpL1Hit_now (s : State) : (s.bumpL1Hit).now = s.now := rfl
@[simp] theorem State.bumpL1Hit_draws (s : State) : (s.bumpL1Hit).draws = s.draws := rfl
@[simp] theorem State.bumpL1Hit_drawCount (s : State) : (s.bumpL1Hit).drawCount = s.drawCount := rfl
@[simp] theorem State.bumpL1Hit_response (s : State) : (s.bumpL1Hit).response = s.response := rfl

/-! `State.bumpL1Miss` -/

@[simp] theorem State.bumpL1Miss_cfg (s : State) : (s.bumpL1Miss).cfg = s.cfg := rfl
@[simp] theorem State.bumpL1Miss_xlen (s : State) : (s.bumpL1Miss).xlen = s.xlen := rfl
@[simp] theorem State.bumpL1Miss_scheme (s : State) : (s.bumpL1Miss).scheme = s.scheme := rfl
@[simp] theorem State.bumpL1Miss_rootPpn (s : State) : (s.bumpL1Miss).rootPpn = s.rootPpn := rfl
@[simp] theorem State.bumpL1Miss_priv (s : State) : (s.bumpL1Miss).priv = s.priv := rfl
@[simp] theorem State.bumpL1Miss_status (s : State) : (s.bumpL1Miss).status = s.status := rfl
@[simp] theorem State.bumpL1Miss_lat (s : State) : (s.bumpL1Miss).lat = s.lat := rfl
@[simp] theorem State.bumpL1Miss_tlb (s : State) : (s.bumpL1Miss).tlb = s.tlb := rfl
@[simp] theorem State.bumpL1Miss_l1 (s : State) : (s.bumpL1Miss).l1 = s.l1 := rfl
@[simp] theorem State.bumpL1Miss_l2 (s : State) : (s.bumpL1Miss).l2 = s.l2 := rfl
@[simp] theorem State.bumpL1Miss_l1Hit (s : State) : (s.bumpL1Miss).l1Hit = s.l1Hit := rfl
@[simp] theorem State.bumpL1Miss_l1Miss (s : State) : (s.bumpL1Miss).l1Miss = s.l1Miss + 1 := rfl
@[simp] theorem State.bumpL1Miss_l2Hit (s : State) : (s.bumpL1Miss).l2Hit = s.l2Hit := rfl
@[simp] theorem State.bumpL1Miss_l2Miss (s : State) : (s.bumpL1Miss).l2Miss = s.l2Miss := rfl
@[simp] theorem State.bumpL1Miss_bs (s : State) : (s.bumpL1Miss).bs = s.bs := rfl
@[simp] theorem State.bumpL1Miss_trace (s : State) : (s.bumpL1Miss).trace = s.trace := rfl
@[simp] theorem State.bumpL1Miss_inputs (s : State) : (s.bumpL1Miss).inputs = s.inputs := rfl
@[simp] theorem State.bumpL1Miss_now (s : State) : (s.bumpL1Miss).now = s.now := rfl
@[simp] theorem State.bumpL1Miss_draws (s : State) : (s.bumpL1Miss).draws = s.draws := rfl
@[simp] theorem State.bumpL1Miss_drawCount (s : State) : (s.bumpL1Miss).drawCount = s.drawCount := rfl
@[simp] theorem State.bumpL1Miss_response (s : State) : (s.bumpL1Miss).response = s.response := rfl

/-! `State.bumpL2Hit` -/

@[simp] theorem State.bumpL2Hit_cfg (s : State) : (s.bumpL2Hit).cfg = s.cfg := rfl
@[simp] theorem State.bumpL2Hit_xlen (s : State) : (s.bumpL2Hit).xlen = s.xlen := rfl
@[simp] theorem State.bumpL2Hit_scheme (s : State) : (s.bumpL2Hit).scheme = s.scheme := rfl
@[simp] theorem State.bumpL2Hit_rootPpn (s : State) : (s.bumpL2Hit).rootPpn = s.rootPpn := rfl
@[simp] theorem State.bumpL2Hit_priv (s : State) : (s.bumpL2Hit).priv = s.priv := rfl
@[simp] theorem State.bumpL2Hit_status (s : State) : (s.bumpL2Hit).status = s.status := rfl
@[simp] theorem State.bumpL2Hit_lat (s : State) : (s.bumpL2Hit).lat = s.lat := rfl
@[simp] theorem State.bumpL2Hit_tlb (s : State) : (s.bumpL2Hit).tlb = s.tlb := rfl
@[simp] theorem State.bumpL2Hit_l1 (s : State) : (s.bumpL2Hit).l1 = s.l1 := rfl
@[simp] theorem State.bumpL2Hit_l2 (s : State) : (s.bumpL2Hit).l2 = s.l2 := rfl
@[simp] theorem State.bumpL2Hit_l1Hit (s : State) : (s.bumpL2Hit).l1Hit = s.l1Hit := rfl
@[simp] theorem State.bumpL2Hit_l1Miss (s : State) : (s.bumpL2Hit).l1Miss = s.l1Miss := rfl
@[simp] theorem State.bumpL2Hit_l2Hit (s : State) : (s.bumpL2Hit).l2Hit = s.l2Hit + 1 := rfl
@[simp] theorem State.bumpL2Hit_l2Miss (s : State) : (s.bumpL2Hit).l2Miss = s.l2Miss := rfl
@[simp] theorem State.bumpL2Hit_bs (s : State) : (s.bumpL2Hit).bs = s.bs := rfl
@[simp] theorem State.bumpL2Hit_trace (s : State) : (s.bumpL2Hit).trace = s.trace := rfl
@[simp] theorem State.bumpL2Hit_inputs (s : State) : (s.bumpL2Hit).inputs = s.inputs := rfl
@[simp] theorem State.bumpL2Hit_now (s : State) : (s.bumpL2Hit).now = s.now := rfl
@[simp] theorem State.bumpL2Hit_draws (s : State) : (s.bumpL2Hit).draws = s.draws := rfl
@[simp] theorem State.bumpL2Hit_drawCount (s : State) : (s.bumpL2Hit).drawCount = s.drawCount := rfl
@[simp] theorem State.bumpL2Hit_response (s : State) : (s.bumpL2Hit).response = s.response := rfl

/-! `State.bumpL2Miss` -/

@[simp] theorem State.bumpL2Miss_cfg (s : State) : (s.bumpL2Miss).cfg = s.cfg := rfl
@[simp] theorem State.bumpL2Miss_xlen (s : State) : (s.bumpL2Miss).xlen = s.xlen := rfl
@[simp] theorem State.bumpL2Miss_scheme (s : State) : (s.bumpL2Miss).scheme = s.scheme := rfl
@[simp] theorem State.bumpL2Miss_rootPpn (s : State) : (s.bumpL2Miss).rootPpn = s.rootPpn := rfl
@[simp] theorem State.bumpL2Miss_priv (s : State) : (s.bumpL2Miss).priv = s.priv := rfl
@[simp] theorem State.bumpL2Miss_status (s : State) : (s.bumpL2Miss).status = s.status := rfl
@[simp] theorem State.bumpL2Miss_lat (s : State) : (s.bumpL2Miss).lat = s.lat := rfl
@[simp] theorem State.bumpL2Miss_tlb (s : State) : (s.bumpL2Miss).tlb = s.tlb := rfl
@[simp] theorem State.bumpL2Miss_l1 (s : State) : (s.bumpL2Miss).l1 = s.l1 := rfl
@[simp] theorem State.bumpL2Miss_l2 (s : State) : (s.bumpL2Miss).l2 = s.l2 := rfl
@[simp] theorem State.bumpL2Miss_l1Hit (s : State) : (s.bumpL2Miss).l1Hit = s.l1Hit := rfl
@[simp] theorem State.bumpL2Miss_l1Miss (s : State) : (s.bumpL2Miss).l1Miss = s.l1Miss := rfl
@[simp] theorem State.bumpL2Miss_l2Hit (s : State) : (s.bumpL2Miss).l2Hit = s.l2Hit := rfl
@[simp] theorem State.bumpL2Miss_l2Miss (s : State) : (s.bumpL2Miss).l2Miss = s.l2Miss + 1 := rfl
@[simp] theorem State.bumpL2Miss_bs (s : State) : (s.bumpL2Miss).bs = s.bs := rfl
@[simp] theorem State.bumpL2Miss_trace (s : State) : (s.bumpL2Miss).trace = s.trace := rfl
@[simp] theorem State.bumpL2Miss_inputs (s : State) : (s.bumpL2Miss).inputs = s.inputs := rfl
@[simp] theorem State.bumpL2Miss_now (s : State) : (s.bumpL2Miss).now = s.now := rfl
@[simp] theorem State.bumpL2Miss_draws (s : State) : (s.bumpL2Miss).draws = s.draws := rfl
@[simp] theorem State.bumpL2Miss_drawCount (s : State) : (s.bumpL2Miss).drawCount = s.drawCount := rfl
@[simp] theorem State.bumpL2Miss_response (s : State) : (s.bumpL2Miss).response = s.response := rfl

/-! `State.setPriv` -/

@[simp] theorem State.setPriv_cfg (s : State) (p : Priv) : (s.setPriv p).cfg = s.cfg := rfl
@[simp] theorem State.setPriv_xlen (s : State) (p : Priv) : (s.setPriv p).xlen = s.xlen := rfl
@[simp] theorem State.setPriv_scheme (s : State) (p : Priv) : (s.setPriv p).scheme = s.scheme := rfl
@[simp] theorem State.setPriv_rootPpn (s : State) (p : Priv) : (s.setPriv p).rootPpn = s.rootPpn := rfl
@[simp] theorem State.setPriv_priv (s : State) (p : Priv) : (s.setPriv p).priv = p := rfl
@[simp] theorem State.setPriv_status (s : State) (p : Priv) : (s.setPriv p).status = s.status := rfl
@[simp] theorem State.setPriv_lat (s : State) (p : Priv) : (s.setPriv p).lat = s.lat := rfl
@[simp] theorem State.setPriv_tlb (s : State) (p : Priv) : (s.setPriv p).tlb = s.tlb := rfl
@[simp] theorem State.setPriv_l1 (s : State) (p : Priv) : (s.setPriv p).l1 = s.l1 := rfl
@[simp] theorem State.setPriv_l2 (s : State) (p : Priv) : (s.setPriv p).l2 = s.l2 := rfl
@[simp] theorem State.setPriv_l1Hit (s : State) (p : Priv) : (s.setPriv p).l1Hit = s.l1Hit := rfl
@[simp] theorem State.setPriv_l1Miss (s : State) (p : Priv) : (s.setPriv p).l1Miss = s.l1Miss := rfl
@[simp] theorem State.setPriv_l2Hit (s : State) (p : Priv) : (s.setPriv p).l2Hit = s.l2Hit := rfl
@[simp] theorem State.setPriv_l2Miss (s : State) (p : Priv) : (s.setPriv p).l2Miss = s.l2Miss := rfl
@[simp] theorem State.setPriv_bs (s : State) (p : Priv) : (s.setPriv p).bs = s.bs := rfl
@[simp] theorem State.setPriv_trace (s : State) (p : Priv) : (s.setPriv p).trace = s.trace := rfl
@[simp] theorem State.setPriv_inputs (s : State) (p : Priv) : (s.setPriv p).inputs = s.inputs := rfl
@[simp] theorem State.setPriv_now (s : State) (p : Priv) : (s.setPriv p).now = s.now := rfl
@[simp] theorem State.setPriv_draws (s : State) (p : Priv) : (s.setPriv p).draws = s.draws := rfl
@[simp] theorem State.setPriv_drawCount (s : State) (p : Priv) : (s.setPriv p).drawCount = s.drawCount := rfl
@[simp] theorem State.setPriv_response (s : State) (p : Priv) : (s.setPriv p).response = s.response := rfl

/-! `State.setBs` -/

@[simp] theorem State.setBs_cfg (s : State) (m : List Host.Cell) : (s.setBs m).cfg = s.cfg := rfl
@[simp] theorem State.setBs_xlen (s : State) (m : List Host.Cell) : (s.setBs m).xlen = s.xlen := rfl
@[simp] theorem State.setBs_scheme (s : State) (m : List Host.Cell) : (s.setBs m).scheme = s.scheme := rfl
@[simp] theorem State.setBs_rootPpn (s : State) (m : List Host.Cell) : (s.setBs m).rootPpn = s.rootPpn := rfl
@[simp] theorem State.setBs_priv (s : State) (m : List Host.Cell) : (s.setBs m).priv = s.priv := rfl
@[simp] theorem State.setBs_status (s : State) (m : List Host.Cell) : (s.setBs m).status = s.status := rfl
@[simp] theorem State.setBs_lat (s : State) (m : List Host.Cell) : (s.setBs m).lat = s.lat := rfl
@[simp] theorem State.setBs_tlb (s : State) (m : List Host.Cell) : (s.setBs m).tlb = s.tlb := rfl
@[simp] theorem State.setBs_l1 (s : State) (m : List Host.Cell) : (s.setBs m).l1 = s.l1 := rfl
@[simp] theorem State.setBs_l2 (s : State) (m : List Host.Cell) : (s.setBs m).l2 = s.l2 := rfl
@[simp] theorem State.setBs_l1Hit (s : State) (m : List Host.Cell) : (s.setBs m).l1Hit = s.l1Hit := rfl
@[simp] theorem State.setBs_l1Miss (s : State) (m : List Host.Cell) : (s.setBs m).l1Miss = s.l1Miss := rfl
@[simp] theorem State.setBs_l2Hit (s : State) (m : List Host.Cell) : (s.setBs m).l2Hit = s.l2Hit := rfl
@[simp] theorem State.setBs_l2Miss (s : State) (m : List Host.Cell) : (s.setBs m).l2Miss = s.l2Miss := rfl
@[simp] theorem State.setBs_bs (s : State) (m : List Host.Cell) : (s.setBs m).bs = m := rfl
@[simp] theorem State.setBs_trace (s : State) (m : List Host.Cell) : (s.setBs m).trace = s.trace := rfl
@[simp] theorem State.setBs_inputs (s : State) (m : List Host.Cell) : (s.setBs m).inputs = s.inputs := rfl
@[simp] theorem State.setBs_now (s : State) (m : List Host.Cell) : (s.setBs m).now = s.now := rfl
@[simp] theorem State.setBs_draws (s : State) (m : List Host.Cell) : (s.setBs m).draws = s.draws := rfl
@[simp] theorem State.setBs_drawCount (s : State) (m : List Host.Cell) : (s.setBs m).drawCount = s.drawCount := rfl
@[simp] theorem State.setBs_response (s : State) (m : List Host.Cell) : (s.setBs m).response = s.response := rfl

/-! `State.appendTrace` -/

@[simp] theorem State.appendTrace_cfg (s : State) (a : Addr) (k : TraceKind) : (s.appendTrace a k).cfg = s.cfg := rfl
@[simp] theorem State.appendTrace_xlen (s : State) (a : Addr) (k : TraceKind) : (s.appendTrace a k).xlen = s.xlen := rfl
@[simp] theorem State.appendTrace_scheme (s : State) (a : Addr) (k : TraceKind) : (s.appendTrace a k).scheme = s.scheme := rfl
@[simp] theorem State.appendTrace_rootPpn (s : State) (a : Addr) (k : TraceKind) : (s.appendTrace a k).rootPpn = s.rootPpn := rfl
@[simp] theorem State.appendTrace_priv (s : State) (a : Addr) (k : TraceKind) : (s.appendTrace a k).priv = s.priv := rfl
@[simp] theorem State.appendTrace_status (s : State) (a : Addr) (k : TraceKind) : (s.appendTrace a k).status = s.status := rfl
@[simp] theorem State.appendTrace_lat (s : State) (a : Addr) (k : TraceKind) : (s.appendTrace a k).lat = s.lat := rfl
@[simp] theorem State.appendTrace_tlb (s : State) (a : Addr) (k : TraceKind) : (s.appendTrace a k).tlb = s.tlb := rfl
@[simp] theorem State.appendTrace_l1 (s : State) (a : Addr) (k : TraceKind) : (s.appendTrace a k).l1 = s.l1 := rfl
@[simp] theorem State.appendTrace_l2 (s : State) (a : Addr) (k : TraceKind) : (s.appendTrace a k).l2 = s.l2 := rfl
@[simp] theorem State.appendTrace_l1Hit (s : State) (a : Addr) (k : TraceKind) : (s.appendTrace a k).l1Hit = s.l1Hit := rfl
@[simp] theorem State.appendTrace_l1Miss (s : State) (a : Addr) (k : TraceKind) : (s.appendTrace a k).l1Miss = s.l1Miss := rfl
@[simp] theorem State.appendTrace_l2Hit (s : State) (a : Addr) (k : TraceKind) : (s.appendTrace a k).l2Hit = s.l2Hit := rfl
@[simp] theorem State.appendTrace_l2Miss (s : State) (a : Addr) (k : TraceKind) : (s.appendTrace a k).l2Miss = s.l2Miss := rfl
@[simp] theorem State.appendTrace_bs (s : State) (a : Addr) (k : TraceKind) : (s.appendTrace a k).bs = s.bs := rfl
@[simp] theorem State.appendTrace_trace (s : State) (a : Addr) (k : TraceKind) : (s.appendTrace a k).trace = s.trace ++ [⟨a, k, s.now⟩] := rfl
@[simp] theorem State.appendTrace_inputs (s : State) (a : Addr) (k : TraceKind) : (s.appendTrace a k).inputs = s.inputs := rfl
@[simp] theorem State.appendTrace_now (s : State) (a : Addr) (k : TraceKind) : (s.appendTrace a k).now = s.now := rfl
@[simp] theorem State.appendTrace_draws (s : State) (a : Addr) (k : TraceKind) : (s.appendTrace a k).draws = s.draws := rfl
@[simp] theorem State.appendTrace_drawCount (s : State) (a : Addr) (k : TraceKind) : (s.appendTrace a k).drawCount = s.drawCount := rfl
@[simp] theorem State.appendTrace_response (s : State) (a : Addr) (k : TraceKind) : (s.appendTrace a k).response = s.response := rfl

/-! `State.respond` -/

@[simp] theorem State.respond_cfg (s : State) (r : Response) : (s.respond r).cfg = s.cfg := rfl
@[simp] theorem State.respond_xlen (s : State) (r : Response) : (s.respond r).xlen = s.xlen := rfl
@[simp] theorem State.respond_scheme (s : State) (r : Response) : (s.respond r).scheme = s.scheme := rfl
@[simp] theorem State.respond_rootPpn (s : State) (r : Response) : (s.respond r).rootPpn = s.rootPpn := rfl
@[simp] theorem State.respond_priv (s : State) (r : Response) : (s.respond r).priv = s.priv := rfl
@[simp] theorem State.respond_status (s : State) (r : Response) : (s.respond r).status = s.status := rfl
@[simp] theorem State.respond_lat (s : State) (r : Response) : (s.respond r).lat = s.lat := rfl
@[simp] theorem State.respond_tlb (s : State) (r : Response) : (s.respond r).tlb = s.tlb := rfl
@[simp] theorem State.respond_l1 (s : State) (r : Response) : (s.respond r).l1 = s.l1 := rfl
@[simp] theorem State.respond_l2 (s : State) (r : Response) : (s.respond r).l2 = s.l2 := rfl
@[simp] theorem State.respond_l1Hit (s : State) (r : Response) : (s.respond r).l1Hit = s.l1Hit := rfl
@[simp] theorem State.respond_l1Miss (s : State) (r : Response) : (s.respond r).l1Miss = s.l1Miss := rfl
@[simp] theorem State.respond_l2Hit (s : State) (r : Response) : (s.respond r).l2Hit = s.l2Hit := rfl
@[simp] theorem State.respond_l2Miss (s : State) (r : Response) : (s.respond r).l2Miss = s.l2Miss := rfl
@[simp] theorem State.respond_bs (s : State) (r : Response) : (s.respond r).bs = s.bs := rfl
@[simp] theorem State.respond_trace (s : State) (r : Response) : (s.respond r).trace = s.trace := rfl
@[simp] theorem State.respond_inputs (s : State) (r : Response) : (s.respond r).inputs = s.inputs := rfl
@[simp] theorem State.respond_now (s : State) (r : Response) : (s.respond r).now = s.now := rfl
@[simp] theorem State.respond_draws (s : State) (r : Response) : (s.respond r).draws = s.draws := rfl
@[simp] theorem State.respond_drawCount (s : State) (r : Response) : (s.respond r).drawCount = s.drawCount := rfl
@[simp] theorem State.respond_response (s : State) (r : Response) : (s.respond r).response = some r := rfl

/-! `State.setLine1` -/

@[simp] theorem State.setLine1_cfg (s : State) (i : Fin 64) (w : Fin 8) (l : L1Line) : (s.setLine1 i w l).cfg = s.cfg := rfl
@[simp] theorem State.setLine1_xlen (s : State) (i : Fin 64) (w : Fin 8) (l : L1Line) : (s.setLine1 i w l).xlen = s.xlen := rfl
@[simp] theorem State.setLine1_scheme (s : State) (i : Fin 64) (w : Fin 8) (l : L1Line) : (s.setLine1 i w l).scheme = s.scheme := rfl
@[simp] theorem State.setLine1_rootPpn (s : State) (i : Fin 64) (w : Fin 8) (l : L1Line) : (s.setLine1 i w l).rootPpn = s.rootPpn := rfl
@[simp] theorem State.setLine1_priv (s : State) (i : Fin 64) (w : Fin 8) (l : L1Line) : (s.setLine1 i w l).priv = s.priv := rfl
@[simp] theorem State.setLine1_status (s : State) (i : Fin 64) (w : Fin 8) (l : L1Line) : (s.setLine1 i w l).status = s.status := rfl
@[simp] theorem State.setLine1_lat (s : State) (i : Fin 64) (w : Fin 8) (l : L1Line) : (s.setLine1 i w l).lat = s.lat := rfl
@[simp] theorem State.setLine1_tlb (s : State) (i : Fin 64) (w : Fin 8) (l : L1Line) : (s.setLine1 i w l).tlb = s.tlb := rfl
@[simp] theorem State.setLine1_l2 (s : State) (i : Fin 64) (w : Fin 8) (l : L1Line) : (s.setLine1 i w l).l2 = s.l2 := rfl
@[simp] theorem State.setLine1_l1Hit (s : State) (i : Fin 64) (w : Fin 8) (l : L1Line) : (s.setLine1 i w l).l1Hit = s.l1Hit := rfl
@[simp] theorem State.setLine1_l1Miss (s : State) (i : Fin 64) (w : Fin 8) (l : L1Line) : (s.setLine1 i w l).l1Miss = s.l1Miss := rfl
@[simp] theorem State.setLine1_l2Hit (s : State) (i : Fin 64) (w : Fin 8) (l : L1Line) : (s.setLine1 i w l).l2Hit = s.l2Hit := rfl
@[simp] theorem State.setLine1_l2Miss (s : State) (i : Fin 64) (w : Fin 8) (l : L1Line) : (s.setLine1 i w l).l2Miss = s.l2Miss := rfl
@[simp] theorem State.setLine1_bs (s : State) (i : Fin 64) (w : Fin 8) (l : L1Line) : (s.setLine1 i w l).bs = s.bs := rfl
@[simp] theorem State.setLine1_trace (s : State) (i : Fin 64) (w : Fin 8) (l : L1Line) : (s.setLine1 i w l).trace = s.trace := rfl
@[simp] theorem State.setLine1_inputs (s : State) (i : Fin 64) (w : Fin 8) (l : L1Line) : (s.setLine1 i w l).inputs = s.inputs := rfl
@[simp] theorem State.setLine1_now (s : State) (i : Fin 64) (w : Fin 8) (l : L1Line) : (s.setLine1 i w l).now = s.now := rfl
@[simp] theorem State.setLine1_draws (s : State) (i : Fin 64) (w : Fin 8) (l : L1Line) : (s.setLine1 i w l).draws = s.draws := rfl
@[simp] theorem State.setLine1_drawCount (s : State) (i : Fin 64) (w : Fin 8) (l : L1Line) : (s.setLine1 i w l).drawCount = s.drawCount := rfl
@[simp] theorem State.setLine1_response (s : State) (i : Fin 64) (w : Fin 8) (l : L1Line) : (s.setLine1 i w l).response = s.response := rfl

/-! `State.setLine2` -/

@[simp] theorem State.setLine2_cfg (s : State) (i : Fin 256) (w : Fin 8) (l : L2Line) : (s.setLine2 i w l).cfg = s.cfg := rfl
@[simp] theorem State.setLine2_xlen (s : State) (i : Fin 256) (w : Fin 8) (l : L2Line) : (s.setLine2 i w l).xlen = s.xlen := rfl
@[simp] theorem State.setLine2_scheme (s : State) (i : Fin 256) (w : Fin 8) (l : L2Line) : (s.setLine2 i w l).scheme = s.scheme := rfl
@[simp] theorem State.setLine2_rootPpn (s : State) (i : Fin 256) (w : Fin 8) (l : L2Line) : (s.setLine2 i w l).rootPpn = s.rootPpn := rfl
@[simp] theorem State.setLine2_priv (s : State) (i : Fin 256) (w : Fin 8) (l : L2Line) : (s.setLine2 i w l).priv = s.priv := rfl
@[simp] theorem State.setLine2_status (s : State) (i : Fin 256) (w : Fin 8) (l : L2Line) : (s.setLine2 i w l).status = s.status := rfl
@[simp] theorem State.setLine2_lat (s : State) (i : Fin 256) (w : Fin 8) (l : L2Line) : (s.setLine2 i w l).lat = s.lat := rfl
@[simp] theorem State.setLine2_tlb (s : State) (i : Fin 256) (w : Fin 8) (l : L2Line) : (s.setLine2 i w l).tlb = s.tlb := rfl
@[simp] theorem State.setLine2_l1 (s : State) (i : Fin 256) (w : Fin 8) (l : L2Line) : (s.setLine2 i w l).l1 = s.l1 := rfl
@[simp] theorem State.setLine2_l1Hit (s : State) (i : Fin 256) (w : Fin 8) (l : L2Line) : (s.setLine2 i w l).l1Hit = s.l1Hit := rfl
@[simp] theorem State.setLine2_l1Miss (s : State) (i : Fin 256) (w : Fin 8) (l : L2Line) : (s.setLine2 i w l).l1Miss = s.l1Miss := rfl
@[simp] theorem State.setLine2_l2Hit (s : State) (i : Fin 256) (w : Fin 8) (l : L2Line) : (s.setLine2 i w l).l2Hit = s.l2Hit := rfl
@[simp] theorem State.setLine2_l2Miss (s : State) (i : Fin 256) (w : Fin 8) (l : L2Line) : (s.setLine2 i w l).l2Miss = s.l2Miss := rfl
@[simp] theorem State.setLine2_bs (s : State) (i : Fin 256) (w : Fin 8) (l : L2Line) : (s.setLine2 i w l).bs = s.bs := rfl
@[simp] theorem State.setLine2_trace (s : State) (i : Fin 256) (w : Fin 8) (l : L2Line) : (s.setLine2 i w l).trace = s.trace := rfl
@[simp] theorem State.setLine2_inputs (s : State) (i : Fin 256) (w : Fin 8) (l : L2Line) : (s.setLine2 i w l).inputs = s.inputs := rfl
@[simp] theorem State.setLine2_now (s : State) (i : Fin 256) (w : Fin 8) (l : L2Line) : (s.setLine2 i w l).now = s.now := rfl
@[simp] theorem State.setLine2_draws (s : State) (i : Fin 256) (w : Fin 8) (l : L2Line) : (s.setLine2 i w l).draws = s.draws := rfl
@[simp] theorem State.setLine2_drawCount (s : State) (i : Fin 256) (w : Fin 8) (l : L2Line) : (s.setLine2 i w l).drawCount = s.drawCount := rfl
@[simp] theorem State.setLine2_response (s : State) (i : Fin 256) (w : Fin 8) (l : L2Line) : (s.setLine2 i w l).response = s.response := rfl

/-! `State.setTlbEntry` -/

@[simp] theorem State.setTlbEntry_cfg (s : State) (i : Fin 64) (e : TlbEntry) : (s.setTlbEntry i e).cfg = s.cfg := rfl
@[simp] theorem State.setTlbEntry_xlen (s : State) (i : Fin 64) (e : TlbEntry) : (s.setTlbEntry i e).xlen = s.xlen := rfl
@[simp] theorem State.setTlbEntry_scheme (s : State) (i : Fin 64) (e : TlbEntry) : (s.setTlbEntry i e).scheme = s.scheme := rfl
@[simp] theorem State.setTlbEntry_rootPpn (s : State) (i : Fin 64) (e : TlbEntry) : (s.setTlbEntry i e).rootPpn = s.rootPpn := rfl
@[simp] theorem State.setTlbEntry_priv (s : State) (i : Fin 64) (e : TlbEntry) : (s.setTlbEntry i e).priv = s.priv := rfl
@[simp] theorem State.setTlbEntry_status (s : State) (i : Fin 64) (e : TlbEntry) : (s.setTlbEntry i e).status = s.status := rfl
@[simp] theorem State.setTlbEntry_lat (s : State) (i : Fin 64) (e : TlbEntry) : (s.setTlbEntry i e).lat = s.lat := rfl
@[simp] theorem State.setTlbEntry_l1 (s : State) (i : Fin 64) (e : TlbEntry) : (s.setTlbEntry i e).l1 = s.l1 := rfl
@[simp] theorem State.setTlbEntry_l2 (s : State) (i : Fin 64) (e : TlbEntry) : (s.setTlbEntry i e).l2 = s.l2 := rfl
@[simp] theorem State.setTlbEntry_l1Hit (s : State) (i : Fin 64) (e : TlbEntry) : (s.setTlbEntry i e).l1Hit = s.l1Hit := rfl
@[simp] theorem State.setTlbEntry_l1Miss (s : State) (i : Fin 64) (e : TlbEntry) : (s.setTlbEntry i e).l1Miss = s.l1Miss := rfl
@[simp] theorem State.setTlbEntry_l2Hit (s : State) (i : Fin 64) (e : TlbEntry) : (s.setTlbEntry i e).l2Hit = s.l2Hit := rfl
@[simp] theorem State.setTlbEntry_l2Miss (s : State) (i : Fin 64) (e : TlbEntry) : (s.setTlbEntry i e).l2Miss = s.l2Miss := rfl
@[simp] theorem State.setTlbEntry_bs (s : State) (i : Fin 64) (e : TlbEntry) : (s.setTlbEntry i e).bs = s.bs := rfl
@[simp] theorem State.setTlbEntry_trace (s : State) (i : Fin 64) (e : TlbEntry) : (s.setTlbEntry i e).trace = s.trace := rfl
@[simp] theorem State.setTlbEntry_inputs (s : State) (i : Fin 64) (e : TlbEntry) : (s.setTlbEntry i e).inputs = s.inputs := rfl
@[simp] theorem State.setTlbEntry_now (s : State) (i : Fin 64) (e : TlbEntry) : (s.setTlbEntry i e).now = s.now := rfl
@[simp] theorem State.setTlbEntry_draws (s : State) (i : Fin 64) (e : TlbEntry) : (s.setTlbEntry i e).draws = s.draws := rfl
@[simp] theorem State.setTlbEntry_drawCount (s : State) (i : Fin 64) (e : TlbEntry) : (s.setTlbEntry i e).drawCount = s.drawCount := rfl
@[simp] theorem State.setTlbEntry_response (s : State) (i : Fin 64) (e : TlbEntry) : (s.setTlbEntry i e).response = s.response := rfl

/-! `State.invalidate1` -/

@[simp] theorem State.invalidate1_cfg (s : State) (i : Fin 64) (w : Fin 8) : (s.invalidate1 i w).cfg = s.cfg := rfl
@[simp] theorem State.invalidate1_xlen (s : State) (i : Fin 64) (w : Fin 8) : (s.invalidate1 i w).xlen = s.xlen := rfl
@[simp] theorem State.invalidate1_scheme (s : State) (i : Fin 64) (w : Fin 8) : (s.invalidate1 i w).scheme = s.scheme := rfl
@[simp] theorem State.invalidate1_rootPpn (s : State) (i : Fin 64) (w : Fin 8) : (s.invalidate1 i w).rootPpn = s.rootPpn := rfl
@[simp] theorem State.invalidate1_priv (s : State) (i : Fin 64) (w : Fin 8) : (s.invalidate1 i w).priv = s.priv := rfl
@[simp] theorem State.invalidate1_status (s : State) (i : Fin 64) (w : Fin 8) : (s.invalidate1 i w).status = s.status := rfl
@[simp] theorem State.invalidate1_lat (s : State) (i : Fin 64) (w : Fin 8) : (s.invalidate1 i w).lat = s.lat := rfl
@[simp] theorem State.invalidate1_tlb (s : State) (i : Fin 64) (w : Fin 8) : (s.invalidate1 i w).tlb = s.tlb := rfl
@[simp] theorem State.invalidate1_l2 (s : State) (i : Fin 64) (w : Fin 8) : (s.invalidate1 i w).l2 = s.l2 := rfl
@[simp] theorem State.invalidate1_l1Hit (s : State) (i : Fin 64) (w : Fin 8) : (s.invalidate1 i w).l1Hit = s.l1Hit := rfl
@[simp] theorem State.invalidate1_l1Miss (s : State) (i : Fin 64) (w : Fin 8) : (s.invalidate1 i w).l1Miss = s.l1Miss := rfl
@[simp] theorem State.invalidate1_l2Hit (s : State) (i : Fin 64) (w : Fin 8) : (s.invalidate1 i w).l2Hit = s.l2Hit := rfl
@[simp] theorem State.invalidate1_l2Miss (s : State) (i : Fin 64) (w : Fin 8) : (s.invalidate1 i w).l2Miss = s.l2Miss := rfl
@[simp] theorem State.invalidate1_bs (s : State) (i : Fin 64) (w : Fin 8) : (s.invalidate1 i w).bs = s.bs := rfl
@[simp] theorem State.invalidate1_trace (s : State) (i : Fin 64) (w : Fin 8) : (s.invalidate1 i w).trace = s.trace := rfl
@[simp] theorem State.invalidate1_inputs (s : State) (i : Fin 64) (w : Fin 8) : (s.invalidate1 i w).inputs = s.inputs := rfl
@[simp] theorem State.invalidate1_now (s : State) (i : Fin 64) (w : Fin 8) : (s.invalidate1 i w).now = s.now := rfl
@[simp] theorem State.invalidate1_draws (s : State) (i : Fin 64) (w : Fin 8) : (s.invalidate1 i w).draws = s.draws := rfl
@[simp] theorem State.invalidate1_drawCount (s : State) (i : Fin 64) (w : Fin 8) : (s.invalidate1 i w).drawCount = s.drawCount := rfl
@[simp] theorem State.invalidate1_response (s : State) (i : Fin 64) (w : Fin 8) : (s.invalidate1 i w).response = s.response := rfl

/-! `State.invalidate2` -/

@[simp] theorem State.invalidate2_cfg (s : State) (i : Fin 256) (w : Fin 8) : (s.invalidate2 i w).cfg = s.cfg := rfl
@[simp] theorem State.invalidate2_xlen (s : State) (i : Fin 256) (w : Fin 8) : (s.invalidate2 i w).xlen = s.xlen := rfl
@[simp] theorem State.invalidate2_scheme (s : State) (i : Fin 256) (w : Fin 8) : (s.invalidate2 i w).scheme = s.scheme := rfl
@[simp] theorem State.invalidate2_rootPpn (s : State) (i : Fin 256) (w : Fin 8) : (s.invalidate2 i w).rootPpn = s.rootPpn := rfl
@[simp] theorem State.invalidate2_priv (s : State) (i : Fin 256) (w : Fin 8) : (s.invalidate2 i w).priv = s.priv := rfl
@[simp] theorem State.invalidate2_status (s : State) (i : Fin 256) (w : Fin 8) : (s.invalidate2 i w).status = s.status := rfl
@[simp] theorem State.invalidate2_lat (s : State) (i : Fin 256) (w : Fin 8) : (s.invalidate2 i w).lat = s.lat := rfl
@[simp] theorem State.invalidate2_tlb (s : State) (i : Fin 256) (w : Fin 8) : (s.invalidate2 i w).tlb = s.tlb := rfl
@[simp] theorem State.invalidate2_l1 (s : State) (i : Fin 256) (w : Fin 8) : (s.invalidate2 i w).l1 = s.l1 := rfl
@[simp] theorem State.invalidate2_l1Hit (s : State) (i : Fin 256) (w : Fin 8) : (s.invalidate2 i w).l1Hit = s.l1Hit := rfl
@[simp] theorem State.invalidate2_l1Miss (s : State) (i : Fin 256) (w : Fin 8) : (s.invalidate2 i w).l1Miss = s.l1Miss := rfl
@[simp] theorem State.invalidate2_l2Hit (s : State) (i : Fin 256) (w : Fin 8) : (s.invalidate2 i w).l2Hit = s.l2Hit := rfl
@[simp] theorem State.invalidate2_l2Miss (s : State) (i : Fin 256) (w : Fin 8) : (s.invalidate2 i w).l2Miss = s.l2Miss := rfl
@[simp] theorem State.invalidate2_bs (s : State) (i : Fin 256) (w : Fin 8) : (s.invalidate2 i w).bs = s.bs := rfl
@[simp] theorem State.invalidate2_trace (s : State) (i : Fin 256) (w : Fin 8) : (s.invalidate2 i w).trace = s.trace := rfl
@[simp] theorem State.invalidate2_inputs (s : State) (i : Fin 256) (w : Fin 8) : (s.invalidate2 i w).inputs = s.inputs := rfl
@[simp] theorem State.invalidate2_now (s : State) (i : Fin 256) (w : Fin 8) : (s.invalidate2 i w).now = s.now := rfl
@[simp] theorem State.invalidate2_draws (s : State) (i : Fin 256) (w : Fin 8) : (s.invalidate2 i w).draws = s.draws := rfl
@[simp] theorem State.invalidate2_drawCount (s : State) (i : Fin 256) (w : Fin 8) : (s.invalidate2 i w).drawCount = s.drawCount := rfl
@[simp] theorem State.invalidate2_response (s : State) (i : Fin 256) (w : Fin 8) : (s.invalidate2 i w).response = s.response := rfl

/-! `State.setIncl` -/

@[simp] theorem State.setIncl_cfg (s : State) (i : Fin 256) (w : Fin 8) (b : Bool) : (s.setIncl i w b).cfg = s.cfg := rfl
@[simp] theorem State.setIncl_xlen (s : State) (i : Fin 256) (w : Fin 8) (b : Bool) : (s.setIncl i w b).xlen = s.xlen := rfl
@[simp] theorem State.setIncl_scheme (s : State) (i : Fin 256) (w : Fin 8) (b : Bool) : (s.setIncl i w b).scheme = s.scheme := rfl
@[simp] theorem State.setIncl_rootPpn (s : State) (i : Fin 256) (w : Fin 8) (b : Bool) : (s.setIncl i w b).rootPpn = s.rootPpn := rfl
@[simp] theorem State.setIncl_priv (s : State) (i : Fin 256) (w : Fin 8) (b : Bool) : (s.setIncl i w b).priv = s.priv := rfl
@[simp] theorem State.setIncl_status (s : State) (i : Fin 256) (w : Fin 8) (b : Bool) : (s.setIncl i w b).status = s.status := rfl
@[simp] theorem State.setIncl_lat (s : State) (i : Fin 256) (w : Fin 8) (b : Bool) : (s.setIncl i w b).lat = s.lat := rfl
@[simp] theorem State.setIncl_tlb (s : State) (i : Fin 256) (w : Fin 8) (b : Bool) : (s.setIncl i w b).tlb = s.tlb := rfl
@[simp] theorem State.setIncl_l1 (s : State) (i : Fin 256) (w : Fin 8) (b : Bool) : (s.setIncl i w b).l1 = s.l1 := rfl
@[simp] theorem State.setIncl_l1Hit (s : State) (i : Fin 256) (w : Fin 8) (b : Bool) : (s.setIncl i w b).l1Hit = s.l1Hit := rfl
@[simp] theorem State.setIncl_l1Miss (s : State) (i : Fin 256) (w : Fin 8) (b : Bool) : (s.setIncl i w b).l1Miss = s.l1Miss := rfl
@[simp] theorem State.setIncl_l2Hit (s : State) (i : Fin 256) (w : Fin 8) (b : Bool) : (s.setIncl i w b).l2Hit = s.l2Hit := rfl
@[simp] theorem State.setIncl_l2Miss (s : State) (i : Fin 256) (w : Fin 8) (b : Bool) : (s.setIncl i w b).l2Miss = s.l2Miss := rfl
@[simp] theorem State.setIncl_bs (s : State) (i : Fin 256) (w : Fin 8) (b : Bool) : (s.setIncl i w b).bs = s.bs := rfl
@[simp] theorem State.setIncl_trace (s : State) (i : Fin 256) (w : Fin 8) (b : Bool) : (s.setIncl i w b).trace = s.trace := rfl
@[simp] theorem State.setIncl_inputs (s : State) (i : Fin 256) (w : Fin 8) (b : Bool) : (s.setIncl i w b).inputs = s.inputs := rfl
@[simp] theorem State.setIncl_now (s : State) (i : Fin 256) (w : Fin 8) (b : Bool) : (s.setIncl i w b).now = s.now := rfl
@[simp] theorem State.setIncl_draws (s : State) (i : Fin 256) (w : Fin 8) (b : Bool) : (s.setIncl i w b).draws = s.draws := rfl
@[simp] theorem State.setIncl_drawCount (s : State) (i : Fin 256) (w : Fin 8) (b : Bool) : (s.setIncl i w b).drawCount = s.drawCount := rfl
@[simp] theorem State.setIncl_response (s : State) (i : Fin 256) (w : Fin 8) (b : Bool) : (s.setIncl i w b).response = s.response := rfl

/-! `State.markTlb` -/

@[simp] theorem State.markTlb_cfg (s : State) (i : Fin 64) : (s.markTlb i).cfg = s.cfg := rfl
@[simp] theorem State.markTlb_xlen (s : State) (i : Fin 64) : (s.markTlb i).xlen = s.xlen := rfl
@[simp] theorem State.markTlb_scheme (s : State) (i : Fin 64) : (s.markTlb i).scheme = s.scheme := rfl
@[simp] theorem State.markTlb_rootPpn (s : State) (i : Fin 64) : (s.markTlb i).rootPpn = s.rootPpn := rfl
@[simp] theorem State.markTlb_priv (s : State) (i : Fin 64) : (s.markTlb i).priv = s.priv := rfl
@[simp] theorem State.markTlb_status (s : State) (i : Fin 64) : (s.markTlb i).status = s.status := rfl
@[simp] theorem State.markTlb_lat (s : State) (i : Fin 64) : (s.markTlb i).lat = s.lat := rfl
@[simp] theorem State.markTlb_l1 (s : State) (i : Fin 64) : (s.markTlb i).l1 = s.l1 := rfl
@[simp] theorem State.markTlb_l2 (s : State) (i : Fin 64) : (s.markTlb i).l2 = s.l2 := rfl
@[simp] theorem State.markTlb_l1Hit (s : State) (i : Fin 64) : (s.markTlb i).l1Hit = s.l1Hit := rfl
@[simp] theorem State.markTlb_l1Miss (s : State) (i : Fin 64) : (s.markTlb i).l1Miss = s.l1Miss := rfl
@[simp] theorem State.markTlb_l2Hit (s : State) (i : Fin 64) : (s.markTlb i).l2Hit = s.l2Hit := rfl
@[simp] theorem State.markTlb_l2Miss (s : State) (i : Fin 64) : (s.markTlb i).l2Miss = s.l2Miss := rfl
@[simp] theorem State.markTlb_bs (s : State) (i : Fin 64) : (s.markTlb i).bs = s.bs := rfl
@[simp] theorem State.markTlb_trace (s : State) (i : Fin 64) : (s.markTlb i).trace = s.trace := rfl
@[simp] theorem State.markTlb_inputs (s : State) (i : Fin 64) : (s.markTlb i).inputs = s.inputs := rfl
@[simp] theorem State.markTlb_now (s : State) (i : Fin 64) : (s.markTlb i).now = s.now := rfl
@[simp] theorem State.markTlb_draws (s : State) (i : Fin 64) : (s.markTlb i).draws = s.draws := rfl
@[simp] theorem State.markTlb_drawCount (s : State) (i : Fin 64) : (s.markTlb i).drawCount = s.drawCount := rfl
@[simp] theorem State.markTlb_response (s : State) (i : Fin 64) : (s.markTlb i).response = s.response := rfl

/-! `State.clearMarkers` -/

@[simp] theorem State.clearMarkers_cfg (s : State) : (s.clearMarkers).cfg = s.cfg := rfl
@[simp] theorem State.clearMarkers_xlen (s : State) : (s.clearMarkers).xlen = s.xlen := rfl
@[simp] theorem State.clearMarkers_scheme (s : State) : (s.clearMarkers).scheme = s.scheme := rfl
@[simp] theorem State.clearMarkers_rootPpn (s : State) : (s.clearMarkers).rootPpn = s.rootPpn := rfl
@[simp] theorem State.clearMarkers_priv (s : State) : (s.clearMarkers).priv = s.priv := rfl
@[simp] theorem State.clearMarkers_status (s : State) : (s.clearMarkers).status = s.status := rfl
@[simp] theorem State.clearMarkers_lat (s : State) : (s.clearMarkers).lat = s.lat := rfl
@[simp] theorem State.clearMarkers_l1 (s : State) : (s.clearMarkers).l1 = s.l1 := rfl
@[simp] theorem State.clearMarkers_l2 (s : State) : (s.clearMarkers).l2 = s.l2 := rfl
@[simp] theorem State.clearMarkers_l1Hit (s : State) : (s.clearMarkers).l1Hit = s.l1Hit := rfl
@[simp] theorem State.clearMarkers_l1Miss (s : State) : (s.clearMarkers).l1Miss = s.l1Miss := rfl
@[simp] theorem State.clearMarkers_l2Hit (s : State) : (s.clearMarkers).l2Hit = s.l2Hit := rfl
@[simp] theorem State.clearMarkers_l2Miss (s : State) : (s.clearMarkers).l2Miss = s.l2Miss := rfl
@[simp] theorem State.clearMarkers_bs (s : State) : (s.clearMarkers).bs = s.bs := rfl
@[simp] theorem State.clearMarkers_trace (s : State) : (s.clearMarkers).trace = s.trace := rfl
@[simp] theorem State.clearMarkers_inputs (s : State) : (s.clearMarkers).inputs = s.inputs := rfl
@[simp] theorem State.clearMarkers_now (s : State) : (s.clearMarkers).now = s.now := rfl
@[simp] theorem State.clearMarkers_draws (s : State) : (s.clearMarkers).draws = s.draws := rfl
@[simp] theorem State.clearMarkers_drawCount (s : State) : (s.clearMarkers).drawCount = s.drawCount := rfl
@[simp] theorem State.clearMarkers_response (s : State) : (s.clearMarkers).response = s.response := rfl

/-! `State.generationalReset` -/

@[simp] theorem State.generationalReset_cfg (s : State) : (s.generationalReset).cfg = s.cfg := by unfold State.generationalReset; split <;> rfl
@[simp] theorem State.generationalReset_xlen (s : State) : (s.generationalReset).xlen = s.xlen := by unfold State.generationalReset; split <;> rfl
@[simp] theorem State.generationalReset_scheme (s : State) : (s.generationalReset).scheme = s.scheme := by unfold State.generationalReset; split <;> rfl
@[simp] theorem State.generationalReset_rootPpn (s : State) : (s.generationalReset).rootPpn = s.rootPpn := by unfold State.generationalReset; split <;> rfl
@[simp] theorem State.generationalReset_priv (s : State) : (s.generationalReset).priv = s.priv := by unfold State.generationalReset; split <;> rfl
@[simp] theorem State.generationalReset_status (s : State) : (s.generationalReset).status = s.status := by unfold State.generationalReset; split <;> rfl
@[simp] theorem State.generationalReset_lat (s : State) : (s.generationalReset).lat = s.lat := by unfold State.generationalReset; split <;> rfl
@[simp] theorem State.generationalReset_l1 (s : State) : (s.generationalReset).l1 = s.l1 := by unfold State.generationalReset; split <;> rfl
@[simp] theorem State.generationalReset_l2 (s : State) : (s.generationalReset).l2 = s.l2 := by unfold State.generationalReset; split <;> rfl
@[simp] theorem State.generationalReset_l1Hit (s : State) : (s.generationalReset).l1Hit = s.l1Hit := by unfold State.generationalReset; split <;> rfl
@[simp] theorem State.generationalReset_l1Miss (s : State) : (s.generationalReset).l1Miss = s.l1Miss := by unfold State.generationalReset; split <;> rfl
@[simp] theorem State.generationalReset_l2Hit (s : State) : (s.generationalReset).l2Hit = s.l2Hit := by unfold State.generationalReset; split <;> rfl
@[simp] theorem State.generationalReset_l2Miss (s : State) : (s.generationalReset).l2Miss = s.l2Miss := by unfold State.generationalReset; split <;> rfl
@[simp] theorem State.generationalReset_bs (s : State) : (s.generationalReset).bs = s.bs := by unfold State.generationalReset; split <;> rfl
@[simp] theorem State.generationalReset_trace (s : State) : (s.generationalReset).trace = s.trace := by unfold State.generationalReset; split <;> rfl
@[simp] theorem State.generationalReset_inputs (s : State) : (s.generationalReset).inputs = s.inputs := by unfold State.generationalReset; split <;> rfl
@[simp] theorem State.generationalReset_now (s : State) : (s.generationalReset).now = s.now := by unfold State.generationalReset; split <;> rfl
@[simp] theorem State.generationalReset_draws (s : State) : (s.generationalReset).draws = s.draws := by unfold State.generationalReset; split <;> rfl
@[simp] theorem State.generationalReset_drawCount (s : State) : (s.generationalReset).drawCount = s.drawCount := by unfold State.generationalReset; split <;> rfl
@[simp] theorem State.generationalReset_response (s : State) : (s.generationalReset).response = s.response := by unfold State.generationalReset; split <;> rfl

/-! `State.tookL1Draw` -/

@[simp] theorem State.tookL1Draw_cfg (s : State) : (s.tookL1Draw).cfg = s.cfg := by unfold State.tookL1Draw; split <;> rfl
@[simp] theorem State.tookL1Draw_xlen (s : State) : (s.tookL1Draw).xlen = s.xlen := by unfold State.tookL1Draw; split <;> rfl
@[simp] theorem State.tookL1Draw_scheme (s : State) : (s.tookL1Draw).scheme = s.scheme := by unfold State.tookL1Draw; split <;> rfl
@[simp] theorem State.tookL1Draw_rootPpn (s : State) : (s.tookL1Draw).rootPpn = s.rootPpn := by unfold State.tookL1Draw; split <;> rfl
@[simp] theorem State.tookL1Draw_priv (s : State) : (s.tookL1Draw).priv = s.priv := by unfold State.tookL1Draw; split <;> rfl
@[simp] theorem State.tookL1Draw_status (s : State) : (s.tookL1Draw).status = s.status := by unfold State.tookL1Draw; split <;> rfl
@[simp] theorem State.tookL1Draw_lat (s : State) : (s.tookL1Draw).lat = s.lat := by unfold State.tookL1Draw; split <;> rfl
@[simp] theorem State.tookL1Draw_tlb (s : State) : (s.tookL1Draw).tlb = s.tlb := by unfold State.tookL1Draw; split <;> rfl
@[simp] theorem State.tookL1Draw_l1 (s : State) : (s.tookL1Draw).l1 = s.l1 := by unfold State.tookL1Draw; split <;> rfl
@[simp] theorem State.tookL1Draw_l2 (s : State) : (s.tookL1Draw).l2 = s.l2 := by unfold State.tookL1Draw; split <;> rfl
@[simp] theorem State.tookL1Draw_l1Hit (s : State) : (s.tookL1Draw).l1Hit = s.l1Hit := by unfold State.tookL1Draw; split <;> rfl
@[simp] theorem State.tookL1Draw_l1Miss (s : State) : (s.tookL1Draw).l1Miss = s.l1Miss := by unfold State.tookL1Draw; split <;> rfl
@[simp] theorem State.tookL1Draw_l2Hit (s : State) : (s.tookL1Draw).l2Hit = s.l2Hit := by unfold State.tookL1Draw; split <;> rfl
@[simp] theorem State.tookL1Draw_l2Miss (s : State) : (s.tookL1Draw).l2Miss = s.l2Miss := by unfold State.tookL1Draw; split <;> rfl
@[simp] theorem State.tookL1Draw_bs (s : State) : (s.tookL1Draw).bs = s.bs := by unfold State.tookL1Draw; split <;> rfl
@[simp] theorem State.tookL1Draw_trace (s : State) : (s.tookL1Draw).trace = s.trace := by unfold State.tookL1Draw; split <;> rfl
@[simp] theorem State.tookL1Draw_inputs (s : State) : (s.tookL1Draw).inputs = s.inputs := by unfold State.tookL1Draw; split <;> rfl
@[simp] theorem State.tookL1Draw_now (s : State) : (s.tookL1Draw).now = s.now := by unfold State.tookL1Draw; split <;> rfl
@[simp] theorem State.tookL1Draw_response (s : State) : (s.tookL1Draw).response = s.response := by unfold State.tookL1Draw; split <;> rfl

/-! `State.tookL2Draw` -/

@[simp] theorem State.tookL2Draw_cfg (s : State) : (s.tookL2Draw).cfg = s.cfg := by unfold State.tookL2Draw; split <;> rfl
@[simp] theorem State.tookL2Draw_xlen (s : State) : (s.tookL2Draw).xlen = s.xlen := by unfold State.tookL2Draw; split <;> rfl
@[simp] theorem State.tookL2Draw_scheme (s : State) : (s.tookL2Draw).scheme = s.scheme := by unfold State.tookL2Draw; split <;> rfl
@[simp] theorem State.tookL2Draw_rootPpn (s : State) : (s.tookL2Draw).rootPpn = s.rootPpn := by unfold State.tookL2Draw; split <;> rfl
@[simp] theorem State.tookL2Draw_priv (s : State) : (s.tookL2Draw).priv = s.priv := by unfold State.tookL2Draw; split <;> rfl
@[simp] theorem State.tookL2Draw_status (s : State) : (s.tookL2Draw).status = s.status := by unfold State.tookL2Draw; split <;> rfl
@[simp] theorem State.tookL2Draw_lat (s : State) : (s.tookL2Draw).lat = s.lat := by unfold State.tookL2Draw; split <;> rfl
@[simp] theorem State.tookL2Draw_tlb (s : State) : (s.tookL2Draw).tlb = s.tlb := by unfold State.tookL2Draw; split <;> rfl
@[simp] theorem State.tookL2Draw_l1 (s : State) : (s.tookL2Draw).l1 = s.l1 := by unfold State.tookL2Draw; split <;> rfl
@[simp] theorem State.tookL2Draw_l2 (s : State) : (s.tookL2Draw).l2 = s.l2 := by unfold State.tookL2Draw; split <;> rfl
@[simp] theorem State.tookL2Draw_l1Hit (s : State) : (s.tookL2Draw).l1Hit = s.l1Hit := by unfold State.tookL2Draw; split <;> rfl
@[simp] theorem State.tookL2Draw_l1Miss (s : State) : (s.tookL2Draw).l1Miss = s.l1Miss := by unfold State.tookL2Draw; split <;> rfl
@[simp] theorem State.tookL2Draw_l2Hit (s : State) : (s.tookL2Draw).l2Hit = s.l2Hit := by unfold State.tookL2Draw; split <;> rfl
@[simp] theorem State.tookL2Draw_l2Miss (s : State) : (s.tookL2Draw).l2Miss = s.l2Miss := by unfold State.tookL2Draw; split <;> rfl
@[simp] theorem State.tookL2Draw_bs (s : State) : (s.tookL2Draw).bs = s.bs := by unfold State.tookL2Draw; split <;> rfl
@[simp] theorem State.tookL2Draw_trace (s : State) : (s.tookL2Draw).trace = s.trace := by unfold State.tookL2Draw; split <;> rfl
@[simp] theorem State.tookL2Draw_inputs (s : State) : (s.tookL2Draw).inputs = s.inputs := by unfold State.tookL2Draw; split <;> rfl
@[simp] theorem State.tookL2Draw_now (s : State) : (s.tookL2Draw).now = s.now := by unfold State.tookL2Draw; split <;> rfl
@[simp] theorem State.tookL2Draw_response (s : State) : (s.tookL2Draw).response = s.response := by unfold State.tookL2Draw; split <;> rfl

/-! `State.tookTlbDraw` -/

@[simp] theorem State.tookTlbDraw_cfg (s : State) : (s.tookTlbDraw).cfg = s.cfg := by unfold State.tookTlbDraw; split <;> rfl
@[simp] theorem State.tookTlbDraw_xlen (s : State) : (s.tookTlbDraw).xlen = s.xlen := by unfold State.tookTlbDraw; split <;> rfl
@[simp] theorem State.tookTlbDraw_scheme (s : State) : (s.tookTlbDraw).scheme = s.scheme := by unfold State.tookTlbDraw; split <;> rfl
@[simp] theorem State.tookTlbDraw_rootPpn (s : State) : (s.tookTlbDraw).rootPpn = s.rootPpn := by unfold State.tookTlbDraw; split <;> rfl
@[simp] theorem State.tookTlbDraw_priv (s : State) : (s.tookTlbDraw).priv = s.priv := by unfold State.tookTlbDraw; split <;> rfl
@[simp] theorem State.tookTlbDraw_status (s : State) : (s.tookTlbDraw).status = s.status := by unfold State.tookTlbDraw; split <;> rfl
@[simp] theorem State.tookTlbDraw_lat (s : State) : (s.tookTlbDraw).lat = s.lat := by unfold State.tookTlbDraw; split <;> rfl
@[simp] theorem State.tookTlbDraw_tlb (s : State) : (s.tookTlbDraw).tlb = s.tlb := by unfold State.tookTlbDraw; split <;> rfl
@[simp] theorem State.tookTlbDraw_l1 (s : State) : (s.tookTlbDraw).l1 = s.l1 := by unfold State.tookTlbDraw; split <;> rfl
@[simp] theorem State.tookTlbDraw_l2 (s : State) : (s.tookTlbDraw).l2 = s.l2 := by unfold State.tookTlbDraw; split <;> rfl
@[simp] theorem State.tookTlbDraw_l1Hit (s : State) : (s.tookTlbDraw).l1Hit = s.l1Hit := by unfold State.tookTlbDraw; split <;> rfl
@[simp] theorem State.tookTlbDraw_l1Miss (s : State) : (s.tookTlbDraw).l1Miss = s.l1Miss := by unfold State.tookTlbDraw; split <;> rfl
@[simp] theorem State.tookTlbDraw_l2Hit (s : State) : (s.tookTlbDraw).l2Hit = s.l2Hit := by unfold State.tookTlbDraw; split <;> rfl
@[simp] theorem State.tookTlbDraw_l2Miss (s : State) : (s.tookTlbDraw).l2Miss = s.l2Miss := by unfold State.tookTlbDraw; split <;> rfl
@[simp] theorem State.tookTlbDraw_bs (s : State) : (s.tookTlbDraw).bs = s.bs := by unfold State.tookTlbDraw; split <;> rfl
@[simp] theorem State.tookTlbDraw_trace (s : State) : (s.tookTlbDraw).trace = s.trace := by unfold State.tookTlbDraw; split <;> rfl
@[simp] theorem State.tookTlbDraw_inputs (s : State) : (s.tookTlbDraw).inputs = s.inputs := by unfold State.tookTlbDraw; split <;> rfl
@[simp] theorem State.tookTlbDraw_now (s : State) : (s.tookTlbDraw).now = s.now := by unfold State.tookTlbDraw; split <;> rfl
@[simp] theorem State.tookTlbDraw_response (s : State) : (s.tookTlbDraw).response = s.response := by unfold State.tookTlbDraw; split <;> rfl

end Sys2Proof.Machine
end

