-- ==== Sys2Proof/Laws/Lines.lean ====
section
/-! SUPPORT. The line and TLB arrays: what each write leaves at each place, what a lookup finds, what a draw can be, and
the bytes of a block. -/

namespace Sys2Proof.Machine

/-! Lines after a write -/

@[simp] theorem line1_setLine1_same (s : State) (i : Fin 64) (w : Fin 8) (l : L1Line) :
    (s.setLine1 i w l).line1 i w = l := by
  simp [State.line1, State.setLine1, Vector.get_eq_getElem]

theorem line1_setLine1 (s : State) (i : Fin 64) (w : Fin 8) (l : L1Line) (i' : Fin 64) (w' : Fin 8) :
    (s.setLine1 i w l).line1 i' w' = if i' = i ∧ w' = w then l else s.line1 i' w' := by
  by_cases hi : i' = i
  · subst hi
    by_cases hw : w' = w
    · subst hw; simp
    · simp [State.line1, State.setLine1, Vector.get_eq_getElem, hw, Fin.val_inj, Ne.symm hw]
  · simp [State.line1, State.setLine1, Vector.get_eq_getElem, hi, Fin.val_inj, Ne.symm hi]

@[simp] theorem line2_setLine2_same (s : State) (i : Fin 256) (w : Fin 8) (l : L2Line) :
    (s.setLine2 i w l).line2 i w = l := by
  simp [State.line2, State.setLine2, Vector.get_eq_getElem]

theorem line2_setLine2 (s : State) (i : Fin 256) (w : Fin 8) (l : L2Line) (i' : Fin 256) (w' : Fin 8) :
    (s.setLine2 i w l).line2 i' w' = if i' = i ∧ w' = w then l else s.line2 i' w' := by
  by_cases hi : i' = i
  · subst hi
    by_cases hw : w' = w
    · subst hw; simp
    · simp [State.line2, State.setLine2, Vector.get_eq_getElem, hw, Fin.val_inj, Ne.symm hw]
  · simp [State.line2, State.setLine2, Vector.get_eq_getElem, hi, Fin.val_inj, Ne.symm hi]

@[simp] theorem line2_setLine1 (s : State) (i : Fin 64) (w : Fin 8) (l : L1Line) (i' : Fin 256) (w' : Fin 8) :
    (s.setLine1 i w l).line2 i' w' = s.line2 i' w' := rfl

@[simp] theorem line1_setLine2 (s : State) (i : Fin 256) (w : Fin 8) (l : L2Line) (i' : Fin 64) (w' : Fin 8) :
    (s.setLine2 i w l).line1 i' w' = s.line1 i' w' := rfl

@[simp] theorem tlbEntry_setTlbEntry_same (s : State) (i : Fin 64) (e : TlbEntry) :
    (s.setTlbEntry i e).tlbEntry i = e := by
  simp [State.tlbEntry, State.setTlbEntry, Vector.get_eq_getElem]

theorem tlbEntry_setTlbEntry (s : State) (i j : Fin 64) (e : TlbEntry) :
    (s.setTlbEntry i e).tlbEntry j = if j = i then e else s.tlbEntry j := by
  by_cases h : j = i
  · subst h; simp
  · simp [State.tlbEntry, State.setTlbEntry, Vector.get_eq_getElem, h, Fin.val_inj, Ne.symm h]

theorem tlbEntry_clearMarkers (s : State) (i : Fin 64) :
    s.clearMarkers.tlbEntry i = { s.tlbEntry i with mru := false } := by
  simp [State.tlbEntry, State.clearMarkers, unmarkedEntries, Vector.get_eq_getElem]

/-! Lines depend on the arrays alone -/

theorem line1_congr {s t : State} (h : t.l1 = s.l1) (i : Fin 64) (w : Fin 8) : t.line1 i w = s.line1 i w := by
  rw [State.line1, h]; rfl

theorem line2_congr {s t : State} (h : t.l2 = s.l2) (i : Fin 256) (w : Fin 8) : t.line2 i w = s.line2 i w := by
  rw [State.line2, h]; rfl

theorem tlbEntry_congr {s t : State} (h : t.tlb = s.tlb) (i : Fin 64) : t.tlbEntry i = s.tlbEntry i := by
  rw [State.tlbEntry, h]; rfl

theorem lookup1_congr {s t : State} (h : t.l1 = s.l1) (pa : Addr) : lookup1 t pa = lookup1 s pa := by
  simp only [lookup1, line1_congr h]

theorem lookup2_congr {s t : State} (h : t.l2 = s.l2) (pa : Addr) : lookup2 t pa = lookup2 s pa := by
  simp only [lookup2, line2_congr h]

theorem tlbLookup_congr {s t : State} (h : t.tlb = s.tlb) (tag : TlbTag) : tlbLookup t tag = tlbLookup s tag := by
  simp only [tlbLookup, tlbEntry_congr h]

/-! Lookups -/

@[simp] theorem mem_allWays (w : Fin 8) : w ∈ allWays := List.mem_finRange w

@[simp] theorem mem_allSlots (i : Fin 64) : i ∈ allSlots := List.mem_finRange i

theorem lookup1_some {s : State} {pa : Addr} {w : Fin 8} (h : lookup1 s pa = some w) :
    (s.line1 (l1Index pa) w).valid = true ∧ (s.line1 (l1Index pa) w).tag = l1Tag pa := by
  simpa using List.find?_some h

theorem lookup1_none {s : State} {pa : Addr} :
    lookup1 s pa = none ↔ ∀ w, (s.line1 (l1Index pa) w).valid = true → (s.line1 (l1Index pa) w).tag ≠ l1Tag pa := by
  simp [lookup1]

theorem lookup2_some {s : State} {pa : Addr} {w : Fin 8} (h : lookup2 s pa = some w) :
    (s.line2 (l2Index pa) w).valid = true ∧ (s.line2 (l2Index pa) w).tag = l2Tag pa := by
  simpa using List.find?_some h

theorem lookup2_none {s : State} {pa : Addr} :
    lookup2 s pa = none ↔ ∀ w, (s.line2 (l2Index pa) w).valid = true → (s.line2 (l2Index pa) w).tag ≠ l2Tag pa := by
  simp [lookup2]

theorem tlbLookup_some {s : State} {tag : TlbTag} {i : Fin 64} (h : tlbLookup s tag = some i) :
    (s.tlbEntry i).valid = true ∧ (s.tlbEntry i).tag = tag := by
  simpa using List.find?_some h

theorem tlbLookup_none {s : State} {tag : TlbTag} :
    tlbLookup s tag = none ↔ ∀ i, (s.tlbEntry i).valid = true → (s.tlbEntry i).tag ≠ tag := by
  simp [tlbLookup]

/-! Draws -/

/-- A draw is a candidate. -/
theorem choose_mem {α : Type} {c : List α} (h : c ≠ []) (n : Nat) (d : α) : choose c n d ∈ c := by
  have hl : 0 < c.length := List.length_pos_iff.2 h
  have hn : n % c.length < c.length := Nat.mod_lt _ hl
  rw [choose, List.getD_eq_getElem _ _ hn]
  exact List.getElem_mem hn

/-- Every candidate is some draw. -/
theorem choose_surj {α : Type} {c : List α} {a : α} (h : a ∈ c) (d : α) : ∃ n, choose c n d = a := by
  obtain ⟨n, hn, rfl⟩ := List.getElem_of_mem h
  exact ⟨n, by rw [choose, Nat.mod_eq_of_lt hn, List.getD_eq_getElem _ _ hn]⟩

/-- The L2 victim is a way whose inclusion flag is false (R143). -/
theorem victim2_some {s : State} {i : Fin 256} {u : Fin 8} (h : victim2 s i = some u) : (s.line2 i u).incl = false := by
  rw [victim2] at h
  split at h
  · cases h
  · next w ws he =>
    have hm : choose (w :: ws) s.l2Draw w ∈ eligible2 s i := by rw [he]; exact choose_mem (List.cons_ne_nil _ _) _ _
    cases h
    simpa [eligible2] using hm

/-- There is no L2 victim exactly when every inclusion flag of the set is true (R143). -/
theorem victim2_none {s : State} {i : Fin 256} : victim2 s i = none ↔ ∀ w, (s.line2 i w).incl = true := by
  have : victim2 s i = none ↔ eligible2 s i = [] := by
    rw [victim2]
    split
    · next he => simp [he]
    · next w ws he => simp [he]
  rw [this, eligible2]
  simp [List.filter_eq_nil_iff]

/-! Blocks -/

theorem blockByte_ofFn (f : Nat → Byte) {k : Nat} (h : k < 64) : blockByte (blockOfFn f) k = f k := by
  simp [blockByte, blockOfFn, List.getD_eq_getElem?_getD, h]

theorem blockByte_set (d : Block) (o : Nat) (bs : List Byte) {k : Nat} (h : k < 64) :
    blockByte (blockSet d o bs) k = if o ≤ k ∧ k < o + bs.length then bs.getD (k - o) 0 else blockByte d k := by
  rw [blockSet, blockByte_ofFn _ h]

theorem block_ext {d d' : Block} (h : ∀ k < 64, blockByte d k = blockByte d' k) : d = d' := by
  refine Vector.ext fun k hk => ?_
  have := h k hk
  simpa [blockByte, List.getD_eq_getElem?_getD, hk] using this

end Sys2Proof.Machine
end

