-- ==== Sys2Proof/Laws/Memory.lean ====
section
/-! SUPPORT. The byte list: a write is read back, leaves every other address alone, and keeps the canonical form; two
lists in canonical form that read alike are equal. -/

namespace Sys2Proof.Machine.Memory

theorem read_of_lt {m : List Host.Cell} {a : Nat} (h : m.all (fun c => decide (a < c.1)) = true) :
    read m a = unlisted := by
  induction m with
  | nil => rfl
  | cons c m ih =>
    obtain ⟨k, b⟩ := c
    simp only [List.all_cons, Bool.and_eq_true, decide_eq_true_eq] at h
    simp [read, ih h.2, show k ≠ a by omega]

theorem wf_cons {k : Nat} {b : Byte} {m : List Host.Cell} :
    wf ((k, b) :: m) = true ↔ b ≠ unlisted ∧ m.all (fun c => decide (k < c.1)) = true ∧ wf m = true := by
  simp [wf, and_assoc]

theorem read_write_same {m : List Host.Cell} (h : wf m = true) (a : Nat) (v : Byte) : read (write m a v) a = v := by
  induction m with
  | nil => by_cases hv : v = unlisted <;> simp [write, read, hv]
  | cons c m ih =>
    obtain ⟨k, b⟩ := c
    obtain ⟨-, hk, hm⟩ := wf_cons.1 h
    rw [write]
    split
    · next hlt => simp [read, show k ≠ a by omega, ih hm]
    · split
      · next heq =>
        subst heq
        split
        · next hv => rw [hv]; exact read_of_lt hk
        · simp [read]
      · split
        · next hlt hne hv =>
          rw [hv]
          refine read_of_lt ?_
          simp only [List.all_cons, Bool.and_eq_true, decide_eq_true_eq, List.all_eq_true] at hk ⊢
          exact ⟨by omega, fun c hc => by have := hk c hc; omega⟩
        · simp [read]

theorem read_write_other (m : List Host.Cell) {a a' : Nat} (h : a ≠ a') (v : Byte) :
    read (write m a v) a' = read m a' := by
  induction m with
  | nil => by_cases hv : v = unlisted <;> simp [write, read, hv, h]
  | cons c m ih =>
    obtain ⟨k, b⟩ := c
    rw [write]
    split
    · simp [read, ih]
    · split
      · next heq =>
        subst heq
        split <;> simp [read, h]
      · split
        · rfl
        · simp [read, h]

theorem all_lt_write {m : List Host.Cell} {k a : Nat} (hk : k < a)
    (h : m.all (fun c => decide (k < c.1)) = true) (v : Byte) :
    (write m a v).all (fun c => decide (k < c.1)) = true := by
  induction m with
  | nil => by_cases hv : v = unlisted <;> simp [write, hv, hk]
  | cons c m ih =>
    obtain ⟨j, b⟩ := c
    simp only [List.all_cons, Bool.and_eq_true, decide_eq_true_eq] at h
    rw [write]
    split
    · simp only [List.all_cons, Bool.and_eq_true, decide_eq_true_eq]; exact ⟨h.1, ih h.2⟩
    · split
      · split
        · exact h.2
        · simp only [List.all_cons, Bool.and_eq_true, decide_eq_true_eq]; exact ⟨hk, h.2⟩
      · split
        · simp only [List.all_cons, Bool.and_eq_true, decide_eq_true_eq]; exact h
        · simp only [List.all_cons, Bool.and_eq_true, decide_eq_true_eq]; exact ⟨hk, h⟩

/-- A write keeps the canonical form. -/
theorem wf_write {m : List Host.Cell} (h : wf m = true) (a : Nat) (v : Byte) : wf (write m a v) = true := by
  induction m with
  | nil => by_cases hv : v = unlisted <;> simp [write, wf, hv]
  | cons c m ih =>
    obtain ⟨k, b⟩ := c
    obtain ⟨hb, hk, hm⟩ := wf_cons.1 h
    rw [write]
    split
    · next hlt => exact wf_cons.2 ⟨hb, all_lt_write hlt hk v, ih hm⟩
    · split
      · next heq =>
        subst heq
        split
        · exact hm
        · next hv => exact wf_cons.2 ⟨hv, hk, hm⟩
      · split
        · exact h
        · next hlt hne hv =>
          refine wf_cons.2 ⟨hv, ?_, h⟩
          simp only [List.all_cons, Bool.and_eq_true, decide_eq_true_eq, List.all_eq_true] at hk ⊢
          exact ⟨by omega, fun c hc => by have := hk c hc; omega⟩

/-- Consecutive writes keep the canonical form. -/
theorem wf_writeBytes {m : List Host.Cell} (h : wf m = true) (a : Addr) (bs : List Byte) :
    wf (writeBytes m a bs) = true := by
  induction bs generalizing m a with
  | nil => exact h
  | cons b bs ih => exact ih (wf_write h _ _) _

/-- Equal memories are equal data. -/
theorem ext {m m' : List Host.Cell} (h : wf m = true) (h' : wf m' = true) (hr : ∀ a, read m a = read m' a) :
    m = m' := by
  induction m generalizing m' with
  | nil =>
    cases m' with
    | nil => rfl
    | cons c m' =>
      obtain ⟨k, b⟩ := c
      have := hr k
      simp only [read, if_true] at this
      exact absurd this.symm (wf_cons.1 h').1
  | cons c m ih =>
    obtain ⟨k, b⟩ := c
    obtain ⟨hb, hk, hm⟩ := wf_cons.1 h
    cases m' with
    | nil =>
      have := hr k
      simp only [read, if_true] at this
      exact absurd this hb
    | cons c' m' =>
      obtain ⟨k', b'⟩ := c'
      obtain ⟨hb', hk', hm'⟩ := wf_cons.1 h'
      have hkk : k = k' := by
        rcases Nat.lt_trichotomy k k' with hlt | heq | hgt
        · have := hr k
          rw [read_of_lt (m := (k', b') :: m') (a := k)] at this
          · simp only [read, if_true] at this; exact absurd this hb
          · simp only [List.all_cons, Bool.and_eq_true, decide_eq_true_eq, List.all_eq_true] at hk' ⊢
            exact ⟨hlt, fun c hc => by have := hk' c hc; omega⟩
        · exact heq
        · have := hr k'
          rw [read_of_lt (m := (k, b) :: m) (a := k')] at this
          · simp only [read, if_true] at this; exact absurd this.symm hb'
          · simp only [List.all_cons, Bool.and_eq_true, decide_eq_true_eq, List.all_eq_true] at hk ⊢
            exact ⟨hgt, fun c hc => by have := hk c hc; omega⟩
      subst hkk
      have hbb : b = b' := by simpa [read] using hr k
      subst hbb
      rw [ih hm hm' fun a => ?_]
      by_cases ha : k = a
      · subst ha; rw [read_of_lt hk, read_of_lt hk']
      · simpa [read, ha] using hr a

end Sys2Proof.Machine.Memory
end

