-- ==== Sys2Proof/Laws/Store.lean ====
section
/-! SUPPORT. The Backing Store primitives: what consecutive writes leave at each address, that the block of a valid address
is wholly valid, what the block read returns and what the block write leaves. -/

namespace Sys2Proof.Machine

/-! Consecutive writes -/

theorem Memory.writeBytes_append (m : List Host.Cell) (a : Addr) (xs ys : List Byte) :
    Memory.writeBytes m a (xs ++ ys) = Memory.writeBytes (Memory.writeBytes m a xs) (a + BitVec.ofNat 64 xs.length) ys := by
  induction xs generalizing m a with
  | nil => simp [Memory.writeBytes]
  | cons x xs ih =>
    simp only [List.cons_append, Memory.writeBytes, ih, List.length_cons]
    congr 1
    rw [BitVec.add_assoc]
    congr 1
    apply BitVec.eq_of_toNat_eq
    simp [Nat.add_comm]

/-- What consecutive writes that do not wrap leave at each address. -/
theorem Memory.read_writeBytes {m : List Host.Cell} (h : Memory.wf m = true) (a : Addr) (bs : List Byte)
    (ha : a.toNat + bs.length ≤ 2 ^ 64) (x : Nat) :
    Memory.read (Memory.writeBytes m a bs) x =
      if a.toNat ≤ x ∧ x < a.toNat + bs.length then bs.getD (x - a.toNat) 0 else Memory.read m x := by
  induction bs generalizing m a with
  | nil => simp [Memory.writeBytes, show ¬(a.toNat ≤ x ∧ x < a.toNat) by omega]
  | cons b bs ih =>
    cases bs with
    | nil =>
      simp only [Memory.writeBytes, List.length_cons, List.length_nil]
      by_cases hx : a.toNat = x
      · subst hx; simp [Memory.read_write_same h]
      · rw [Memory.read_write_other m hx, if_neg (by omega)]
    | cons b' bs =>
      have h1 : (a + 1).toNat = a.toNat + 1 := by
        simp only [List.length_cons] at ha
        simp [BitVec.toNat_add]; omega
      rw [Memory.writeBytes, ih (Memory.wf_write h _ _) (a + 1) (by simp only [List.length_cons] at ha ⊢; omega), h1]
      simp only [List.length_cons]
      by_cases hx : a.toNat = x
      · subst hx
        rw [if_neg (by omega), if_pos (by omega), Memory.read_write_same h]; simp
      · rw [Memory.read_write_other m hx]
        by_cases hin : a.toNat + 1 ≤ x ∧ x < a.toNat + 1 + (bs.length + 1)
        · rw [if_pos hin, if_pos (by omega), show x - a.toNat = (x - (a.toNat + 1)) + 1 by omega]; simp
        · rw [if_neg hin, if_neg (by omega)]

/-! The window -/

theorem bsValid_iff {cfg : Config} {pa : Addr} :
    bsValid cfg pa = true ↔ cfg.memBase ≤ pa.toNat ∧ pa.toNat < cfg.memBase + cfg.memSize := by
  simp [bsValid]

/-- The block of a valid address is wholly valid (R81). -/
theorem bsValid_block {cfg : Config} (h : cfg.wf) {pa pb : Addr} (hb : blockOf pb = blockOf pa) :
    bsValid cfg pb = bsValid cfg pa := by
  obtain ⟨h1, h2, -, -⟩ := h
  rw [← BitVec.toNat_inj, blockOf_toNat, blockOf_toNat] at hb
  rw [Bool.eq_iff_iff, bsValid_iff, bsValid_iff]
  omega

theorem blockOf_add_block (pa : Addr) {k : Nat} (h : k < 64) : blockOf (blockOf pa + BitVec.ofNat 64 k) = blockOf pa := by
  rw [← BitVec.toNat_inj, blockOf_toNat, BitVec.toNat_add, blockOf_toNat, BitVec.toNat_ofNat]
  have := pa.isLt
  omega

/-- A block read returns the Backing Store's bytes of the block, and changes nothing (R125). -/
theorem bsReadBlock_ok {ε : Type} {s : State} (hc : s.cfg.wf) {pa : Addr} (h : bsValid s.cfg pa = true) :
    (bsReadBlock (blockOf pa) s : Run ε Block) =
      .ok (blockOfFn fun k => s.bsByte (blockOf pa + BitVec.ofNat 64 k)) s := by
  have h63 : bsValid s.cfg (blockOf pa + 63) = true := by
    rw [show (63 : Addr) = BitVec.ofNat 64 63 from rfl, bsValid_block hc (blockOf_add_block pa (by decide)), h]
  rw [bsReadBlock, bsValid_block hc (blockOf_blockOf pa), h, h63]; rfl

/-- A block read out of the window is refused (R124). -/
theorem bsReadBlock_refused {ε : Type} {s : State} (hc : s.cfg.wf) {pa : Addr} (h : bsValid s.cfg pa = false) :
    (bsReadBlock (blockOf pa) s : Run ε Block) = .refuse .outsideBackingStore := by
  rw [bsReadBlock, bsValid_block hc (blockOf_blockOf pa), h]; rfl

@[simp] theorem length_blockGet (d : Block) (o n : Nat) : (blockGet d o n).length = n := by simp [blockGet]

theorem blockGet_add (d : Block) (o n m : Nat) : blockGet d o (n + m) = blockGet d o n ++ blockGet d (o + n) m := by
  simp only [blockGet, List.range_add, List.map_append, List.map_map]
  congr 1
  exact List.map_congr_left fun k _ => by simp [Nat.add_assoc]

theorem bsWrite_ok {ε : Type} {s : State} {a : Addr} {bytes : List Byte} (h : bsValid s.cfg a = true)
    (h' : bsValid s.cfg (a + BitVec.ofNat 64 (bytes.length - 1)) = true) :
    (bsWrite a bytes s : Run ε Unit) = .ok () (s.setBs (Memory.writeBytes s.bs a bytes)) := by
  rw [bsWrite, h, h']; rfl

theorem bsWriteBlock_prefix {ε : Type} {s : State} (hc : s.cfg.wf) {pa : Addr} (h : bsValid s.cfg pa = true) (d : Block)
    {n : Nat} (hn : n ≤ 8) :
    (Run.forEach (fun k => bsWrite (blockOf pa + BitVec.ofNat 64 (8 * k)) (blockGet d (8 * k) 8)) (List.range n) s :
      Run ε Unit) = .ok () (s.setBs (Memory.writeBytes s.bs (blockOf pa) (blockGet d 0 (8 * n)))) := by
  induction n with
  | zero => rfl
  | succ n ih =>
    rw [List.range_succ, Run.forEach_append, ih (by omega)]
    have hv : ∀ k < 64, bsValid s.cfg (blockOf pa + BitVec.ofNat 64 k) = true := fun k hk => by
      rw [bsValid_block hc (blockOf_add_block pa hk), h]
    have e : blockOf pa + BitVec.ofNat 64 (8 * n) + BitVec.ofNat 64 7 = blockOf pa + BitVec.ofNat 64 (8 * n + 7) := by
      rw [BitVec.add_assoc]; congr 1
      apply BitVec.eq_of_toNat_eq
      simp
    rw [Run.bind_ok, Run.forEach_cons,
      bsWrite_ok (by exact hv _ (by omega)) (by simpa only [length_blockGet, Nat.reduceSub, e, State.setBs_cfg] using hv (8 * n + 7) (by omega))]
    simp only [Run.bind_ok, Run.forEach_nil, State.setBs_bs]
    rw [show 8 * (n + 1) = 8 * n + 8 by omega, blockGet_add, Memory.writeBytes_append, length_blockGet, Nat.zero_add]
    rfl

/-- A block write in the window writes the block's 64 bytes, and changes nothing else (R126). -/
theorem bsWriteBlock_ok {ε : Type} {s : State} (hc : s.cfg.wf) {pa : Addr} (h : bsValid s.cfg pa = true) (d : Block) :
    (bsWriteBlock (blockOf pa) d s : Run ε Unit) =
      .ok () (s.setBs (Memory.writeBytes s.bs (blockOf pa) (blockGet d 0 64))) :=
  bsWriteBlock_prefix hc h d (Nat.le_refl 8)

theorem getD_blockGet (d : Block) {k n : Nat} (h : k < n) : (blockGet d 0 n).getD k 0 = blockByte d k := by
  simp [blockGet, List.getD_eq_getElem?_getD, h]

/-- What a block write leaves at each address. -/
theorem read_writeBlock {m : List Host.Cell} (hm : Memory.wf m = true) (pa : Addr) (d : Block) (x : Addr) :
    Memory.read (Memory.writeBytes m (blockOf pa) (blockGet d 0 64)) x.toNat =
      if blockOf x = blockOf pa then blockByte d (blockOffset x) else Memory.read m x.toNat := by
  have hp := blockOf_toNat pa
  have := pa.isLt
  rw [Memory.read_writeBytes hm _ _ (by simp only [length_blockGet]; omega), length_blockGet]
  have e : blockOf x = blockOf pa ↔ (blockOf pa).toNat ≤ x.toNat ∧ x.toNat < (blockOf pa).toNat + 64 := by
    rw [← BitVec.toNat_inj, blockOf_toNat]; omega
  by_cases hx : blockOf x = blockOf pa
  · rw [if_pos (e.1 hx), if_pos hx, getD_blockGet _ (by have := e.1 hx; omega), blockOffset_eq]
    congr 1
    have := e.1 hx; omega
  · rw [if_neg (fun h => hx (e.2 h)), if_neg hx]

end Sys2Proof.Machine
end

