-- ==== Sys2Proof/Laws/View.lean ====
section
/-! SUPPORT. `View` by the line that holds a byte (R71), and what the lookups find under inclusion (R44). -/

namespace Sys2Proof.Machine

/-- The line `L1[i][w]` is valid and holds the block of an address. -/
def Holds1 (s : State) (pa : Addr) (i : Fin 64) (w : Fin 8) : Prop :=
  (s.line1 i w).valid = true ∧ s.block1 i w = blockOf pa

/-- The line `L2[j][x]` is valid and holds the block of an address. -/
def Holds2 (s : State) (pa : Addr) (j : Fin 256) (x : Fin 8) : Prop :=
  (s.line2 j x).valid = true ∧ s.block2 j x = blockOf pa

theorem holds1_index {s : State} {pa : Addr} {i : Fin 64} {w : Fin 8} (h : Holds1 s pa i w) : i = l1Index pa :=
  ((l1BlockAddr_eq_iff _ _ _).1 h.2).1

theorem holds2_index {s : State} {pa : Addr} {j : Fin 256} {x : Fin 8} (h : Holds2 s pa j x) : j = l2Index pa :=
  ((l2BlockAddr_eq_iff _ _ _).1 h.2).1

theorem lookup1_holds {s : State} {pa : Addr} {w : Fin 8} (h : lookup1 s pa = some w) : Holds1 s pa (l1Index pa) w :=
  ⟨(lookup1_some h).1, (l1BlockAddr_eq_iff _ _ _).2 ⟨rfl, (lookup1_some h).2⟩⟩

theorem lookup2_holds {s : State} {pa : Addr} {x : Fin 8} (h : lookup2 s pa = some x) : Holds2 s pa (l2Index pa) x :=
  ⟨(lookup2_some h).1, (l2BlockAddr_eq_iff _ _ _).2 ⟨rfl, (lookup2_some h).2⟩⟩

theorem lookup1_none_iff {s : State} {pa : Addr} : lookup1 s pa = none ↔ ∀ i w, ¬Holds1 s pa i w := by
  rw [lookup1_none]
  constructor
  · rintro h i w ⟨hv, hb⟩
    obtain ⟨rfl, ht⟩ := (l1BlockAddr_eq_iff _ _ _).1 hb
    exact h w hv ht
  · exact fun h w hv ht => h _ w ⟨hv, (l1BlockAddr_eq_iff _ _ _).2 ⟨rfl, ht⟩⟩

theorem lookup2_none_iff {s : State} {pa : Addr} : lookup2 s pa = none ↔ ∀ j x, ¬Holds2 s pa j x := by
  rw [lookup2_none]
  constructor
  · rintro h j x ⟨hv, hb⟩
    obtain ⟨rfl, ht⟩ := (l2BlockAddr_eq_iff _ _ _).1 hb
    exact h x hv ht
  · exact fun h x hv ht => h _ x ⟨hv, (l2BlockAddr_eq_iff _ _ _).2 ⟨rfl, ht⟩⟩

variable {s : State}

theorem Inclusion.unique1 (h : Inclusion s) {pa : Addr} {i i' : Fin 64} {w w' : Fin 8} (a : Holds1 s pa i w)
    (b : Holds1 s pa i' w') : i = i' ∧ w = w' :=
  h.distinct1 _ _ _ _ a.1 b.1 (a.2.trans b.2.symm)

theorem Inclusion.unique2 (h : Inclusion s) {pa : Addr} {j j' : Fin 256} {x x' : Fin 8} (a : Holds2 s pa j x)
    (b : Holds2 s pa j' x') : j = j' ∧ x = x' :=
  h.distinct2 _ _ _ _ a.1 b.1 (a.2.trans b.2.symm)

/-- A lookup finds the line that holds the block (R141). -/
theorem Inclusion.lookup1_eq (h : Inclusion s) {pa : Addr} {i : Fin 64} {w : Fin 8} (a : Holds1 s pa i w) :
    lookup1 s pa = some w := by
  cases e : lookup1 s pa with
  | none => exact absurd a (lookup1_none_iff.1 e i w)
  | some w' => rw [(h.unique1 (lookup1_holds e) a).2]

theorem Inclusion.lookup2_eq (h : Inclusion s) {pa : Addr} {j : Fin 256} {x : Fin 8} (a : Holds2 s pa j x) :
    lookup2 s pa = some x := by
  cases e : lookup2 s pa with
  | none => exact absurd a (lookup2_none_iff.1 e j x)
  | some x' => rw [(h.unique2 (lookup2_holds e) a).2]

/-- `View` of a byte an L1 line holds (R71). -/
theorem Inclusion.view1 (h : Inclusion s) {pa : Addr} {i : Fin 64} {w : Fin 8} (a : Holds1 s pa i w) :
    s.view pa = blockByte (s.line1 i w).data (blockOffset pa) := by
  rw [State.view, h.lookup1_eq a, holds1_index a]

/-- `View` of a byte only an L2 line holds (R71). -/
theorem Inclusion.view2 (h : Inclusion s) {pa : Addr} {j : Fin 256} {x : Fin 8} (n : ∀ i w, ¬Holds1 s pa i w)
    (a : Holds2 s pa j x) : s.view pa = blockByte (s.line2 j x).data (blockOffset pa) := by
  rw [State.view, lookup1_none_iff.2 n]
  simp only [h.lookup2_eq a, holds2_index a]

/-- `View` of a byte no line holds (R71, R76). -/
theorem view_bs {pa : Addr} (n1 : ∀ i w, ¬Holds1 s pa i w) (n2 : ∀ j x, ¬Holds2 s pa j x) : s.view pa = s.bsByte pa := by
  rw [State.view, lookup1_none_iff.2 n1]
  simp only [lookup2_none_iff.2 n2]

/-- A block no L2 line holds, no L1 line holds (R44 (a)). -/
theorem Inclusion.not_holds1 (h : Inclusion s) {pa : Addr} (n2 : ∀ j x, ¬Holds2 s pa j x) (i : Fin 64) (w : Fin 8) :
    ¬Holds1 s pa i w := fun a => by
  obtain ⟨j, x, hv, hb, -⟩ := h.owned i w a.1
  exact n2 j x ⟨hv, hb.trans a.2⟩

/-- A line with `incl` = 0 has no copy in L1 (R44 (a)). -/
theorem Inclusion.not_holds1_of_incl (h : Inclusion s) {pa : Addr} {j : Fin 256} {x : Fin 8} (a : Holds2 s pa j x)
    (hi : (s.line2 j x).incl = false) (i : Fin 64) (w : Fin 8) : ¬Holds1 s pa i w := fun b => by
  obtain ⟨j', x', hv, hb, hi'⟩ := h.owned i w b.1
  obtain ⟨rfl, rfl⟩ := h.unique2 (pa := pa) ⟨hv, hb.trans b.2⟩ a
  rw [hi] at hi'; cases hi'

/-- `View`, the lookups and inclusion depend on the line arrays and the byte list alone. -/
theorem view_congr {s t : State} (h1 : t.l1 = s.l1) (h2 : t.l2 = s.l2) (hb : t.bs = s.bs) (pa : Addr) :
    t.view pa = s.view pa := by
  simp only [State.view, lookup1_congr h1, lookup2_congr h2, line1_congr h1, line2_congr h2, State.bsByte, hb]

theorem Inclusion.congr {t : State} (h : Inclusion s) (h1 : t.l1 = s.l1) (h2 : t.l2 = s.l2) : Inclusion t := by
  have b1 : ∀ i w, t.block1 i w = s.block1 i w := fun i w => by rw [State.block1, State.block1, line1_congr h1]
  have b2 : ∀ j x, t.block2 j x = s.block2 j x := fun j x => by rw [State.block2, State.block2, line2_congr h2]
  constructor
  · simpa only [line1_congr h1, line2_congr h2, b1, b2] using h.owned
  · simpa only [line1_congr h1, line2_congr h2, b1, b2] using h.resident
  · simpa only [line1_congr h1, b1] using h.distinct1
  · simpa only [line2_congr h2, b2] using h.distinct2

theorem LinesInWindow.congr {t : State} (h : LinesInWindow s) (hc : t.cfg = s.cfg) (h2 : t.l2 = s.l2) :
    LinesInWindow t := by
  intro j x
  simpa only [State.block2, line2_congr h2, hc] using h j x

theorem Coherent.congr {t : State} (h : Coherent s) (hc : t.cfg = s.cfg) (h1 : t.l1 = s.l1) (h2 : t.l2 = s.l2)
    (hb : t.bs = s.bs) : Coherent t :=
  ⟨hc ▸ h.config, hb ▸ h.memory, h.inclusion.congr h1 h2, h.window.congr hc h2⟩

end Sys2Proof.Machine
end

