-- ==== Sys2Proof/Laws/Cache.lean ====
section
/-! SUPPORT. The controller on a coherent state: each eviction and each refill of `AcquireLine` (R211 to R215) and each line
of a flush (R219) returns, keeps the state coherent and keeps `View` at every address; there is always an L2 victim. -/

namespace Sys2Proof.Machine

variable {s : State}

/-- What every procedure of the controller keeps: a coherent state, `View`, and all that is outside the caches. -/
structure Keeps (s t : State) : Prop where
  coherent : Coherent t
  view : ∀ pa, t.view pa = s.view pa
  outside : SameTranslation s t
  response : t.response = s.response

theorem SameTranslation.refl (s : State) : SameTranslation s s := by simp [SameTranslation, SameControl, SameInputs]

theorem SameTranslation.trans {t u : State} (h : SameTranslation s t) (k : SameTranslation t u) : SameTranslation s u := by
  simp only [SameTranslation, SameControl, SameInputs] at *; simp [*]

theorem Keeps.refl (h : Coherent s) : Keeps s s := ⟨h, fun _ => rfl, .refl s, rfl⟩

theorem Keeps.trans {t u : State} (h : Keeps s t) (k : Keeps t u) : Keeps s u :=
  ⟨k.coherent, fun pa => (k.view pa).trans (h.view pa), h.outside.trans k.outside, k.response.trans h.response⟩

/-- A change of counters, latency, trace or draws keeps everything. -/
theorem Keeps.of_same {t : State} (h : Coherent s) (h1 : t.l1 = s.l1) (h2 : t.l2 = s.l2) (hb : t.bs = s.bs)
    (ho : SameTranslation s t) (hr : t.response = s.response) : Keeps s t :=
  ⟨h.congr ho.1.1 h1 h2 hb, view_congr h1 h2 hb, ho, hr⟩

theorem Keeps.addLat {t : State} (k : Keeps s t) (n : Nat) : Keeps s (t.addLat n) :=
  k.trans (.of_same k.coherent rfl rfl rfl (by simp [SameTranslation, SameControl, SameInputs]) rfl)

@[simp] theorem bsByte_addLat (s : State) (n : Nat) (pa : Addr) : (s.addLat n).bsByte pa = s.bsByte pa := rfl

/-! An L1 line leaves L1 -/

/-- The state once the valid line `L1[i][v]` is written back into its owner `L2[j][x]` and invalidated. -/
def leftL1 (s : State) (i : Fin 64) (v : Fin 8) (j : Fin 256) (x : Fin 8) : State :=
  (s.setLine2 j x { s.line2 j x with data := (s.line1 i v).data, incl := false }).invalidate1 i v

theorem leftL1_line1 (i : Fin 64) (v : Fin 8) (j : Fin 256) (x : Fin 8) (i' : Fin 64) (w : Fin 8) :
    (leftL1 s i v j x).line1 i' w =
      if i' = i ∧ w = v then { s.line1 i v with valid := false } else s.line1 i' w := by
  rw [leftL1, State.invalidate1, line1_setLine1]; rfl

theorem leftL1_line2 (i : Fin 64) (v : Fin 8) (j : Fin 256) (x : Fin 8) (j' : Fin 256) (w : Fin 8) :
    (leftL1 s i v j x).line2 j' w =
      if j' = j ∧ w = x then { s.line2 j x with data := (s.line1 i v).data, incl := false } else s.line2 j' w := by
  rw [leftL1, State.invalidate1, line2_setLine1, line2_setLine2]

theorem leftL1_valid1 {i : Fin 64} {v : Fin 8} {j : Fin 256} {x : Fin 8} {i' : Fin 64} {w : Fin 8} :
    ((leftL1 s i v j x).line1 i' w).valid = true ↔ ¬(i' = i ∧ w = v) ∧ (s.line1 i' w).valid = true := by
  rw [leftL1_line1]; split <;> simp [*]

@[simp] theorem leftL1_block1 (i : Fin 64) (v : Fin 8) (j : Fin 256) (x : Fin 8) (i' : Fin 64) (w : Fin 8) :
    (leftL1 s i v j x).block1 i' w = s.block1 i' w := by
  rw [State.block1, State.block1, leftL1_line1]; split
  · next h => rw [h.1, h.2]
  · rfl

@[simp] theorem leftL1_valid2 (i : Fin 64) (v : Fin 8) (j : Fin 256) (x : Fin 8) (j' : Fin 256) (w : Fin 8) :
    ((leftL1 s i v j x).line2 j' w).valid = (s.line2 j' w).valid := by
  rw [leftL1_line2]; split
  · next h => rw [h.1, h.2]
  · rfl

@[simp] theorem leftL1_block2 (i : Fin 64) (v : Fin 8) (j : Fin 256) (x : Fin 8) (j' : Fin 256) (w : Fin 8) :
    (leftL1 s i v j x).block2 j' w = s.block2 j' w := by
  rw [State.block2, State.block2, leftL1_line2]; split
  · next h => rw [h.1, h.2]
  · rfl

theorem leftL1_incl {i : Fin 64} {v : Fin 8} {j : Fin 256} {x : Fin 8} {j' : Fin 256} {w : Fin 8} :
    ((leftL1 s i v j x).line2 j' w).incl = true ↔ ¬(j' = j ∧ w = x) ∧ (s.line2 j' w).incl = true := by
  rw [leftL1_line2]; split <;> simp [*]

/-- Writing an L1 line back into its owner keeps everything (R217). -/
theorem leftL1_keeps (h : Coherent s) {i : Fin 64} {v : Fin 8} {j : Fin 256} {x : Fin 8}
    (h1 : (s.line1 i v).valid = true) (h2 : (s.line2 j x).valid = true) (hb : s.block2 j x = s.block1 i v) :
    Keeps s (leftL1 s i v j x) := by
  have hI := h.inclusion
  have hI' : Inclusion (leftL1 s i v j x) := by
    refine ⟨?_, ?_, ?_, ?_⟩
    · intro i' w' hv
      rw [leftL1_valid1] at hv
      obtain ⟨j', x', hv', hb', hi'⟩ := hI.owned i' w' hv.2
      refine ⟨j', x', by simpa using hv', by simpa using hb', leftL1_incl.2 ⟨?_, hi'⟩⟩
      rintro ⟨rfl, rfl⟩
      exact hv.1 (hI.distinct1 _ _ _ _ hv.2 h1 (hb'.symm.trans hb))
    · intro j' x' hi
      rw [leftL1_incl] at hi
      obtain ⟨hv', i', w', hv, hb'⟩ := hI.resident j' x' hi.2
      refine ⟨by simpa using hv', i', w', leftL1_valid1.2 ⟨?_, hv⟩, by simpa using hb'⟩
      rintro ⟨rfl, rfl⟩
      exact hi.1 (hI.distinct2 _ _ _ _ hv' h2 (hb'.symm.trans hb.symm))
    · intro i' w' i'' w'' a b e
      rw [leftL1_valid1] at a b
      exact hI.distinct1 _ _ _ _ a.2 b.2 (by simpa using e)
    · intro j' x' j'' x'' a b e
      exact hI.distinct2 _ _ _ _ (by simpa using a) (by simpa using b) (by simpa using e)
  refine ⟨⟨h.config, h.memory, hI', fun j' x' hv => ?_⟩, fun pa => ?_, by
    simp [SameTranslation, SameControl, SameInputs, leftL1, State.invalidate1], rfl⟩
  · rw [leftL1_valid2] at hv
    rw [leftL1_block2]
    exact h.window j' x' hv
  by_cases a : ∃ i' w', Holds1 s pa i' w'
  · obtain ⟨i', w', a⟩ := a
    rw [hI.view1 a]
    by_cases e : i' = i ∧ w' = v
    · obtain ⟨rfl, rfl⟩ := e
      have n : ∀ i'' w'', ¬Holds1 (leftL1 s i' w' j x) pa i'' w'' := fun i'' w'' c => by
        have c1 := leftL1_valid1.1 c.1
        exact c1.1 (hI.unique1 (pa := pa) ⟨c1.2, by simpa using c.2⟩ a)
      rw [hI'.view2 (j := j) (x := x) n ⟨by simpa using h2, by simpa using hb.trans a.2⟩, leftL1_line2]
      simp
    · rw [hI'.view1 (i := i') (w := w') ⟨leftL1_valid1.2 ⟨e, a.1⟩, by simpa using a.2⟩, leftL1_line1, if_neg e]
  · have n : ∀ i' w', ¬Holds1 s pa i' w' := fun i' w' c => a ⟨i', w', c⟩
    have n' : ∀ i' w', ¬Holds1 (leftL1 s i v j x) pa i' w' := fun i' w' c =>
      n i' w' ⟨(leftL1_valid1.1 c.1).2, by simpa using c.2⟩
    by_cases c : ∃ j' x', Holds2 s pa j' x'
    · obtain ⟨j', x', c⟩ := c
      have e : ¬(j' = j ∧ x' = x) := by
        rintro ⟨rfl, rfl⟩
        exact n i v ⟨h1, hb.symm.trans c.2⟩
      rw [hI.view2 n c, hI'.view2 (j := j') (x := x') n' ⟨by simpa using c.1, by simpa using c.2⟩, leftL1_line2, if_neg e]
    · rw [view_bs n fun j' x' d => c ⟨j', x', d⟩,
        view_bs n' fun j' x' d => c ⟨j', x', by simpa using d.1, by simpa using d.2⟩]; rfl

/-- An L1 write-back finds the owner (R217, R44 (a)). -/
theorem writeBack1_owned (h : Inclusion s) {i : Fin 64} {v : Fin 8} (hv : (s.line1 i v).valid = true) :
    ∃ j x, (s.line2 j x).valid = true ∧ s.block2 j x = s.block1 i v ∧ (s.line2 j x).incl = true ∧
      lookup2 s (s.block1 i v) = some x ∧ l2Index (s.block1 i v) = j := by
  obtain ⟨j, x, h2, hb, hi⟩ := h.owned i v hv
  have a : Holds2 s (s.block1 i v) j x := ⟨h2, hb.trans (blockOf_l1BlockAddr _ _).symm⟩
  exact ⟨j, x, h2, hb, hi, h.lookup2_eq a, (holds2_index a).symm⟩

/-- The eviction of an L1 way returns, with the way invalid and every other L1 line as it was (R212). -/
theorem evict1_ok (h : Coherent s) (i : Fin 64) (v : Fin 8) :
    ∃ t, evict1 i v s = .ok () t ∧ Keeps s t ∧ (t.line1 i v).valid = false ∧
      (∀ i' w, ¬(i' = i ∧ w = v) → t.line1 i' w = s.line1 i' w) ∧ t = { s with l1 := t.l1, l2 := t.l2 } := by
  rw [evict1]
  split
  · next hv =>
    obtain ⟨j, x, h2, hb, -, hl, hj⟩ := writeBack1_owned h.inclusion hv
    refine ⟨leftL1 s i v j x, ?_, leftL1_keeps h hv h2 hb, by simp [leftL1_line1],
      fun i' w e => by rw [leftL1_line1, if_neg e], rfl⟩
    simp only [writeBack1]
    rw [← State.block1, hl]
    simp [hj, leftL1, State.invalidate1]
  · next hv => exact ⟨s, rfl, .refl h, by simpa using hv, fun _ _ _ => rfl, rfl⟩

/-- One line of `FlushAll(L1)` does what an eviction of it does (R146, R212). -/
theorem flushLine1_eq (h : Coherent s) (i : Fin 64) (v : Fin 8) : flushLine1 i v s = evict1 i v s := by
  rw [flushLine1, evict1]
  split
  · next hv =>
    obtain ⟨j, x, -, -, -, hl, hj⟩ := writeBack1_owned h.inclusion hv
    have hl' : lookup2 (s.invalidate1 i v) (s.block1 i v) = some x := (lookup2_congr (s := s) rfl _).trans hl
    simp only [writeBack1]
    rw [← State.block1, hl, hl']
    simp only [Run.bind_ok, hj]
    rfl
  · rfl

/-! An L2 line is written back -/

/-- The byte list once the line `L2[j][u]` is written back. Irreducible, so that Lean does not run the 64 writes when it
compares states. -/
@[irreducible] def wroteBytes (s : State) (j : Fin 256) (u : Fin 8) : List Host.Cell :=
  Memory.writeBytes s.bs (s.block2 j u) (blockGet (s.line2 j u).data 0 64)

theorem wroteBytes_eq (s : State) (j : Fin 256) (u : Fin 8) : wroteBytes s j u =
    Memory.writeBytes s.bs (s.block2 j u) (blockGet (s.line2 j u).data 0 64) := by rw [wroteBytes]

/-- The state once the valid line `L2[j][u]` is written back to the Backing Store. -/
def wroteL2 (s : State) (j : Fin 256) (u : Fin 8) : State :=
  (s.setBs (wroteBytes s j u)).appendTrace (s.block2 j u) .write

@[simp] theorem wroteL2_cfg (s : State) (j : Fin 256) (u : Fin 8) : (wroteL2 s j u).cfg = s.cfg := rfl
@[simp] theorem wroteL2_l1 (s : State) (j : Fin 256) (u : Fin 8) : (wroteL2 s j u).l1 = s.l1 := rfl
@[simp] theorem wroteL2_l2 (s : State) (j : Fin 256) (u : Fin 8) : (wroteL2 s j u).l2 = s.l2 := rfl
theorem wroteL2_bs (s : State) (j : Fin 256) (u : Fin 8) : (wroteL2 s j u).bs = wroteBytes s j u := rfl

theorem block2_blockOf (s : State) (j : Fin 256) (u : Fin 8) : blockOf (s.block2 j u) = s.block2 j u :=
  blockOf_l2BlockAddr _ _

theorem writeBack2_ok (hc : s.cfg.wf) (hw : LinesInWindow s) {j : Fin 256} {u : Fin 8}
    (hv : (s.line2 j u).valid = true) : writeBack2 (s.line2 j u) j s = .ok () (wroteL2 s j u) := by
  have := bsWriteBlock_ok (ε := Unit) (s := s) hc (hw j u hv) (s.line2 j u).data
  rw [block2_blockOf] at this
  simp only [writeBack2]
  rw [← State.block2, this, ← wroteBytes_eq]; rfl

theorem wroteL2_bsByte (h : Coherent s) (j : Fin 256) (u : Fin 8) (pa : Addr) :
    (wroteL2 s j u).bsByte pa =
      if blockOf pa = s.block2 j u then blockByte (s.line2 j u).data (blockOffset pa) else s.bsByte pa := by
  have := read_writeBlock h.memory (s.block2 j u) (s.line2 j u).data pa
  rw [block2_blockOf] at this
  rw [State.bsByte, wroteL2_bs, wroteBytes_eq, this]; rfl

/-- Writing an L2 line back keeps everything (R218). -/
theorem wroteL2_keeps (h : Coherent s) {j : Fin 256} {u : Fin 8} (hv : (s.line2 j u).valid = true) :
    Keeps s (wroteL2 s j u) := by
  have hI := h.inclusion
  have hI' : Inclusion (wroteL2 s j u) := hI.congr rfl rfl
  refine ⟨⟨h.config, by rw [wroteL2_bs, wroteBytes_eq]; exact Memory.wf_writeBytes h.memory _ _, hI', h.window.congr rfl rfl⟩,
    fun pa => ?_, by simp [SameTranslation, SameControl, SameInputs, wroteL2], rfl⟩
  by_cases a : ∃ i w, Holds1 s pa i w
  · obtain ⟨i, w, a⟩ := a
    rw [hI.view1 a, hI'.view1 (i := i) (w := w) a]; rfl
  · have n : ∀ i w, ¬Holds1 s pa i w := fun i w c => a ⟨i, w, c⟩
    by_cases c : ∃ j' x, Holds2 s pa j' x
    · obtain ⟨j', x, c⟩ := c
      rw [hI.view2 n c, hI'.view2 (j := j') (x := x) n c]; rfl
    · have n2 : ∀ j' x, ¬Holds2 s pa j' x := fun j' x d => c ⟨j', x, d⟩
      rw [view_bs n n2, view_bs (s := wroteL2 s j u) n n2, wroteL2_bsByte h,
        if_neg fun e => n2 j u ⟨hv, e.symm⟩]

/-- The eviction of an L2 way returns, with the Backing Store holding the bytes of the block of the way (R215). -/
theorem evict2_ok (h : Coherent s) (j : Fin 256) (u : Fin 8) :
    ∃ t, evict2 j u s = .ok () t ∧ Keeps s t ∧ t.l1 = s.l1 ∧ t.l2 = s.l2 ∧
      ((s.line2 j u).valid = true →
        ∀ pa, blockOf pa = s.block2 j u → t.bsByte pa = blockByte (s.line2 j u).data (blockOffset pa)) := by
  rw [evict2]
  split
  · next hv =>
    rw [writeBack2_ok h.config h.window hv, Run.bind_ok]
    refine ⟨_, rfl, (wroteL2_keeps h hv).addLat _, wroteL2_l1 s j u, wroteL2_l2 s j u, fun _ pa e => ?_⟩
    rw [bsByte_addLat, wroteL2_bsByte h, if_pos e]
  · next hv => exact ⟨s, rfl, .refl h, rfl, rfl, fun c => absurd c hv⟩

/-! Refills -/

/-- The state once the block of `pa`, held by no L1 line, is copied from its L2 line into L1. -/
theorem fillFromL2_ok (h : Coherent s) {pa : Addr} {v x : Fin 8} (hv : (s.line1 (l1Index pa) v).valid = false)
    (n : lookup1 s pa = none) (a : lookup2 s pa = some x) :
    ∃ t, fillFromL2 pa v x s = .ok v t ∧ Keeps s t ∧ Holds1 t pa (l1Index pa) v := by
  have hI := h.inclusion
  have a2 := lookup2_holds a
  have n1 := lookup1_none_iff.1 n
  obtain ⟨t, ht⟩ : ∃ t, (refill1 pa v (s.line2 (l2Index pa) x).data ((s.addLat s.cfg.latL2Hit).bumpL2Hit)).setIncl
    (l2Index pa) x true = t := ⟨_, rfl⟩
  refine ⟨t, by rw [← ht]; rfl, ?_⟩
  have e1 : ∀ i w, t.line1 i w =
      if i = l1Index pa ∧ w = v then ⟨true, l1Tag pa, (s.line2 (l2Index pa) x).data⟩ else s.line1 i w := by
    intro i w; rw [← ht, State.setIncl, line1_setLine2, refill1, line1_setLine1]; rfl
  have e2 : ∀ j w, t.line2 j w =
      if j = l2Index pa ∧ w = x then { s.line2 (l2Index pa) x with incl := true } else s.line2 j w := by
    intro j w; rw [← ht, State.setIncl, line2_setLine2]; rfl
  have same2 : ∀ j w, (t.line2 j w).valid = (s.line2 j w).valid ∧ t.block2 j w = s.block2 j w ∧
      (t.line2 j w).data = (s.line2 j w).data := by
    intro j w
    rw [State.block2, State.block2, e2]
    split
    · next c => rw [c.1, c.2]; exact ⟨rfl, rfl, rfl⟩
    · exact ⟨rfl, rfl, rfl⟩
  have new1 : Holds1 t pa (l1Index pa) v := by
    refine ⟨by rw [e1, if_pos ⟨rfl, rfl⟩], ?_⟩
    rw [State.block1, e1, if_pos ⟨rfl, rfl⟩]; exact l1BlockAddr_of pa
  have old1 : ∀ i w, ¬(i = l1Index pa ∧ w = v) →
      (t.line1 i w = s.line1 i w ∧ t.block1 i w = s.block1 i w) := by
    intro i w c; rw [State.block1, State.block1, e1, if_neg c]; exact ⟨rfl, rfl⟩
  have place : ∀ i w, (s.line1 i w).valid = true → ¬(i = l1Index pa ∧ w = v) := by
    rintro i w c ⟨rfl, rfl⟩; rw [hv] at c; cases c
  have hI' : Inclusion t := by
    refine ⟨?_, ?_, ?_, ?_⟩
    · intro i w c
      by_cases d : i = l1Index pa ∧ w = v
      · obtain ⟨rfl, rfl⟩ := d
        exact ⟨l2Index pa, x, (same2 _ _).1.trans a2.1, ((same2 _ _).2.1.trans a2.2).trans new1.2.symm,
          by rw [e2, if_pos ⟨rfl, rfl⟩]⟩
      · rw [(old1 i w d).1] at c
        obtain ⟨j, y, c1, c2, c3⟩ := hI.owned i w c
        refine ⟨j, y, (same2 _ _).1.trans c1, ((same2 _ _).2.1.trans c2).trans (old1 i w d).2.symm, ?_⟩
        rw [e2]; split
        · rfl
        · exact c3
    · intro j y c
      by_cases d : j = l2Index pa ∧ y = x
      · obtain ⟨rfl, rfl⟩ := d
        exact ⟨(same2 _ _).1.trans a2.1, l1Index pa, v, new1.1, new1.2.trans (a2.2.symm.trans (same2 _ _).2.1.symm)⟩
      · rw [e2, if_neg d] at c
        obtain ⟨c1, i, w, c2, c3⟩ := hI.resident j y c
        have p := old1 i w (place i w c2)
        exact ⟨(same2 _ _).1.trans c1, i, w, by rw [p.1]; exact c2, p.2.trans (c3.trans (same2 _ _).2.1.symm)⟩
    · intro i w i' w' c c' e
      by_cases d : i = l1Index pa ∧ w = v <;> by_cases d' : i' = l1Index pa ∧ w' = v
      · exact ⟨d.1.trans d'.1.symm, d.2.trans d'.2.symm⟩
      · obtain ⟨rfl, rfl⟩ := d
        rw [(old1 i' w' d').1] at c'
        exact absurd ⟨c', (old1 i' w' d').2.symm.trans (e.symm.trans new1.2)⟩ (n1 i' w')
      · obtain ⟨rfl, rfl⟩ := d'
        rw [(old1 i w d).1] at c
        exact absurd ⟨c, (old1 i w d).2.symm.trans (e.trans new1.2)⟩ (n1 i w)
      · rw [(old1 i w d).1] at c
        rw [(old1 i' w' d').1] at c'
        exact hI.distinct1 _ _ _ _ c c' ((old1 i w d).2.symm.trans (e.trans (old1 i' w' d').2))
    · intro j y j' y' c c' e
      exact hI.distinct2 _ _ _ _ ((same2 _ _).1.symm.trans c) ((same2 _ _).1.symm.trans c')
        ((same2 _ _).2.1.symm.trans (e.trans (same2 _ _).2.1))
  refine ⟨⟨⟨?_, ?_, hI', ?_⟩, fun pb => ?_, ?_, ?_⟩, new1⟩
  · rw [← ht]; exact h.config
  · rw [← ht]; exact h.memory
  · intro j y c
    rw [(same2 j y).2.1, ← ht]
    exact h.window j y ((same2 _ _).1.symm.trans c)
  · by_cases d : blockOf pb = blockOf pa
    · have m1 : ∀ i w, ¬Holds1 s pb i w := fun i w c => n1 i w ⟨c.1, c.2.trans d⟩
      rw [hI.view2 (j := l2Index pa) (x := x) m1 ⟨a2.1, a2.2.trans d.symm⟩,
        hI'.view1 (i := l1Index pa) (w := v) ⟨new1.1, new1.2.trans d.symm⟩, e1, if_pos ⟨rfl, rfl⟩]
    · have q : ∀ i w, Holds1 t pb i w ↔ Holds1 s pb i w := by
        intro i w
        by_cases c : i = l1Index pa ∧ w = v
        · obtain ⟨rfl, rfl⟩ := c
          exact ⟨fun c => absurd (c.2.symm.trans new1.2) d, fun c => absurd c.1 (by simp [hv])⟩
        · rw [Holds1, Holds1, (old1 i w c).1, (old1 i w c).2]
      have q2 : ∀ j y, Holds2 t pb j y ↔ Holds2 s pb j y := fun j y => by
        rw [Holds2, Holds2, (same2 j y).1, (same2 j y).2.1]
      by_cases b : ∃ i w, Holds1 s pb i w
      · obtain ⟨i, w, b⟩ := b
        rw [hI.view1 b, hI'.view1 ((q i w).2 b), (old1 i w (place i w b.1)).1]
      · have m : ∀ i w, ¬Holds1 s pb i w := fun i w c => b ⟨i, w, c⟩
        have m' : ∀ i w, ¬Holds1 t pb i w := fun i w c => m i w ((q i w).1 c)
        by_cases b2 : ∃ j y, Holds2 s pb j y
        · obtain ⟨j, y, b2⟩ := b2
          rw [hI.view2 m b2, hI'.view2 m' ((q2 j y).2 b2), (same2 j y).2.2]
        · rw [view_bs m fun j y c => b2 ⟨j, y, c⟩, view_bs m' fun j y c => b2 ⟨j, y, (q2 j y).1 c⟩, ← ht]; rfl
  · rw [← ht]; simp [SameTranslation, SameControl, SameInputs, State.setIncl, refill1]
  · rw [← ht]; rfl

/-- The block read of an L2 miss out of the window is refused (R124, R215). -/
theorem fillFromBs_refused (hc : s.cfg.wf) {pa : Addr} (hp : bsValid s.cfg pa = false) (v u : Fin 8) :
    fillFromBs pa v u s = .refuse .outsideBackingStore := by
  rw [fillFromBs, bsReadBlock_refused hc hp]; rfl

/-- The refills of an L2 miss: the block of `pa`, held by no line, is read into an L2 way that holds nothing newer than the
Backing Store and into an invalid L1 way (R215). -/
theorem fillFromBs_ok (h : Coherent s) {pa : Addr} (hp : bsValid s.cfg pa = true) {v u : Fin 8}
    (hv : (s.line1 (l1Index pa) v).valid = false) (hu : (s.line2 (l2Index pa) u).incl = false)
    (n2 : ∀ j x, ¬Holds2 s pa j x)
    (hb : (s.line2 (l2Index pa) u).valid = true → ∀ pb, blockOf pb = s.block2 (l2Index pa) u →
      s.bsByte pb = blockByte (s.line2 (l2Index pa) u).data (blockOffset pb)) :
    ∃ t, fillFromBs pa v u s = .ok v t ∧ Keeps s t ∧ Holds1 t pa (l1Index pa) v := by
  have hI := h.inclusion
  have n1 := hI.not_holds1 n2
  rw [fillFromBs, bsReadBlock_ok h.config hp]
  simp only [Run.bind_ok]
  generalize hd : (blockOfFn fun k => s.bsByte (blockOf pa + BitVec.ofNat 64 k)) = d
  have hdb : ∀ pb, blockOf pb = blockOf pa → blockByte d (blockOffset pb) = s.bsByte pb := by
    intro pb e
    rw [← hd, blockByte_ofFn _ (blockOffset_lt pb), ← e, blockOf_add_offset]
  obtain ⟨t, ht⟩ : ∃ t, refill1 pa v d (refill2 pa u d true
    ((s.appendTrace (blockOf pa) .read).addLat (s.appendTrace (blockOf pa) .read).cfg.latL2Miss)) = t := ⟨_, rfl⟩
  refine ⟨t, by rw [← ht]; rfl, ?_⟩
  have e1 : ∀ i w, t.line1 i w = if i = l1Index pa ∧ w = v then ⟨true, l1Tag pa, d⟩ else s.line1 i w := by
    intro i w; rw [← ht, refill1, line1_setLine1]; rfl
  have e2 : ∀ j w, t.line2 j w = if j = l2Index pa ∧ w = u then ⟨true, l2Tag pa, d, true⟩ else s.line2 j w := by
    intro j w; rw [← ht, refill1, line2_setLine1, refill2, line2_setLine2]; rfl
  have new1 : Holds1 t pa (l1Index pa) v := by
    refine ⟨by rw [e1, if_pos ⟨rfl, rfl⟩], ?_⟩
    rw [State.block1, e1, if_pos ⟨rfl, rfl⟩]; exact l1BlockAddr_of pa
  have new2 : Holds2 t pa (l2Index pa) u := by
    refine ⟨by rw [e2, if_pos ⟨rfl, rfl⟩], ?_⟩
    rw [State.block2, e2, if_pos ⟨rfl, rfl⟩]; exact l2BlockAddr_of pa
  have old1 : ∀ i w, ¬(i = l1Index pa ∧ w = v) → t.line1 i w = s.line1 i w ∧ t.block1 i w = s.block1 i w := by
    intro i w c; rw [State.block1, State.block1, e1, if_neg c]; exact ⟨rfl, rfl⟩
  have old2 : ∀ j x, ¬(j = l2Index pa ∧ x = u) → t.line2 j x = s.line2 j x ∧ t.block2 j x = s.block2 j x := by
    intro j x c; rw [State.block2, State.block2, e2, if_neg c]; exact ⟨rfl, rfl⟩
  have place1 : ∀ i w, (s.line1 i w).valid = true → ¬(i = l1Index pa ∧ w = v) := by
    rintro i w c ⟨rfl, rfl⟩; rw [hv] at c; cases c
  have place2 : ∀ j x, (s.line2 j x).incl = true → ¬(j = l2Index pa ∧ x = u) := by
    rintro j x c ⟨rfl, rfl⟩; rw [hu] at c; cases c
  have hI' : Inclusion t := by
    refine ⟨?_, ?_, ?_, ?_⟩
    · intro i w c
      by_cases e : i = l1Index pa ∧ w = v
      · obtain ⟨rfl, rfl⟩ := e
        exact ⟨l2Index pa, u, new2.1, new2.2.trans new1.2.symm, by rw [e2, if_pos ⟨rfl, rfl⟩]⟩
      · rw [(old1 i w e).1] at c
        obtain ⟨j, y, c1, c2, c3⟩ := hI.owned i w c
        have p := old2 j y (place2 j y c3)
        exact ⟨j, y, by rw [p.1]; exact c1, p.2.trans (c2.trans (old1 i w e).2.symm), by rw [p.1]; exact c3⟩
    · intro j y c
      by_cases e : j = l2Index pa ∧ y = u
      · obtain ⟨rfl, rfl⟩ := e
        exact ⟨new2.1, l1Index pa, v, new1.1, new1.2.trans new2.2.symm⟩
      · rw [(old2 j y e).1] at c
        obtain ⟨c1, i, w, c2, c3⟩ := hI.resident j y c
        have p := old1 i w (place1 i w c2)
        exact ⟨by rw [(old2 j y e).1]; exact c1, i, w, by rw [p.1]; exact c2, p.2.trans (c3.trans (old2 j y e).2.symm)⟩
    · intro i w i' w' c c' e
      by_cases d : i = l1Index pa ∧ w = v <;> by_cases d' : i' = l1Index pa ∧ w' = v
      · exact ⟨d.1.trans d'.1.symm, d.2.trans d'.2.symm⟩
      · obtain ⟨rfl, rfl⟩ := d
        rw [(old1 i' w' d').1] at c'
        exact absurd ⟨c', (old1 i' w' d').2.symm.trans (e.symm.trans new1.2)⟩ (n1 i' w')
      · obtain ⟨rfl, rfl⟩ := d'
        rw [(old1 i w d).1] at c
        exact absurd ⟨c, (old1 i w d).2.symm.trans (e.trans new1.2)⟩ (n1 i w)
      · rw [(old1 i w d).1] at c
        rw [(old1 i' w' d').1] at c'
        exact hI.distinct1 _ _ _ _ c c' ((old1 i w d).2.symm.trans (e.trans (old1 i' w' d').2))
    · intro i w i' w' c c' e
      by_cases d : i = l2Index pa ∧ w = u <;> by_cases d' : i' = l2Index pa ∧ w' = u
      · exact ⟨d.1.trans d'.1.symm, d.2.trans d'.2.symm⟩
      · obtain ⟨rfl, rfl⟩ := d
        rw [(old2 i' w' d').1] at c'
        exact absurd ⟨c', (old2 i' w' d').2.symm.trans (e.symm.trans new2.2)⟩ (n2 i' w')
      · obtain ⟨rfl, rfl⟩ := d'
        rw [(old2 i w d).1] at c
        exact absurd ⟨c, (old2 i w d).2.symm.trans (e.trans new2.2)⟩ (n2 i w)
      · rw [(old2 i w d).1] at c
        rw [(old2 i' w' d').1] at c'
        exact hI.distinct2 _ _ _ _ c c' ((old2 i w d).2.symm.trans (e.trans (old2 i' w' d').2))
  have tcfg : t.cfg = s.cfg := by rw [← ht]; rfl
  have tbs : ∀ pb, t.bsByte pb = s.bsByte pb := fun pb => by rw [← ht]; rfl
  refine ⟨⟨⟨?_, ?_, hI', ?_⟩, fun pb => ?_, ?_, ?_⟩, new1⟩
  · rw [tcfg]; exact h.config
  · rw [← ht]; exact h.memory
  · intro j y c
    by_cases e : j = l2Index pa ∧ y = u
    · obtain ⟨rfl, rfl⟩ := e
      rw [new2.2, tcfg, bsValid_block h.config (blockOf_blockOf pa), hp]
    · rw [(old2 j y e).1] at c
      rw [(old2 j y e).2, tcfg]
      exact h.window j y c
  · by_cases e : blockOf pb = blockOf pa
    · rw [hI'.view1 (i := l1Index pa) (w := v) ⟨new1.1, new1.2.trans e.symm⟩, e1, if_pos ⟨rfl, rfl⟩]
      rw [view_bs (fun i w c => n1 i w ⟨c.1, c.2.trans e⟩) (fun j x c => n2 j x ⟨c.1, c.2.trans e⟩)]
      exact hdb pb e
    · by_cases b : ∃ i w, Holds1 s pb i w
      · obtain ⟨i, w, b⟩ := b
        have p := old1 i w (place1 i w b.1)
        rw [hI.view1 b, hI'.view1 (i := i) (w := w) ⟨by rw [p.1]; exact b.1, p.2.trans b.2⟩, p.1]
      · have m : ∀ i w, ¬Holds1 s pb i w := fun i w c => b ⟨i, w, c⟩
        have m' : ∀ i w, ¬Holds1 t pb i w := by
          intro i w c
          by_cases f : i = l1Index pa ∧ w = v
          · obtain ⟨rfl, rfl⟩ := f; exact e (c.2.symm.trans new1.2)
          · exact m i w ⟨by rw [← (old1 i w f).1]; exact c.1, (old1 i w f).2.symm.trans c.2⟩
        have keep2 : ∀ j x, Holds2 t pb j x → Holds2 s pb j x ∧ ¬(j = l2Index pa ∧ x = u) := by
          intro j x c
          by_cases f : j = l2Index pa ∧ x = u
          · obtain ⟨rfl, rfl⟩ := f; exact absurd (c.2.symm.trans new2.2) e
          · exact ⟨⟨by rw [← (old2 j x f).1]; exact c.1, (old2 j x f).2.symm.trans c.2⟩, f⟩
        by_cases b2 : ∃ j x, Holds2 s pb j x
        · obtain ⟨j, x, b2⟩ := b2
          rw [hI.view2 m b2]
          by_cases f : j = l2Index pa ∧ x = u
          · obtain ⟨rfl, rfl⟩ := f
            rw [view_bs m' fun j x c => (keep2 j x c).2 (hI.unique2 (keep2 j x c).1 b2), tbs]
            exact hb b2.1 pb b2.2.symm
          · rw [hI'.view2 (j := j) (x := x) m'
              ⟨by rw [(old2 j x f).1]; exact b2.1, (old2 j x f).2.trans b2.2⟩, (old2 j x f).1]
        · rw [view_bs m fun j x c => b2 ⟨j, x, c⟩, view_bs m' fun j x c => b2 ⟨j, x, (keep2 j x c).1⟩, tbs]
  · rw [← ht]; simp [SameTranslation, SameControl, SameInputs, refill1, refill2]
  · rw [← ht]; rfl

/-! There is always a victim -/

/-- While a way of the L1 set of `pa` is invalid, some way of its L2 set is eligible (R222). -/
theorem victim2_exists (h : Inclusion s) {pa : Addr} {v : Fin 8} (hv : (s.line1 (l1Index pa) v).valid = false) :
    ∃ u, victim2 s (l2Index pa) = some u := by
  cases e : victim2 s (l2Index pa) with
  | some u => exact ⟨u, rfl⟩
  | none =>
    rw [victim2_none] at e
    have hl : ∀ x, ∃ w, (s.line1 (l1Index pa) w).valid = true ∧
        s.block1 (l1Index pa) w = s.block2 (l2Index pa) x := by
      intro x
      obtain ⟨-, i, w, hw, hb⟩ := h.resident _ x (e x)
      have : i = l1Index pa := by
        have := congrArg BitVec.toNat hb
        rw [State.block1, State.block2, l1BlockAddr_toNat, l2BlockAddr_toNat, l2Index_val] at this
        rw [Fin.ext_iff, l1Index_val]
        have := i.isLt
        omega
      subst this
      exact ⟨w, hw, hb⟩
    choose f hf hb using hl
    have inj : Function.Injective f := fun x x' c =>
      (h.distinct2 _ _ _ _ (h.resident _ x (e x)).1 (h.resident _ x' (e x')).1
        ((hb x).symm.trans (c ▸ hb x'))).2
    obtain ⟨x, rfl⟩ := Finite.injective_iff_surjective.1 inj v
    have := hf x
    rw [hv] at this
    cases this

/-! `AcquireLine` -/

theorem tookL1Draw_keeps (h : Coherent s) : Keeps s s.tookL1Draw := by
  refine .of_same h ?_ ?_ ?_ ?_ ?_ <;>
    · rw [State.tookL1Draw]; split <;> simp [SameTranslation, SameControl, SameInputs]

theorem tookL2Draw_keeps (h : Coherent s) : Keeps s s.tookL2Draw := by
  refine .of_same h ?_ ?_ ?_ ?_ ?_ <;>
    · rw [State.tookL2Draw]; split <;> simp [SameTranslation, SameControl, SameInputs]

theorem tookL2Draw_lines (s : State) : s.tookL2Draw.l1 = s.l1 ∧ s.tookL2Draw.l2 = s.l2 := by
  rw [State.tookL2Draw]; split <;> exact ⟨rfl, rfl⟩

/-- The state in which the Backing Store is consulted by an L2 miss, as far as it matters: nothing newer than the Backing
Store in the L2 way, no line holding the block, the L1 way invalid (R215). -/
theorem missL2_reaches (h : Coherent s) {pa : Addr} {v : Fin 8} (hv : (s.line1 (l1Index pa) v).valid = false)
    (n : lookup2 s pa = none) :
    ∃ u t, missL2 pa v s = fillFromBs pa v u t ∧ Keeps s t ∧ (t.line1 (l1Index pa) v).valid = false ∧
      (t.line2 (l2Index pa) u).incl = false ∧ (∀ j x, ¬Holds2 t pa j x) ∧
      ((t.line2 (l2Index pa) u).valid = true → ∀ pb, blockOf pb = t.block2 (l2Index pa) u →
        t.bsByte pb = blockByte (t.line2 (l2Index pa) u).data (blockOffset pb)) := by
  have k0 : Keeps s s.bumpL2Miss := .of_same h rfl rfl rfl (by simp [SameTranslation, SameControl, SameInputs]) rfl
  obtain ⟨u, hu⟩ := victim2_exists (s := s.bumpL2Miss) k0.coherent.inclusion (v := v) hv
  have k1 := k0.trans (tookL2Draw_keeps k0.coherent)
  have l := tookL2Draw_lines s.bumpL2Miss
  obtain ⟨t, e, k2, e1, e2, hb⟩ := evict2_ok k1.coherent (l2Index pa) u
  have f1 : t.l1 = s.l1 := e1.trans l.1
  have f2 : t.l2 = s.l2 := e2.trans l.2
  have b2 : ∀ j x, t.block2 j x = s.block2 j x := fun j x => by rw [State.block2, State.block2, line2_congr f2]
  refine ⟨u, t, ?_, k1.trans k2, by rw [line1_congr f1]; exact hv, by rw [line2_congr f2]; exact victim2_some hu, ?_, ?_⟩
  · rw [missL2]; simp only [hu, e]; rfl
  · intro j x c
    refine lookup2_none_iff.1 n j x ⟨by rw [← line2_congr f2]; exact c.1, (b2 j x).symm.trans c.2⟩
  · rw [line2_congr f2, b2]
    rw [line2_congr l.2] at hb
    have hb2 : s.bumpL2Miss.tookL2Draw.block2 (l2Index pa) u = s.block2 (l2Index pa) u := by
      rw [State.block2, State.block2, line2_congr l.2]; rfl
    rw [hb2] at hb
    exact hb

/-- After the L1 victim of a miss is dealt with, the way of the victim is invalid and L1 still does not hold the block. -/
theorem missL1_reaches (h : Coherent s) {pa : Addr} (n : lookup1 s pa = none) :
    ∃ v t, missL1 pa s = consultL2 pa v t ∧ Keeps s t ∧ (t.line1 (l1Index pa) v).valid = false ∧
      lookup1 t pa = none := by
  have k0 : Keeps s s.bumpL1Miss := .of_same h rfl rfl rfl (by simp [SameTranslation, SameControl, SameInputs]) rfl
  have k1 := k0.trans (tookL1Draw_keeps k0.coherent)
  have l : s.bumpL1Miss.tookL1Draw.l1 = s.l1 := by rw [State.tookL1Draw]; split <;> rfl
  obtain ⟨t, e, k2, hv, ho, -⟩ := evict1_ok k1.coherent (l1Index pa) (victim1 s.bumpL1Miss)
  refine ⟨victim1 s.bumpL1Miss, t.addLat t.cfg.latL1Check, ?_, (k1.trans k2).addLat _, hv, ?_⟩
  · rw [missL1]; simp only [e, Run.bind_ok]
  · rw [lookup1_none] at n ⊢
    intro w c
    by_cases d : w = victim1 s.bumpL1Miss
    · subst d; rw [show (t.addLat t.cfg.latL1Check).line1 _ _ = t.line1 _ _ from rfl, hv] at c; cases c
    · have := ho (l1Index pa) w (fun c => d c.2)
      rw [line1_congr l] at this
      rw [show (t.addLat t.cfg.latL1Check).line1 _ _ = t.line1 _ _ from rfl, this] at c ⊢
      exact n w c

/-- `AcquireLine` in the window returns a way that holds the block, and keeps everything (R210, R72). -/
theorem acquireLine_ok (h : Coherent s) {pa : Addr} (hp : bsValid s.cfg pa = true) :
    ∃ w t, acquireLine pa s = .ok w t ∧ Keeps s t ∧ Holds1 t pa (l1Index pa) w := by
  cases e : lookup1 s pa with
  | some w =>
    refine ⟨w, (s.addLat s.cfg.latL1Hit).bumpL1Hit, by rw [acquireLine, e], ?_, lookup1_holds e⟩
    exact .of_same h rfl rfl rfl (by simp [SameTranslation, SameControl, SameInputs]) rfl
  | none =>
    obtain ⟨v, t, e1, k1, hv, n⟩ := missL1_reaches h e
    rw [acquireLine, e]
    simp only [e1, consultL2]
    cases e2 : lookup2 t pa with
    | some x =>
      obtain ⟨u, f, k2, a⟩ := fillFromL2_ok k1.coherent hv n e2
      exact ⟨v, u, f, k1.trans k2, a⟩
    | none =>
      obtain ⟨u, t2, f, k2, hv2, hu, n2, hb⟩ := missL2_reaches k1.coherent hv e2
      have hp2 : bsValid t2.cfg pa = true := by rw [(k1.trans k2).outside.1.1]; exact hp
      obtain ⟨t3, g, k3, a⟩ := fillFromBs_ok k2.coherent hp2 hv2 hu n2 hb
      exact ⟨v, t3, f.trans g, (k1.trans k2).trans k3, a⟩

/-- `AcquireLine` out of the window is refused: no such block is ever cached (R124, R341). -/
theorem acquireLine_refused (h : Coherent s) {pa : Addr} (hp : bsValid s.cfg pa = false) :
    acquireLine pa s = .refuse .outsideBackingStore := by
  have no : ∀ t, Coherent t → t.cfg = s.cfg → ∀ j x, ¬Holds2 t pa j x := by
    intro t ht hc j x a
    have := ht.window j x a.1
    rw [a.2, hc, bsValid_block h.config (blockOf_blockOf pa), hp] at this
    cases this
  have n1 : lookup1 s pa = none := lookup1_none_iff.2 (h.inclusion.not_holds1 (no s h rfl))
  obtain ⟨v, t, e1, k1, hv, n⟩ := missL1_reaches h n1
  have e2 : lookup2 t pa = none := lookup2_none_iff.2 (no t k1.coherent k1.outside.1.1)
  obtain ⟨u, t2, f, k2, -⟩ := missL2_reaches k1.coherent hv e2
  have c2 : t2.cfg = s.cfg := (k1.trans k2).outside.1.1
  rw [acquireLine, n1]
  simp only [e1, consultL2, e2, f]
  exact fillFromBs_refused k2.coherent.config (by rw [c2]; exact hp) v u

end Sys2Proof.Machine
end

