-- ==== Sys2Proof/Laws/Phase.lean ====
section
/-! SUPPORT. The physical data phase on a coherent state (R238, R239): in the window a read returns the `View` bytes and keeps
everything, a write changes exactly the written bytes of `View`; out of the window it is refused. -/

namespace Sys2Proof.Machine

variable {s : State}

/-! Addresses of consecutive bytes -/

theorem add_ofNat_add (pa : Addr) (a b : Nat) :
    pa + BitVec.ofNat 64 a + BitVec.ofNat 64 b = pa + BitVec.ofNat 64 (a + b) := by
  rw [BitVec.add_assoc]; congr 1
  apply BitVec.eq_of_toNat_eq
  simp

theorem add_one_add (pa : Addr) (k : Nat) : pa + 1 + BitVec.ofNat 64 k = pa + BitVec.ofNat 64 (k + 1) := by
  have := add_ofNat_add pa 1 k
  rwa [Nat.add_comm 1 k] at this

theorem InWindow.tail {cfg : Config} {pa : Addr} {n : Nat} (h : InWindow cfg pa (n + 1)) : InWindow cfg (pa + 1) n :=
  fun k hk => by rw [add_one_add]; exact h (k + 1) (by omega)

theorem InWindow.head {cfg : Config} {pa : Addr} {n : Nat} (h : InWindow cfg pa (n + 1)) : bsValid cfg pa = true := by
  simpa using h 0 (by omega)

theorem viewBytes_succ (s : State) (pa : Addr) (n : Nat) : s.viewBytes pa (n + 1) = s.view pa :: s.viewBytes (pa + 1) n := by
  rw [State.viewBytes, State.viewBytes, List.range_succ_eq_map, List.map_cons, List.map_map]
  congr 1
  · simp
  · exact List.map_congr_left fun k _ => by rw [add_one_add]; rfl

theorem viewBytes_congr {s t : State} (h : ∀ pa, t.view pa = s.view pa) (pa : Addr) (n : Nat) :
    t.viewBytes pa n = s.viewBytes pa n := by
  simp only [State.viewBytes, h]

/-! Reads -/

/-- The bytes of a line that holds them are the `View` bytes. -/
theorem blockGet_view (h : Inclusion s) {pa : Addr} {w : Fin 8} (a : Holds1 s pa (l1Index pa) w) {n : Nat}
    (hn : blockOffset pa + n ≤ 64) :
    blockGet (s.line1 (l1Index pa) w).data (blockOffset pa) n = s.viewBytes pa n := by
  rw [blockGet, State.viewBytes]
  refine List.map_congr_left fun k hk => ?_
  have hk : k < n := List.mem_range.1 hk
  obtain ⟨hb, ho⟩ := blockOf_add (pa := pa) (k := k) (by omega)
  rw [h.view1 (pa := pa + BitVec.ofNat 64 k) ⟨a.1, a.2.trans hb.symm⟩, ho]

/-- One round trip of a read (R238). -/
theorem readLine_ok (h : Coherent s) {pa : Addr} (hp : bsValid s.cfg pa = true) {n : Nat} (hn : blockOffset pa + n ≤ 64) :
    ∃ t, readLine pa n s = .ok (s.viewBytes pa n) t ∧ Keeps s t := by
  obtain ⟨w, t, e, k, a⟩ := acquireLine_ok h hp
  exact ⟨t, by rw [readLine, e, Run.bind_ok, blockGet_view k.coherent.inclusion a hn, viewBytes_congr k.view], k⟩

theorem readLine_refused (h : Coherent s) {pa : Addr} (hp : bsValid s.cfg pa = false) (n : Nat) :
    readLine pa n s = .refuse .outsideBackingStore := by
  rw [readLine, acquireLine_refused h hp]; rfl

theorem readLineBytes_ok (h : Coherent s) {n : Nat} {pa : Addr} (hp : InWindow s.cfg pa n) :
    ∃ t, readLineBytes n pa s = .ok (s.viewBytes pa n) t ∧ Keeps s t := by
  induction n generalizing s pa with
  | zero => exact ⟨s, rfl, .refl h⟩
  | succ n ih =>
    have := blockOffset_lt pa
    obtain ⟨t, e, k⟩ := readLine_ok h hp.head (n := 1) (by omega)
    obtain ⟨u, f, k'⟩ := ih k.coherent (pa := pa + 1) (by rw [k.outside.1.1]; exact hp.tail)
    refine ⟨u, ?_, k.trans k'⟩
    rw [readLineBytes, e, Run.bind_ok, f, Run.bind_ok, viewBytes_congr k.view, viewBytes_succ, viewBytes_succ]
    rfl

/-- A read of bytes in the window returns their `View`, and keeps everything (R72, R238). -/
theorem physRead_ok (h : Coherent s) {pa : Addr} {n : Nat} (hn : 0 < n) (hp : InWindow s.cfg pa n) :
    ∃ t, physRead pa n s = .ok (s.viewBytes pa n) t ∧ Keeps s t := by
  rw [physRead]
  split
  · next c =>
    simp only [oneLine, Bool.and_eq_true, decide_eq_true_eq] at c
    exact readLine_ok h (by simpa using hp 0 hn) c.2
  · exact readLineBytes_ok h hp

/-- A read of bytes returns with everything kept, or is refused; it never fails (R292). -/
theorem physRead_cases (h : Coherent s) (pa : Addr) (n : Nat) :
    (∃ bs t, physRead pa n s = .ok bs t ∧ Keeps s t) ∨ physRead pa n s = .refuse .outsideBackingStore := by
  have line : ∀ {s : State} (_ : Coherent s) (pa : Addr) (n : Nat),
      (∃ bs t, readLine pa n s = .ok bs t ∧ Keeps s t) ∨ readLine pa n s = .refuse .outsideBackingStore := by
    intro s h pa n
    cases hp : bsValid s.cfg pa with
    | true =>
      obtain ⟨w, t, e, k, -⟩ := acquireLine_ok h hp
      exact .inl ⟨_, t, by rw [readLine, e]; rfl, k⟩
    | false => exact .inr (readLine_refused h hp n)
  rw [physRead]
  split
  · exact line h pa n
  · clear * - h line
    induction n generalizing s pa with
    | zero => exact .inl ⟨[], s, rfl, .refl h⟩
    | succ n ih =>
      rw [readLineBytes]
      rcases line h pa 1 with ⟨b, t, e, k⟩ | e
      · rcases ih k.coherent (pa + 1) with ⟨bs, u, f, k'⟩ | f
        · exact .inl ⟨b ++ bs, u, by rw [e, Run.bind_ok, f]; rfl, k.trans k'⟩
        · exact .inr (by rw [e, Run.bind_ok, f]; rfl)
      · exact .inr (by rw [e]; rfl)

/-! Writes -/

/-- What a write of bytes leaves: a coherent state, `View` changed at the written bytes alone, everything outside kept. -/
structure Writes (s t : State) (pa : Addr) (bytes : List Byte) : Prop where
  coherent : Coherent t
  view : ∀ x, t.view x = if (x - pa).toNat < bytes.length then bytes.getD (x - pa).toNat 0 else s.view x
  outside : SameTranslation s t
  response : t.response = s.response

/-- New data in an L1 line that holds the block: the line arrays stay coherent. -/
theorem setData1_coherent (h : Coherent s) (i : Fin 64) (w : Fin 8) (d : Block) :
    Coherent (s.setLine1 i w { s.line1 i w with data := d }) := by
  have e : ∀ i' w', ((s.setLine1 i w { s.line1 i w with data := d }).line1 i' w').valid = (s.line1 i' w').valid ∧
      (s.setLine1 i w { s.line1 i w with data := d }).block1 i' w' = s.block1 i' w' := by
    intro i' w'
    rw [State.block1, State.block1, line1_setLine1]
    split
    · next c => rw [c.1, c.2]; exact ⟨rfl, rfl⟩
    · exact ⟨rfl, rfl⟩
  have hI := h.inclusion
  refine ⟨h.config, h.memory, ⟨fun i' w' c => ?_, fun j x c => ?_, fun i' w' i'' w'' c c' f => ?_, hI.distinct2⟩, h.window⟩
  · obtain ⟨j, x, a, b, c⟩ := hI.owned i' w' ((e i' w').1 ▸ c)
    exact ⟨j, x, a, b.trans (e i' w').2.symm, c⟩
  · obtain ⟨a, i', w', b, f⟩ := hI.resident j x c
    exact ⟨a, i', w', (e i' w').1.trans b, (e i' w').2.trans f⟩
  · exact hI.distinct1 _ _ _ _ ((e _ _).1 ▸ c) ((e _ _).1 ▸ c') (((e _ _).2).symm.trans (f.trans (e _ _).2))

/-- The distance of an address in the block of another is the distance of the offsets. -/
theorem sub_toNat_lt_iff {pa x : Addr} {n : Nat} (hn : blockOffset pa + n ≤ 64) :
    (x - pa).toNat < n ↔ blockOf x = blockOf pa ∧ blockOffset pa ≤ blockOffset x ∧ blockOffset x < blockOffset pa + n := by
  rw [← BitVec.toNat_inj, blockOf_toNat, blockOf_toNat, blockOffset_eq, blockOffset_eq, BitVec.toNat_sub] at *
  have := pa.isLt
  have := x.isLt
  omega

theorem sub_toNat_of_block {pa x : Addr} (hb : blockOf x = blockOf pa) (h : blockOffset pa ≤ blockOffset x) :
    (x - pa).toNat = blockOffset x - blockOffset pa := by
  rw [← BitVec.toNat_inj, blockOf_toNat, blockOf_toNat] at hb
  rw [blockOffset_eq, blockOffset_eq] at *
  rw [BitVec.toNat_sub]
  have := pa.isLt
  have := x.isLt
  omega

/-- One round trip of a write (R239). -/
theorem writeLine_ok (h : Coherent s) {pa : Addr} (hp : bsValid s.cfg pa = true) {bytes : List Byte}
    (hn : blockOffset pa + bytes.length ≤ 64) :
    ∃ t, writeLine pa bytes s = .ok () t ∧ Writes s t pa bytes := by
  obtain ⟨w, t, e, k, a⟩ := acquireLine_ok h hp
  have hI := k.coherent.inclusion
  refine ⟨_, by rw [writeLine, e, Run.bind_ok], setData1_coherent k.coherent _ _ _, fun x => ?_, ?_, k.response⟩
  · have hc := setData1_coherent k.coherent (l1Index pa) w
      (blockSet (t.line1 (l1Index pa) w).data (blockOffset pa) bytes)
    obtain ⟨u, hu⟩ : ∃ u, t.setLine1 (l1Index pa) w { t.line1 (l1Index pa) w with
      data := blockSet (t.line1 (l1Index pa) w).data (blockOffset pa) bytes } = u := ⟨_, rfl⟩
    rw [hu] at hc ⊢
    have e1 : ∀ i' w', u.line1 i' w' = if i' = l1Index pa ∧ w' = w then { t.line1 (l1Index pa) w with
        data := blockSet (t.line1 (l1Index pa) w).data (blockOffset pa) bytes } else t.line1 i' w' := by
      intro i' w'; rw [← hu, line1_setLine1]
    have same : ∀ i' w', Holds1 u x i' w' ↔ Holds1 t x i' w' := by
      intro i' w'
      rw [Holds1, Holds1, State.block1, State.block1, e1]
      split
      · next c => rw [c.1, c.2]
      · rfl
    have same2 : ∀ j y, u.line2 j y = t.line2 j y := fun j y => by rw [← hu, line2_setLine1]
    by_cases c : blockOf x = blockOf pa
    · have at1 : Holds1 t x (l1Index pa) w := ⟨a.1, a.2.trans c.symm⟩
      rw [hc.inclusion.view1 ((same _ _).2 at1), e1, if_pos ⟨rfl, rfl⟩, blockByte_set _ _ _ (blockOffset_lt x),
        ← k.view, hI.view1 at1]
      by_cases d : blockOffset pa ≤ blockOffset x ∧ blockOffset x < blockOffset pa + bytes.length
      · rw [if_pos d, if_pos ((sub_toNat_lt_iff hn).2 ⟨c, d⟩), sub_toNat_of_block c d.1]
      · rw [if_neg d, if_neg fun f => d ((sub_toNat_lt_iff hn).1 f).2]
    · rw [if_neg fun f => c ((sub_toNat_lt_iff hn).1 f).1, ← k.view]
      by_cases b : ∃ i' w', Holds1 t x i' w'
      · obtain ⟨i', w', b⟩ := b
        rw [hc.inclusion.view1 ((same _ _).2 b), hI.view1 b, e1, if_neg]
        rintro ⟨rfl, rfl⟩
        exact c (b.2.symm.trans a.2)
      · have m : ∀ i' w', ¬Holds1 t x i' w' := fun i' w' f => b ⟨i', w', f⟩
        have m' : ∀ i' w', ¬Holds1 u x i' w' := fun i' w' f => m i' w' ((same _ _).1 f)
        have hh : ∀ j y, Holds2 u x j y ↔ Holds2 t x j y := fun j y => by
          rw [Holds2, Holds2, State.block2, State.block2, same2]
        by_cases b2 : ∃ j y, Holds2 t x j y
        · obtain ⟨j, y, b2⟩ := b2
          rw [hc.inclusion.view2 m' ((hh j y).2 b2), hI.view2 m b2, same2]
        · rw [view_bs m fun j y f => b2 ⟨j, y, f⟩, view_bs m' fun j y f => b2 ⟨j, y, (hh j y).1 f⟩, ← hu]; rfl
  · exact k.outside.trans (by simp [SameTranslation, SameControl, SameInputs])

theorem writeLine_refused (h : Coherent s) {pa : Addr} (hp : bsValid s.cfg pa = false) (bytes : List Byte) :
    writeLine pa bytes s = .refuse .outsideBackingStore := by
  rw [writeLine, acquireLine_refused h hp]; rfl

theorem writeLineBytes_ok {bytes : List Byte} (h : Coherent s) {pa : Addr} (hp : InWindow s.cfg pa bytes.length)
    (hl : bytes.length < 2 ^ 64) : ∃ t, writeLineBytes bytes pa s = .ok () t ∧ Writes s t pa bytes := by
  induction bytes generalizing s pa with
  | nil => exact ⟨s, rfl, h, fun x => by simp, .refl s, rfl⟩
  | cons b bytes ih =>
    have := blockOffset_lt pa
    obtain ⟨t, e, k⟩ := writeLine_ok h hp.head (bytes := [b]) (by simp only [List.length_singleton]; omega)
    simp only [List.length_cons] at hl
    obtain ⟨u, f, k'⟩ := ih k.coherent (pa := pa + 1) (by rw [k.outside.1.1]; exact hp.tail) (by omega)
    refine ⟨u, by rw [writeLineBytes, e, Run.bind_ok, f], k'.coherent, fun x => ?_, k.outside.trans k'.outside,
      k'.response.trans k.response⟩
    rw [k'.view, k.view]
    have hx : (x - (pa + 1)).toNat = if x = pa then 2 ^ 64 - 1 else (x - pa).toNat - 1 := by
      have := x.isLt
      have := pa.isLt
      split
      · next c => subst c; rw [BitVec.toNat_sub, BitVec.toNat_add]; simp; omega
      · next c =>
        rw [← BitVec.toNat_inj] at c
        simp only [BitVec.toNat_sub, BitVec.toNat_add, BitVec.toNat_ofNat, BitVec.ofNat_eq_ofNat]; omega
    have h0 : (x - pa).toNat = 0 ↔ x = pa := by
      have := x.isLt
      have := pa.isLt
      rw [← BitVec.toNat_inj, BitVec.toNat_sub]; omega
    simp only [List.length_cons, List.length_nil]
    by_cases c : x = pa
    · have z := h0.2 c
      rw [if_neg (by rw [hx, if_pos c]; omega), if_pos (by omega), if_pos (by omega), z]; rfl
    · have hpos : (x - pa).toNat ≠ 0 := fun d => c (h0.1 d)
      rw [if_neg c] at hx
      rw [hx]
      by_cases d : (x - pa).toNat < bytes.length + 1
      · rw [if_pos (by omega), if_pos d, show (x - pa).toNat = ((x - pa).toNat - 1) + 1 by omega]; simp
      · rw [if_neg (by omega), if_neg (by omega), if_neg d]

/-- A write of bytes in the window changes their `View` and no other byte's (R72, R239). -/
theorem physWrite_ok (h : Coherent s) {pa : Addr} {bytes : List Byte} (hn : 0 < bytes.length)
    (hp : InWindow s.cfg pa bytes.length) (hl : bytes.length < 2 ^ 64) :
    ∃ t, physWrite pa bytes s = .ok () t ∧ Writes s t pa bytes := by
  rw [physWrite]
  split
  · next c =>
    simp only [oneLine, Bool.and_eq_true, decide_eq_true_eq] at c
    exact writeLine_ok h (by simpa using hp 0 hn) c.2
  · exact writeLineBytes_ok h hp hl

end Sys2Proof.Machine
end

