-- ==== Sys2Proof/Laws/Translator.lean ====
section
/-! SUPPORT. What a translation can change, whether it returns or fails (R179, R195): the TLB, the latency counter, bytes of the
Backing Store and the draws; what it keeps of the byte list and of the TLB (R30, R34, R337); and where it is bypassed (R181,
R182). -/

namespace Sys2Proof.Machine

variable {s : State}

/-- All a step of the walk can do. -/
structure Walked (s t : State) : Prop where
  frame : t = { s with tlb := t.tlb, lat := t.lat, bs := t.bs, draws := t.draws, drawCount := t.drawCount }
  memory : Memory.wf s.bs = true → Memory.wf t.bs = true
  distinct : TlbDistinct s → TlbDistinct t
  marked : MarkedWhileFree s → MarkedWhileFree t
  valid : ∀ i, (s.tlbEntry i).valid = true → (t.tlbEntry i).valid = true

theorem Walked.refl (s : State) : Walked s s := ⟨rfl, id, id, id, fun _ => id⟩

theorem Walked.trans {t u : State} (h : Walked s t) (k : Walked t u) : Walked s u := by
  refine ⟨?_, k.memory ∘ h.memory, k.distinct ∘ h.distinct, k.marked ∘ h.marked, fun i => k.valid i ∘ h.valid i⟩
  have := k.frame
  rw [h.frame] at this
  exact this

/-- A change of the latency, the byte list (kept canonical) or the draws. -/
theorem Walked.of_same {t : State} (h : t = { s with lat := t.lat, bs := t.bs, draws := t.draws, drawCount := t.drawCount })
    (hm : Memory.wf s.bs = true → Memory.wf t.bs = true) : Walked s t := by
  have ht : t.tlb = s.tlb := by rw [h]
  refine ⟨by rw [ht]; exact h, hm, fun d i j => ?_, fun d i j => ?_, fun i => ?_⟩
  · simpa only [tlbEntry_congr ht] using d i j
  · simpa only [tlbEntry_congr ht] using d i j
  · simp only [tlbEntry_congr ht]; exact id

theorem walked_addLat (s : State) (n : Nat) : Walked s (s.addLat n) := .of_same rfl id

/-! The TLB -/

theorem tookTlbDraw_tlb (s : State) : s.tookTlbDraw.tlb = s.tlb := by
  rw [State.tookTlbDraw]; split <;> rfl

theorem walked_tookTlbDraw (s : State) : Walked s s.tookTlbDraw := by
  rw [State.tookTlbDraw]; split <;> exact .of_same rfl id

/-- A marker set (R169). -/
theorem walked_markTlb (s : State) (i : Fin 64) : Walked s (s.markTlb i) := by
  have e : ∀ j, (s.markTlb i).tlbEntry j = if j = i then { s.tlbEntry i with mru := true } else s.tlbEntry j :=
    fun j => tlbEntry_setTlbEntry s i j _
  have ev : ∀ j, ((s.markTlb i).tlbEntry j).valid = (s.tlbEntry j).valid := fun j => by
    rw [e]; split
    · next h => rw [h]
    · rfl
  have et : ∀ j, ((s.markTlb i).tlbEntry j).tag = (s.tlbEntry j).tag := fun j => by
    rw [e]; split
    · next h => rw [h]
    · rfl
  refine ⟨rfl, id, fun d j k => by simpa only [ev, et] using d j k, fun d j k a b => ?_, fun j => by rw [ev]; exact id⟩
  rw [ev] at a b
  rw [e]; split
  · rfl
  · exact d j k a b

theorem freeSlots_nil {s : State} : freeSlots s = [] ↔ ∀ i, (s.tlbEntry i).valid = true := by
  simp [freeSlots, List.filter_eq_nil_iff]

theorem unmarkedSlots_nil {s : State} : unmarkedSlots s = [] ↔ ∀ i, (s.tlbEntry i).mru = true := by
  simp [unmarkedSlots, List.filter_eq_nil_iff]

/-- Markers cleared when no slot is free (R171). -/
theorem walked_generationalReset (h : freeSlots s = []) : Walked s s.generationalReset := by
  rw [State.generationalReset]
  split
  · have e := tlbEntry_clearMarkers s
    refine ⟨rfl, id, fun d j k => by simpa only [e] using d j k, fun d j k a b => ?_, fun j => by rw [e]; exact id⟩
    rw [e] at a
    rw [freeSlots_nil.1 h j] at a; cases a
  · exact .refl s

/-- The slot an insertion takes is free, or none is free and it is unmarked (R171). -/
theorem insertSlot_cases (s : State) (h : freeSlots s = [] → unmarkedSlots s ≠ []) :
    (s.tlbEntry (insertSlot s)).valid = false ∨
      (freeSlots s = [] ∧ (s.tlbEntry (insertSlot s)).mru = false) := by
  rw [insertSlot]
  split
  · next e =>
    have := choose_mem (h e) s.tlbDraw 0
    exact .inr ⟨e, by simpa [unmarkedSlots] using this⟩
  · next i is e =>
    have : choose (i :: is) s.tlbDraw 0 ∈ freeSlots s := by rw [e]; exact choose_mem (List.cons_ne_nil _ _) _ _
    exact .inl (by simpa [freeSlots] using this)

/-- After the generational reset some slot is unmarked (R171). -/
theorem unmarked_after_reset (s : State) : unmarkedSlots s.generationalReset ≠ [] := by
  rw [State.generationalReset]
  split
  · intro h
    have := unmarkedSlots_nil.1 h 0
    rw [tlbEntry_clearMarkers] at this; cases this
  · next h => exact h

theorem freeSlots_generationalReset (s : State) : freeSlots s.generationalReset = freeSlots s := by
  rw [State.generationalReset]
  split
  · simp [freeSlots, tlbEntry_clearMarkers]
  · rfl

/-- An insertion after a lookup that missed (R171, R30): every valid entry stays valid. -/
theorem walked_tlbInsert {tag : TlbTag} (h : tlbLookup s tag = none) (pte : Word) : Walked s (tlbInsert tag pte s) := by
  obtain ⟨u, hu⟩ : ∃ u, (if freeSlots s = [] then s.generationalReset else s) = u := ⟨_, rfl⟩
  have w1 : Walked s u := by
    rw [← hu]; split
    · next c => exact walked_generationalReset c
    · exact .refl s
  have ef : freeSlots u = freeSlots s := by
    rw [← hu]; split
    · exact freeSlots_generationalReset s
    · rfl
  have hl : ∀ i, (u.tlbEntry i).valid = true → (u.tlbEntry i).tag ≠ tag := by
    have := tlbLookup_none.1 h
    intro i
    rw [← hu]
    split
    · rw [State.generationalReset]; split
      · rw [tlbEntry_clearMarkers]; exact this i
      · exact this i
    · exact this i
  have e : ∀ j, (tlbInsert tag pte s).tlbEntry j =
      if j = insertSlot u then ⟨true, tag, pte, true⟩ else u.tlbEntry j := by
    intro j
    rw [tlbInsert]
    simp only [hu]
    rw [tlbEntry_setTlbEntry, tlbEntry_congr (tookTlbDraw_tlb u)]
  have f : tlbInsert tag pte s = u.tookTlbDraw.setTlbEntry (insertSlot u) ⟨true, tag, pte, true⟩ := by
    rw [tlbInsert]; simp only [hu]
  refine w1.trans ⟨?_, ?_, fun d i j a b c => ?_, fun d i j a b => ?_, fun i a => ?_⟩
  · rw [f]
    have := (walked_tookTlbDraw u).frame
    rw [this]; rfl
  · rw [f]; exact (walked_tookTlbDraw u).memory
  · rw [e] at a c
    rw [e] at b c
    by_cases p : i = insertSlot u <;> by_cases q : j = insertSlot u
    · exact p.trans q.symm
    · rw [if_pos p, if_neg q] at c; rw [if_neg q] at b; exact absurd c.symm (hl j b)
    · rw [if_neg p, if_pos q] at c; rw [if_neg p] at a; exact absurd c (hl i a)
    · rw [if_neg p, if_neg q] at c; rw [if_neg p] at a; rw [if_neg q] at b; exact d i j a b c
  · rw [e] at a
    rw [e] at b ⊢
    by_cases p : i = insertSlot u
    · rw [if_pos p] at a; cases a
    · rw [if_neg p] at a
      split
      · rfl
      · next q => rw [if_neg q] at b; exact d i j a b
  · rw [e]; split
    · rfl
    · exact a

/-! The walk -/

theorem bsRead_same {ε : Type} (pa : Addr) (n : Nat) (s : State) :
    (∃ bs, (bsRead pa n s : Run ε (List Byte)) = .ok bs s) ∨ (bsRead pa n s : Run ε (List Byte)) = .refuse .outsideBackingStore := by
  rw [bsRead]; split
  · exact .inl ⟨_, rfl⟩
  · exact .inr rfl

theorem fetchPte_leaves (p : Paging) (level : Nat) (parent : BitVec 44) (a : Addr) (s : State) :
    (fetchPte p level parent a s).Leaves (Walked s) := by
  rw [fetchPte]
  simp only
  split
  · next i e => exact (walked_markTlb s i).trans (walked_addLat _ _)
  · next e =>
    rcases bsRead_same (ε := Unit) (p.pteAddr level parent a) p.pteSize s with ⟨bs, h⟩ | h
    · rw [h, Run.bind_ok]
      simp only [Run.leaves_ok]
      split
      · refine (walked_addLat s _).trans (walked_tlbInsert ?_ _)
        exact (tlbLookup_congr rfl _).trans e
      · exact walked_addLat s _
    · rw [h]; trivial

theorem rewriteEntry_leaves (p : Paging) (kind : AccessKind) (addr : Addr) (pte : Word) (s : State) :
    (rewriteEntry p kind addr pte s).Leaves (Walked s) := by
  rw [rewriteEntry]
  split
  · rw [bsWrite]
    split
    · exact Walked.trans (.of_same rfl fun h => Memory.wf_writeBytes h _ _) (walked_addLat _ _)
    · trivial
  · exact .refl s

theorem useLeaf_leaves (p : Paging) (kind : AccessKind) (level : Nat) (addr a : Addr) (pte : Word) (s : State) :
    (useLeaf p kind level addr a pte s).Leaves (Walked s) := by
  rw [useLeaf]
  refine (rewriteEntry_leaves p kind addr pte s).bind (fun _ h => h) fun _ t h => ?_
  split
  · exact h
  · split
    · exact h
    · exact h

theorem walkStep_leaves (p : Paging) (kind : AccessKind) (a : Addr) (level : Nat) (parent : BitVec 44)
    {descend : BitVec 44 → State → Run Unit Addr} (hd : ∀ n t, (descend n t).Leaves (Walked t)) (s : State) :
    (walkStep p kind a level parent descend s).Leaves (Walked s) := by
  rw [walkStep]
  refine (fetchPte_leaves p level parent a s).bind (fun _ h => h) fun pte t h => ?_
  split
  · exact h
  · split
    · exact (hd _ t).mono fun _ k => h.trans k
    · exact (useLeaf_leaves p kind level _ a pte t).mono fun _ k => h.trans k

theorem walk_leaves (p : Paging) (kind : AccessKind) (a : Addr) (level : Nat) (parent : BitVec 44) (s : State) :
    (walk p kind a level parent s).Leaves (Walked s) := by
  induction level generalizing parent s with
  | zero => exact walkStep_leaves p kind a 0 parent (descend := fun _ s => .raise () s) (fun _ t => Walked.refl t) s
  | succ level ih => exact walkStep_leaves p kind a (level + 1) parent (fun n t => ih n t) s

/-- Restoring `priv` after a walk under another privilege (R182). -/
theorem Walked.restore {t : State} {q : Priv} (h : Walked (s.setPriv q) t) : Walked s (t.setPriv s.priv) := by
  refine ⟨?_, h.memory, h.distinct, h.marked, h.valid⟩
  have := h.frame
  rw [this]; rfl

/-- All a translation can do, whether it returns or fails: `priv` is restored on every path (R179, R182, R195). -/
theorem translate_leaves (va : Addr) (kind : AccessKind) (s : State) : (translate va kind s).Leaves (Walked s) := by
  rw [translate]
  split
  · exact .refl s
  · next p _ =>
    rw [translatePaged]
    split
    · split
      · exact .refl s
      · split
        · rw [translateAs]
          split
          · trivial
          · exact .refl s
          · exact Run.leaves_mapState.2 ((walk_leaves p kind _ _ _ _).mono fun _ h => h.restore)
        · exact .refl s
    · exact walk_leaves p kind _ _ _ _
    · exact walk_leaves p kind _ _ _ _

/-- A bypassed translation returns the effective address and changes nothing (R181, R182). -/
theorem translate_bypassed {kind : AccessKind} (h : Bypassed s kind) (va : Addr) :
    translate va kind s = .ok (effective s.xlen va) s := by
  rcases h with h | ⟨hp, h⟩
  · rw [translate, h]; rfl
  · rw [translate]
    split
    · rfl
    · rw [translatePaged, hp]
      simp only
      split
      · rfl
      · next c =>
        rcases h with h | h | h
        · exact absurd h c
        · rw [h]; rfl
        · split
          · rw [translateAs, h]; rfl
          · rfl

/-- A translation keeps a coherent state coherent: it touches no line (R170). -/
theorem Walked.coherent {t : State} (h : Walked s t) (hc : Coherent s) : Coherent t := by
  have f := h.frame
  exact ⟨by rw [f]; exact hc.config, h.memory hc.memory, hc.inclusion.congr (by rw [f]) (by rw [f]),
    hc.window.congr (by rw [f]) (by rw [f])⟩

end Sys2Proof.Machine
end

