-- ==== Sys2Proof/Laws/Facade.lean ====
section
/-! SUPPORT. The virtual access on a coherent state (R232 to R236): what follows one translation, and both paths, the single
page and the page crossing one, where translation is bypassed. -/

namespace Sys2Proof.Machine

variable {s : State}

/-! One access -/

theorem access_translated {α : Type} {va pa : Addr} {kind : AccessKind} {u : State} (e : translate va kind s = .ok pa u)
    (phase : Addr → State → Run Unit α) :
    access va kind phase s = (phase pa u).mapFailure fun _ => ⟨accessFault kind, va⟩ := by
  rw [access, e]; rfl

theorem access_failed {α : Type} {va : Addr} {kind : AccessKind} {u : State} (e : translate va kind s = .raise () u)
    (phase : Addr → State → Run Unit α) : access va kind phase s = .raise ⟨pageFault kind, va⟩ u := by
  rw [access, e]; rfl

theorem access_refused {α : Type} {va : Addr} {kind : AccessKind} {r : Refusal} (e : translate va kind s = .refuse r)
    (phase : Addr → State → Run Unit α) : access va kind phase s = .refuse r := by
  rw [access, e]; rfl

/-- A translated read of bytes in the window (R232, R238). -/
theorem access_read_ok (h : Coherent s) {va pa : Addr} {kind : AccessKind} {u : State} (e : translate va kind s = .ok pa u)
    {n : Nat} (hn : 0 < n) (hp : InWindow s.cfg pa n) :
    ∃ t, access va kind (fun pa s => physRead pa n s) s = .ok (u.viewBytes pa n) t ∧ Keeps u t := by
  have w : Walked s u := by have := translate_leaves va kind s; rw [e] at this; exact this
  obtain ⟨t, f, k⟩ := physRead_ok (w.coherent h) hn (by rw [w.frame]; exact hp)
  exact ⟨t, by rw [access_translated e, f]; rfl, k⟩

/-- A translated write of bytes in the window (R233, R239). -/
theorem access_write_ok (h : Coherent s) {va pa : Addr} {u : State} (e : translate va .write s = .ok pa u)
    {bytes : List Byte} (hn : 0 < bytes.length) (hp : InWindow s.cfg pa bytes.length) (hl : bytes.length < 2 ^ 64) :
    ∃ t, access va .write (fun pa s => physWrite pa bytes s) s = .ok () t ∧ Writes u t pa bytes := by
  have w : Walked s u := by have := translate_leaves va .write s; rw [e] at this; exact this
  obtain ⟨t, f, k⟩ := physWrite_ok (w.coherent h) hn (by rw [w.frame]; exact hp) hl
  exact ⟨t, by rw [access_translated e, f]; rfl, k⟩

/-! Bypassed accesses -/

theorem Bypassed.congr {t : State} {kind : AccessKind} (h : Bypassed s kind) (k : SameTranslation s t) : Bypassed t kind := by
  obtain ⟨⟨h1, -, h3, -, h5, h6⟩, -⟩ := k
  simpa only [Bypassed, h1, h3, h5, h6] using h

theorem plainAddr_congr {t : State} (k : SameTranslation s t) (va : Addr) (n : Nat) : t.plainAddr va n = s.plainAddr va n := by
  rw [State.plainAddr, State.plainAddr, k.1.2.1]

theorem plainAddr_succ (s : State) (va : Addr) (k : Nat) : s.plainAddr (va + 1) k = s.plainAddr va (k + 1) := by
  rw [State.plainAddr, State.plainAddr, add_one_add]

theorem plainAddr_zero (s : State) (va : Addr) : s.plainAddr va 0 = effective s.xlen va := by
  simp [State.plainAddr]

theorem effective_toNat (xlen : XLen) (va : Addr) :
    (effective xlen va).toNat = match xlen with | .w64 => va.toNat | .w32 => va.toNat % 2 ^ 32 := by
  cases xlen
  · simp only [effective, BitVec.toNat_setWidth]
    omega
  · rfl

theorem singlePage_iff (va : Addr) (n : Nat) : singlePage va n = true ↔ va.toNat % 4096 ≤ 4096 - n := by
  have e : (va &&& 0xFFF).toNat = va.toNat % 4096 := by
    rw [BitVec.toNat_and]
    exact Nat.and_two_pow_sub_one_eq_mod _ 12
  rw [singlePage, e, decide_eq_true_eq]

/-- In one page the truncated addresses of the bytes are consecutive (R231, R238). -/
theorem effective_add (xlen : XLen) {va : Addr} {n k : Nat} (h : singlePage va n = true) (hn : n ≤ 4096) (hk : k < n) :
    effective xlen (va + BitVec.ofNat 64 k) = effective xlen va + BitVec.ofNat 64 k := by
  rw [singlePage_iff] at h
  have := va.isLt
  rw [← BitVec.toNat_inj, effective_toNat, BitVec.toNat_add, BitVec.toNat_add, effective_toNat, BitVec.toNat_ofNat]
  cases xlen <;> grind

theorem memReadBytes_bypassed {kind : AccessKind} {n : Nat} {va : Addr} (h : Coherent s) (hb : Bypassed s kind)
    (hp : PlainInWindow s va n) : ∃ t, memReadBytes kind n va s = .ok (s.plainBytes va n) t ∧ Keeps s t := by
  induction n generalizing s va with
  | zero => exact ⟨s, rfl, .refl h⟩
  | succ n ih =>
    obtain ⟨t, e, k⟩ := access_read_ok h (translate_bypassed hb va) (n := 1) (by decide) (fun i hi => by
      have : i = 0 := by omega
      subst this
      have := hp 0 (by omega)
      rw [plainAddr_zero] at this
      simpa using this)
    obtain ⟨u, f, k'⟩ := ih k.coherent (va := va + 1) (hb.congr k.outside) (fun i hi => by
      rw [plainAddr_succ, plainAddr_congr k.outside, k.outside.1.1]; exact hp (i + 1) (by omega))
    refine ⟨u, ?_, k.trans k'⟩
    rw [memReadBytes, e, Run.bind_ok, f, Run.bind_ok]
    congr 1
    rw [State.plainBytes, State.plainBytes, List.range_succ_eq_map, List.map_cons, List.map_map, plainAddr_zero]
    simp only [State.viewBytes, List.range_one, List.map_cons, List.map_nil, BitVec.ofNat_eq_ofNat, BitVec.add_zero,
      List.singleton_append, List.cons.injEq, true_and]
    exact List.map_congr_left fun i _ => by
      have := plainAddr_succ t va i
      rw [k.view, show va + 1#64 = va + 1 from rfl, this, plainAddr_congr k.outside]; rfl

/-- A bypassed read returns the `View` bytes on either path, and keeps everything (R72, R232, R234). -/
theorem memRead_bypassed {kind : AccessKind} {n : Nat} {va : Addr} (h : Coherent s) (hb : Bypassed s kind) (hn : 0 < n)
    (hl : n ≤ 4096) (hp : PlainInWindow s va n) :
    ∃ t, memRead va n kind s = .ok (s.plainBytes va n) t ∧ Keeps s t := by
  rw [memRead]
  split
  · next c =>
    have e : ∀ k < n, s.plainAddr va k = effective s.xlen va + BitVec.ofNat 64 k := fun k hk => effective_add _ c hl hk
    obtain ⟨t, f, k⟩ := access_read_ok h (translate_bypassed hb va) hn (fun k hk => by rw [← e k hk]; exact hp k hk)
    refine ⟨t, ?_, k⟩
    rw [f]
    congr 1
    exact List.map_congr_left fun i hi => by rw [e i (List.mem_range.1 hi)]
  · exact memReadBytes_bypassed h hb hp

/-- What a bypassed write of bytes leaves. -/
structure PlainWrites (s t : State) (va : Addr) (bytes : List Byte) : Prop where
  coherent : Coherent t
  stored : ∀ k < bytes.length, t.view (s.plainAddr va k) = bytes.getD k 0
  others : ∀ x, (∀ k < bytes.length, x ≠ s.plainAddr va k) → t.view x = s.view x
  outside : SameTranslation s t
  response : t.response = s.response

theorem plainAddr_inj (s : State) (va : Addr) {j k : Nat} (hj : j < 2 ^ 32) (hk : k < 2 ^ 32)
    (h : s.plainAddr va j = s.plainAddr va k) : j = k := by
  rw [State.plainAddr, State.plainAddr, ← BitVec.toNat_inj, effective_toNat, effective_toNat, BitVec.toNat_add,
    BitVec.toNat_add, BitVec.toNat_ofNat, BitVec.toNat_ofNat] at h
  have := va.isLt
  cases e : s.xlen
  all_goals (rw [e] at h; simp only at h; omega)

theorem memWriteBytes_bypassed {bytes : List Byte} {va : Addr} (h : Coherent s) (hb : Bypassed s .write)
    (hl : bytes.length < 2 ^ 32) (hp : PlainInWindow s va bytes.length) :
    ∃ t, memWriteBytes bytes va s = .ok () t ∧ PlainWrites s t va bytes := by
  induction bytes generalizing s va with
  | nil => exact ⟨s, rfl, h, by simp, fun _ _ => rfl, .refl s, rfl⟩
  | cons b bytes ih =>
    simp only [List.length_cons] at hl hp
    obtain ⟨t, e, k⟩ := access_write_ok h (translate_bypassed hb va) (bytes := [b]) (by simp) (fun i hi => by
      simp only [List.length_singleton] at hi
      have : i = 0 := by omega
      subst this
      have := hp 0 (by omega)
      rw [plainAddr_zero] at this
      simpa using this) (by simp)
    obtain ⟨u, f, k'⟩ := ih k.coherent (va := va + 1) (hb.congr k.outside) (by omega) (fun i hi => by
      rw [plainAddr_succ, plainAddr_congr k.outside, k.outside.1.1]; exact hp (i + 1) (by omega))
    have first : ∀ x, t.view x = if x = s.plainAddr va 0 then b else s.view x := by
      intro x
      have h0 : (x - effective s.xlen va).toNat < [b].length ↔ x = effective s.xlen va := by
        have := x.isLt
        have := (effective s.xlen va).isLt
        rw [← BitVec.toNat_inj, BitVec.toNat_sub, List.length_singleton]; omega
      rw [k.view, plainAddr_zero]
      by_cases c : x = effective s.xlen va
      · rw [if_pos (h0.2 c), if_pos c, c]; simp
      · rw [if_neg fun d => c (h0.1 d), if_neg c]
    have shift : ∀ i, t.plainAddr (va + 1) i = s.plainAddr va (i + 1) := fun i => by
      rw [plainAddr_succ, plainAddr_congr k.outside]
    refine ⟨u, by rw [memWriteBytes, e, Run.bind_ok, f], k'.coherent, fun i hi => ?_, fun x hx => ?_,
      k.outside.trans k'.outside, k'.response.trans k.response⟩
    · simp only [List.length_cons] at hi
      cases i with
      | zero =>
        rw [k'.others, first, if_pos rfl]; · rfl
        intro j hj c
        rw [shift] at c
        exact absurd (plainAddr_inj s va (by omega) (by omega) c) (by omega)
      | succ i => rw [← shift]; simpa using k'.stored i (by omega)
    · rw [k'.others, first, if_neg]
      · exact hx 0 (by simp)
      · intro j hj; rw [shift]; exact hx (j + 1) (by simp only [List.length_cons]; omega)

/-- A bypassed write stores its bytes on either path, and changes no other byte of `View` (R72, R233, R235). -/
theorem memWrite_bypassed {bytes : List Byte} {va : Addr} (h : Coherent s) (hb : Bypassed s .write) (hn : 0 < bytes.length)
    (hl : bytes.length ≤ 4096) (hp : PlainInWindow s va bytes.length) :
    ∃ t, memWrite va bytes s = .ok () t ∧ PlainWrites s t va bytes := by
  rw [memWrite]
  split
  · next c =>
    have e : ∀ k < bytes.length, s.plainAddr va k = effective s.xlen va + BitVec.ofNat 64 k :=
      fun k hk => effective_add _ c hl hk
    obtain ⟨t, f, k⟩ := access_write_ok h (translate_bypassed hb va) hn (fun k hk => by rw [← e k hk]; exact hp k hk)
      (by omega)
    have sub : ∀ i < bytes.length, (s.plainAddr va i - effective s.xlen va).toNat = i := by
      intro i hi
      rw [e i hi, BitVec.toNat_sub, BitVec.toNat_add, BitVec.toNat_ofNat]
      have := (effective s.xlen va).isLt
      omega
    refine ⟨t, f, k.coherent, fun i hi => ?_, fun x hx => ?_, k.outside, k.response⟩
    · rw [k.view, sub i hi, if_pos hi]
    · rw [k.view, if_neg]
      intro c
      refine hx _ c ?_
      rw [e _ c]
      apply BitVec.eq_of_toNat_eq
      rw [BitVec.toNat_add, BitVec.toNat_ofNat, BitVec.toNat_sub]
      have := (effective s.xlen va).isLt
      have := x.isLt
      omega
  · exact memWriteBytes_bypassed h hb (by omega) hp

end Sys2Proof.Machine
end

