-- ==== Sys2Proof/Laws/Flush.lean ====
section
/-! SUPPORT. The two halves of a flush on a coherent state (R146, R219): each returns, keeps everything, leaves its level
invalid and changes nothing but what the spec says. -/

namespace Sys2Proof.Machine

variable {s : State}

/-- `FlushAll(L1)` returns, with L1 invalid; only the lines change, and no L2 line's place, validity or tag (R146, R217). -/
theorem flushAll1_ok (h : Coherent s) :
    ∃ t, flushAll1 s = .ok () t ∧ Keeps s t ∧ (∀ i w, (t.line1 i w).valid = false) ∧
      t = { s with l1 := t.l1, l2 := t.l2 } ∧
      ∀ j x, (t.line2 j x).valid = (s.line2 j x).valid ∧ (t.line2 j x).tag = (s.line2 j x).tag := by
  let P : State → Prop := fun t => Keeps s t ∧ t = { s with l1 := t.l1, l2 := t.l2 } ∧
    ∀ j x, (t.line2 j x).valid = (s.line2 j x).valid ∧ (t.line2 j x).tag = (s.line2 j x).tag
  have hP : P s := ⟨.refl h, rfl, fun _ _ => ⟨rfl, rfl⟩⟩
  have step : ∀ i (w : Fin 8) u, P u → ∃ t, flushLine1 i w u = .ok () t ∧ P t ∧ (t.line1 i w).valid = false ∧
      ∀ i' w', (u.line1 i' w').valid = false → (t.line1 i' w').valid = false := by
    intro i w u hu
    obtain ⟨t, e, k, a, b, c⟩ := evict1_ok hu.1.coherent i w
    have tags : ∀ j x, (t.line2 j x).valid = (u.line2 j x).valid ∧ (t.line2 j x).tag = (u.line2 j x).tag := by
      rw [evict1] at e
      split at e
      · next hv =>
        obtain ⟨j, x, -, -, -, hl, hj⟩ := writeBack1_owned hu.1.coherent.inclusion hv
        simp only [writeBack1] at e
        rw [← State.block1, hl] at e
        simp only [Run.bind_ok, hj, Run.ok.injEq, true_and] at e
        intro j' x'
        rw [← e, State.invalidate1, line2_setLine1, line2_setLine2]
        split
        · next c => rw [c.1, c.2]; exact ⟨rfl, rfl⟩
        · exact ⟨rfl, rfl⟩
      · cases e; exact fun _ _ => ⟨rfl, rfl⟩
    refine ⟨t, by rw [flushLine1_eq hu.1.coherent, e], ⟨hu.1.trans k, ?_, fun j x => ?_⟩, a, fun i' w' d => ?_⟩
    · have := hu.2.1
      rw [this] at c
      exact c
    · exact ⟨(tags j x).1.trans (hu.2.2 j x).1, (tags j x).2.trans (hu.2.2 j x).2⟩
    · by_cases f : i' = i ∧ w' = w
      · rw [f.1, f.2]; exact a
      · rw [b i' w' f]; exact d
  have row : ∀ i u, P u → ∃ t, Run.forEach (flushLine1 i) allWays u = .ok () t ∧ P t ∧
      (∀ w, (t.line1 i w).valid = false) ∧ ∀ i', (∀ w, (u.line1 i' w).valid = false) → ∀ w, (t.line1 i' w).valid = false := by
    intro i u hu
    obtain ⟨t, e, pt, q, r⟩ := Run.forEach_establishes
      (P := fun t => P t ∧ ∀ i' w', (u.line1 i' w').valid = false → (t.line1 i' w').valid = false)
      (Q := fun w t => (t.line1 i w).valid = false)
      (fun w v hv => by
        obtain ⟨t, e, pt, a, b⟩ := step i w v hv.1
        exact ⟨t, e, ⟨pt, fun i' w' d => b i' w' (hv.2 i' w' d)⟩, a, fun w' d => b i w' d⟩)
      allWays (s := u) ⟨hu, fun _ _ d => d⟩
    exact ⟨t, e, pt.1, fun w => q w (mem_allWays w), fun i' d w => pt.2 i' w (d w)⟩
  obtain ⟨t, e, pt, q, -⟩ := Run.forEach_establishes (P := P) (Q := fun i t => ∀ w, (t.line1 i w).valid = false) row
    (List.finRange 64) hP
  exact ⟨t, e, pt.1, fun i w => q i (List.mem_finRange i) w, pt.2.1, pt.2.2⟩

/-- A state whose L1 is empty, that keeps everything of another and differs from it in L2, the byte list and the trace. -/
structure L1Empty (s t : State) : Prop where
  keeps : Keeps s t
  empty : ∀ i w, (t.line1 i w).valid = false
  frame : t = { s with l1 := t.l1, l2 := t.l2, bs := t.bs, trace := t.trace }

/-- One line of `FlushAll(L2)` with L1 empty (R146, R218). -/
theorem flushLine2_ok {u : State} (hu : L1Empty s u) (j : Fin 256) (x : Fin 8) :
    ∃ t, flushLine2 j x u = .ok () t ∧ L1Empty s t ∧ (t.line2 j x).valid = false ∧
      (∀ j' x', ¬(j' = j ∧ x' = x) → t.line2 j' x' = u.line2 j' x') ∧
      t.trace = u.trace ++ (if (u.line2 j x).valid then [⟨u.block2 j x, .write, s.now⟩] else []) := by
  have h := hu.keeps.coherent
  rw [flushLine2]
  split
  · next hv =>
    obtain ⟨v, ev⟩ : ∃ v, u.invalidate2 j x = v := ⟨_, rfl⟩
    obtain ⟨t, et⟩ : ∃ t, (v.setBs (wroteBytes u j x)).appendTrace (u.block2 j x) .write = t := ⟨_, rfl⟩
    have hvc : v.cfg = u.cfg := by rw [← ev]; rfl
    have hvb : v.bs = u.bs := by rw [← ev]; rfl
    have e : writeBack2 (u.line2 j x) j v = .ok () t := by
      have := bsWriteBlock_ok (ε := Unit) (s := v) (by rw [hvc]; exact h.config) (pa := u.block2 j x)
        (by rw [hvc]; exact h.window j x hv) (u.line2 j x).data
      rw [block2_blockOf, hvb, ← wroteBytes_eq] at this
      simp only [writeBack2]
      rw [← State.block2, this, Run.bind_ok, et]
    have l1 : ∀ i w, t.line1 i w = u.line1 i w := fun i w => by rw [← et, ← ev]; rfl
    have l2 : ∀ j' x', t.line2 j' x' = if j' = j ∧ x' = x then { u.line2 j x with valid := false } else u.line2 j' x' := by
      intro j' x'
      have : t.line2 j' x' = v.line2 j' x' := by rw [← et]; rfl
      rw [this, ← ev, State.invalidate2, line2_setLine2]
    have n1 : ∀ (pa : Addr) i w, ¬Holds1 u pa i w := fun pa i w c => by have := hu.empty i w; rw [c.1] at this; cases this
    have m1 : ∀ (pa : Addr) i w, ¬Holds1 t pa i w := fun pa i w c => by
      have := hu.empty i w; rw [← l1, c.1] at this; cases this
    have i0 : ∀ j' x', (u.line2 j' x').incl = false := by
      intro j' x'
      cases c : (u.line2 j' x').incl with
      | false => rfl
      | true =>
        obtain ⟨-, i, w, d, -⟩ := h.inclusion.resident j' x' c
        rw [hu.empty i w] at d; cases d
    have hb : ∀ j' x', t.block2 j' x' = u.block2 j' x' := by
      intro j' x'
      rw [State.block2, State.block2, l2]
      split
      · next c => rw [c.1, c.2]
      · rfl
    have val : ∀ j' x', (t.line2 j' x').valid = true ↔ ¬(j' = j ∧ x' = x) ∧ (u.line2 j' x').valid = true := by
      intro j' x'; rw [l2]; split <;> simp [*]
    have hI' : Inclusion t := by
      refine ⟨fun i w c => ?_, fun j' x' c => ?_, fun i w i' w' c => ?_, fun j' x' j'' x'' c d f => ?_⟩
      · rw [l1, hu.empty] at c; cases c
      · have : (t.line2 j' x').incl = (u.line2 j' x').incl := by
          rw [l2]; split
          · next c => rw [c.1, c.2]
          · rfl
        rw [this, i0] at c; cases c
      · rw [l1, hu.empty] at c; cases c
      · rw [hb, hb] at f
        exact h.inclusion.distinct2 _ _ _ _ ((val _ _).1 c).2 ((val _ _).1 d).2 f
    have tb : t.bs = wroteBytes u j x := by rw [← et]; rfl
    have tc : t.cfg = u.cfg := by rw [← et, ← ev]; rfl
    have k : Keeps u t := by
      refine ⟨⟨by rw [tc]; exact h.config, ?_, hI', fun j' x' c => ?_⟩, fun pa => ?_, ?_, ?_⟩
      · rw [tb, wroteBytes_eq]; exact Memory.wf_writeBytes h.memory _ _
      · rw [tc, hb]; exact h.window j' x' ((val _ _).1 c).2
      · have rb : t.bsByte pa =
            if blockOf pa = u.block2 j x then blockByte (u.line2 j x).data (blockOffset pa) else u.bsByte pa := by
          have := read_writeBlock h.memory (u.block2 j x) (u.line2 j x).data pa
          rw [block2_blockOf] at this
          rw [State.bsByte, tb, wroteBytes_eq, this]; rfl
        by_cases b2 : ∃ j' x', Holds2 u pa j' x'
        · obtain ⟨j', x', b2⟩ := b2
          rw [h.inclusion.view2 (n1 pa) b2]
          by_cases c : j' = j ∧ x' = x
          · obtain ⟨rfl, rfl⟩ := c
            rw [view_bs (m1 pa), rb, if_pos b2.2.symm]
            intro j'' x'' d
            have d1 := (val j'' x'').1 d.1
            exact d1.1 (h.inclusion.unique2 (pa := pa) ⟨d1.2, (hb _ _).symm.trans d.2⟩ b2)
          · rw [hI'.view2 (m1 pa) (j := j') (x := x') ⟨(val _ _).2 ⟨c, b2.1⟩, (hb _ _).trans b2.2⟩, l2, if_neg c]
        · rw [view_bs (n1 pa) fun j' x' c => b2 ⟨j', x', c⟩,
            view_bs (m1 pa) fun j' x' c => b2 ⟨j', x', ((val _ _).1 c.1).2, (hb _ _).symm.trans c.2⟩, rb, if_neg]
          exact fun c => b2 ⟨j, x, hv, c.symm⟩
      · rw [← et, ← ev]; simp [SameTranslation, SameControl, SameInputs, State.invalidate2]
      · rw [← et, ← ev]; rfl
    refine ⟨t, by rw [ev, e], ⟨hu.keeps.trans k, fun i w => by rw [l1]; exact hu.empty i w, ?_⟩, by rw [l2, if_pos ⟨rfl, rfl⟩],
      fun j' x' c => by rw [l2, if_neg c], ?_⟩
    · have : t = { u with l1 := t.l1, l2 := t.l2, bs := t.bs, trace := t.trace } := by rw [← et, ← ev]; rfl
      rw [hu.frame] at this
      exact this
    · have hn : u.now = s.now := by rw [hu.frame]
      rw [← hn, ← et, ← ev]; rfl
  · next hv => exact ⟨u, rfl, hu, by simpa using hv, fun _ _ _ => rfl, by simp⟩

/-- The Write entries of some ways of a set. -/
def rowEntries (s u : State) (j : Fin 256) (xs : List (Fin 8)) : List TraceEntry :=
  (xs.filter fun x => (u.line2 j x).valid).map fun x => ⟨u.block2 j x, .write, s.now⟩

theorem rowEntries_congr {u v : State} {j : Fin 256} {xs : List (Fin 8)} (h : ∀ x ∈ xs, v.line2 j x = u.line2 j x) :
    rowEntries s v j xs = rowEntries s u j xs := by
  induction xs with
  | nil => rfl
  | cons x xs ih =>
    have ih := ih fun y hy => h y (List.mem_cons_of_mem _ hy)
    have hx := h x List.mem_cons_self
    simp only [rowEntries, List.filter_cons, hx] at ih ⊢
    split
    · simp only [List.map_cons, ih]; rw [State.block2, hx]; rfl
    · exact ih

theorem flushRow_ok {u : State} (hu : L1Empty s u) (j : Fin 256) (xs : List (Fin 8)) (hn : xs.Nodup) :
    ∃ t, Run.forEach (flushLine2 j) xs u = .ok () t ∧ L1Empty s t ∧ (∀ x ∈ xs, (t.line2 j x).valid = false) ∧
      (∀ j' x', ¬(j' = j ∧ x' ∈ xs) → t.line2 j' x' = u.line2 j' x') ∧ t.trace = u.trace ++ rowEntries s u j xs := by
  induction xs generalizing u with
  | nil => exact ⟨u, rfl, hu, by simp, fun _ _ _ => rfl, by simp [rowEntries]⟩
  | cons x xs ih =>
    obtain ⟨hx, hn⟩ := List.nodup_cons.1 hn
    obtain ⟨v, e, hv, a, b, c⟩ := flushLine2_ok hu j x
    obtain ⟨t, e', ht, a', b', c'⟩ := ih hv hn
    refine ⟨t, by rw [Run.forEach_cons, e, Run.bind_ok, e'], ht, fun y hy => ?_, fun j' x' d => ?_, ?_⟩
    · by_cases f : y ∈ xs
      · exact a' y f
      · rcases List.mem_cons.1 hy with rfl | g
        · rw [b' j y (fun g => f g.2)]; exact a
        · exact absurd g f
    · rw [b' j' x' (fun f => d ⟨f.1, List.mem_cons_of_mem _ f.2⟩), b j' x' fun f => d ⟨f.1, by rw [f.2]; exact List.mem_cons_self⟩]
    · rw [c', c, rowEntries_congr (u := u) fun y hy => b j y fun f => hx (f.2 ▸ hy), List.append_assoc]
      congr 1
      simp only [rowEntries, List.filter_cons]
      split <;> simp

/-- `FlushAll(L2)` with L1 empty returns, with L2 invalid and one Write entry for each valid line (R146, R218, R219). -/
theorem flushAll2_ok {u : State} (hu : L1Empty s u) :
    ∃ t, flushAll2 u = .ok () t ∧ L1Empty s t ∧ (∀ j x, (t.line2 j x).valid = false) ∧
      t.trace = u.trace ++ (List.finRange 256).flatMap fun j => rowEntries s u j allWays := by
  have rows : ∀ (js : List (Fin 256)), js.Nodup → ∀ v, L1Empty s v →
      ∃ t, Run.forEach (fun j => Run.forEach (flushLine2 j) allWays) js v = .ok () t ∧ L1Empty s t ∧
        (∀ j ∈ js, ∀ x, (t.line2 j x).valid = false) ∧ (∀ j ∉ js, ∀ x, t.line2 j x = v.line2 j x) ∧
        t.trace = v.trace ++ js.flatMap fun j => rowEntries s v j allWays := by
    intro js
    induction js with
    | nil => exact fun _ v hv => ⟨v, rfl, hv, by simp, fun _ _ _ => rfl, by simp⟩
    | cons j js ih =>
      intro hn v hv
      obtain ⟨hj, hn⟩ := List.nodup_cons.1 hn
      obtain ⟨w, e, hw, a, b, c⟩ := flushRow_ok hv j allWays (List.nodup_finRange 8)
      obtain ⟨t, e', ht, a', b', c'⟩ := ih hn w hw
      refine ⟨t, by rw [Run.forEach_cons, e, Run.bind_ok, e'], ht, fun k hk x => ?_, fun k hk x => ?_, ?_⟩
      · by_cases f : k ∈ js
        · exact a' k f x
        · rcases List.mem_cons.1 hk with rfl | g
          · rw [b' k f x]; exact a x (mem_allWays x)
          · exact absurd g f
      · rw [List.mem_cons, not_or] at hk
        rw [b' k hk.2 x, b k x fun f => hk.1 f.1]
      · rw [c', c, List.flatMap_cons, List.append_assoc]
        congr 2
        refine List.flatMap_congr fun k hk => rowEntries_congr fun x _ => b k x fun f => hj (f.1 ▸ hk)
  obtain ⟨t, e, ht, a, -, c⟩ := rows (List.finRange 256) (List.nodup_finRange 256) u hu
  exact ⟨t, e, ht, fun j x => a j (List.mem_finRange j) x, c⟩

end Sys2Proof.Machine
end

