-- ==== Sys2Proof/Laws/Fresh.lean ====
section
/-! SUPPORT. States in which nothing is cached, the reset states among them: their invariants and their `View`. -/

namespace Sys2Proof.Machine

variable {s : State}

/-- With nothing cached, inclusion and the rest of coherence hold for want of lines. -/
theorem NothingCached.coherent (h : NothingCached s) (hc : s.cfg.wf) (hm : Memory.wf s.bs = true) : Coherent s := by
  obtain ⟨h1, h2⟩ := h
  refine ⟨hc, hm, ⟨?_, ?_, ?_, ?_⟩, ?_⟩
  · intro i w hv; simp [h1] at hv
  · intro j x hv; simp [h2] at hv
  · intro i w i' w' hv; simp [h1] at hv
  · intro j x j' x' hv; simp [h2] at hv
  · intro j x hv; simp [h2] at hv

theorem resetWith_nothingCached (cfg : Config) (xs : List Input) (n : Nat) : NothingCached (State.resetWith cfg xs n) := by
  constructor
  · intro i w; simp [State.line1, State.resetWith, Vector.get, L1Line.invalid]
  · intro j x; simp [State.line2, State.resetWith, Vector.get, L2Line.invalid]

theorem NothingCached.congr {t : State} (h : NothingCached s) (h1 : t.l1 = s.l1) (h2 : t.l2 = s.l2) : NothingCached t := by
  simpa [NothingCached, State.line1, State.line2, h1, h2] using h

/-- A state that differs from a reset state only outside the caches is coherent. -/
theorem coherent_of_fresh (hc : s.cfg.wf) (hm : Memory.wf s.bs = true)
    (h1 : s.l1 = Vector.replicate 64 (Vector.replicate 8 L1Line.invalid))
    (h2 : s.l2 = Vector.replicate 256 (Vector.replicate 8 L2Line.invalid)) : Coherent s :=
  (NothingCached.congr (resetWith_nothingCached s.cfg [] 0) h1 h2).coherent hc hm

end Sys2Proof.Machine
end

