-- ==== Sys2Proof/Laws/Miss.lean ====
section
/-! SUPPORT. What each step of an `AcquireLine` that misses L1 does, as a state written out (R212 to R215), and what a walk that
leads outside the window does (R124). -/

namespace Sys2Proof.Machine

variable {s : State}

/-! Draws and counts touch no line -/

@[simp] theorem tookL1Draw_line1 (s : State) (i : Fin 64) (w : Fin 8) : s.tookL1Draw.line1 i w = s.line1 i w :=
  line1_congr (by rw [State.tookL1Draw]; split <;> rfl) i w

@[simp] theorem tookL1Draw_line2 (s : State) (j : Fin 256) (w : Fin 8) : s.tookL1Draw.line2 j w = s.line2 j w :=
  line2_congr (by rw [State.tookL1Draw]; split <;> rfl) j w

/-- The L1 draw taken changes the draws alone (R13). -/
theorem tookL1Draw_eq (s : State) :
    s.tookL1Draw = { s with draws := s.tookL1Draw.draws, drawCount := s.tookL1Draw.drawCount } := by
  rw [State.tookL1Draw]; split <;> rfl

/-- The L2 draw taken changes the draws alone (R13). -/
theorem tookL2Draw_eq (s : State) :
    s.tookL2Draw = { s with draws := s.tookL2Draw.draws, drawCount := s.tookL2Draw.drawCount } := by
  rw [State.tookL2Draw]; split <;> rfl

/-- The state in which the L1 victim of a miss is dealt with: the miss counted, the draw taken (R212). -/
def missedL1 (s : State) : State := s.bumpL1Miss.tookL1Draw

theorem missedL1_eq (s : State) :
    missedL1 s = { s with l1Miss := s.l1Miss + 1, draws := s.tookL1Draw.draws, drawCount := s.tookL1Draw.drawCount } := by
  rw [missedL1, State.tookL1Draw, State.tookL1Draw]; cases h : s.draws.l1 <;> simp [State.bumpL1Miss, h]

@[simp] theorem missedL1_line1 (s : State) (i : Fin 64) (w : Fin 8) : (missedL1 s).line1 i w = s.line1 i w :=
  (tookL1Draw_line1 _ i w).trans rfl

@[simp] theorem missedL1_line2 (s : State) (j : Fin 256) (w : Fin 8) : (missedL1 s).line2 j w = s.line2 j w :=
  (tookL1Draw_line2 _ j w).trans rfl

theorem missedL1_l1 (s : State) : (missedL1 s).l1 = s.l1 := by rw [missedL1_eq]
theorem missedL1_l2 (s : State) : (missedL1 s).l2 = s.l2 := by rw [missedL1_eq]

/-- An L1 miss: the victim's eviction, the checking latency, then L2 (R212). -/
theorem acquireLine_miss {pa : Addr} (n : lookup1 s pa = none) :
    acquireLine pa s = (evict1 (l1Index pa) (victim1 s) (missedL1 s)).bind fun _ t =>
      consultL2 pa (victim1 s) (t.addLat t.cfg.latL1Check) := by
  rw [acquireLine, n]; rfl

/-! Evictions -/

/-- An invalid L1 victim needs no eviction (R212). -/
theorem evict1_invalid {i : Fin 64} {v : Fin 8} (h : (s.line1 i v).valid = false) : evict1 i v s = .ok () s := by
  rw [evict1, h]; rfl

/-- A valid L1 victim goes into its owning L2 line (R212, R217). -/
theorem evict1_valid {i : Fin 64} {v z : Fin 8} (h : (s.line1 i v).valid = true) (o : lookup2 s (s.block1 i v) = some z) :
    evict1 i v s = .ok () (leftL1 s i v (l2Index (s.block1 i v)) z) := by
  rw [evict1, h, if_pos rfl]
  simp only [writeBack1]
  rw [← State.block1, o]; rfl

/-- A valid L1 victim without an owner: the first place where `AcquireLine` fails (R217, R220). -/
theorem evict1_orphan {i : Fin 64} {v : Fin 8} (h : (s.line1 i v).valid = true) (o : lookup2 s (s.block1 i v) = none) :
    evict1 i v s = .raise () s := by
  rw [evict1, h, if_pos rfl]
  simp only [writeBack1]
  rw [← State.block1, o]; rfl

/-- Where an L1 eviction returns, it changes lines alone, and no L2 line's validity or tag (R212). -/
theorem evict1_returns {i : Fin 64} {v : Fin 8} {t : State} (e : evict1 i v s = .ok () t) :
    t = { s with l1 := t.l1, l2 := t.l2 } ∧
      ∀ j y, (t.line2 j y).valid = (s.line2 j y).valid ∧ (t.line2 j y).tag = (s.line2 j y).tag := by
  cases h : (s.line1 i v).valid with
  | false => rw [evict1_invalid h] at e; cases e; exact ⟨rfl, fun _ _ => ⟨rfl, rfl⟩⟩
  | true =>
    cases o : lookup2 s (s.block1 i v) with
    | none => rw [evict1_orphan h o] at e; cases e
    | some z =>
      rw [evict1_valid h o] at e
      cases e
      refine ⟨rfl, fun j y => ?_⟩
      rw [leftL1_line2]; split
      · next c => rw [c.1, c.2]; exact ⟨rfl, rfl⟩
      · exact ⟨rfl, rfl⟩

/-- The L2 lookup reads validity and tags alone (R141). -/
theorem lookup2_of_tags {t : State} (h : ∀ j y, (t.line2 j y).valid = (s.line2 j y).valid ∧ (t.line2 j y).tag = (s.line2 j y).tag)
    (pa : Addr) : lookup2 t pa = lookup2 s pa := by
  rw [lookup2, lookup2]
  congr 1
  funext w
  rw [(h _ _).1, (h _ _).2]

/-- An L1 eviction does not read or write the miss count, the latency or the draws (R212). -/
theorem evict1_missed {i : Fin 64} {v : Fin 8} {t : State} (e : evict1 i v s = .ok () t) :
    evict1 i v (missedL1 s) = .ok () { missedL1 s with l1 := t.l1, l2 := t.l2 } := by
  have hl : ∀ b, lookup2 (missedL1 s) b = lookup2 s b := lookup2_congr (missedL1_l2 s)
  have hb : (missedL1 s).block1 i v = s.block1 i v := by rw [State.block1, State.block1, missedL1_line1]
  cases h : (s.line1 i v).valid with
  | false =>
    rw [evict1_invalid h] at e; cases e
    rw [evict1_invalid (by rw [missedL1_line1]; exact h)]
    congr 1
    rw [missedL1_eq]
  | true =>
    cases o : lookup2 s (s.block1 i v) with
    | none => rw [evict1_orphan h o] at e; cases e
    | some z =>
      rw [evict1_valid h o] at e; cases e
      rw [evict1_valid (by rw [missedL1_line1]; exact h) (by rw [hb, hl]; exact o), hb]
      congr 1
      simp only [leftL1, State.invalidate1, State.setLine1, State.setLine2, State.line1, State.line2, missedL1_l1, missedL1_l2]

/-- The eviction of a valid L2 way: its bytes to the Backing Store, a Write entry, the miss latency (R215, R218). -/
theorem evict2_valid (hc : s.cfg.wf) (hw : LinesInWindow s) {j : Fin 256} {u : Fin 8} (h : (s.line2 j u).valid = true) :
    evict2 j u s = .ok () ((wroteL2 s j u).addLat s.cfg.latL2Miss) := by
  rw [evict2, h, if_pos rfl, writeBack2_ok hc hw h]; rfl

theorem evict2_invalid {j : Fin 256} {u : Fin 8} (h : (s.line2 j u).valid = false) : evict2 j u s = .ok () s := by
  rw [evict2, h]; rfl

/-! Refills -/

/-- The block read of an L2 miss and the two refills (R215). -/
theorem fillFromBs_eq (hc : s.cfg.wf) {pa : Addr} (hp : bsValid s.cfg pa = true) (v u : Fin 8) :
    fillFromBs pa v u s = .ok v (refill1 pa v (blockOfFn fun k => s.bsByte (blockOf pa + BitVec.ofNat 64 k))
      (refill2 pa u (blockOfFn fun k => s.bsByte (blockOf pa + BitVec.ofNat 64 k)) true
        ((s.appendTrace (blockOf pa) .read).addLat s.cfg.latL2Miss))) := by
  rw [fillFromBs, bsReadBlock_ok hc hp]; rfl

/-- No eligible way: the second place where `AcquireLine` fails (R215, R220). -/
theorem missL2_noVictim {pa : Addr} (h : ∀ x, (s.line2 (l2Index pa) x).incl = true) (v : Fin 8) :
    missL2 pa v s = .raise () s.bumpL2Miss := by
  have : victim2 s.bumpL2Miss (l2Index pa) = none := victim2_none.2 h
  rw [missL2]; simp only [this]

/-! Walks that lead outside -/

/-- An entry outside the window is not read (R124, R170). -/
theorem fetchPte_refused {p : Paging} {level : Nat} {parent : BitVec 44} {a : Addr}
    (n : tlbLookup s (tlbTag s.cfg.tagMode level (p.key a)) = none) (h : ¬EntryInWindow s p (p.pteAddr level parent a)) :
    fetchPte p level parent a s = .refuse .outsideBackingStore := by
  rw [fetchPte, bsRead]
  simp only [n]
  rw [if_neg]
  · rfl
  · rw [Bool.and_eq_true]; exact h

/-- An entry in the window, read (R170). -/
theorem fetchPte_read {p : Paging} {level : Nat} {parent : BitVec 44} {a : Addr}
    (n : tlbLookup s (tlbTag s.cfg.tagMode level (p.key a)) = none) (h : EntryInWindow s p (p.pteAddr level parent a)) :
    fetchPte p level parent a s = .ok (s.entryAt p (p.pteAddr level parent a))
      (if looksLikeLeaf (s.entryAt p (p.pteAddr level parent a)) then
        tlbInsert (tlbTag s.cfg.tagMode level (p.key a)) (s.entryAt p (p.pteAddr level parent a)) (s.addLat s.cfg.latPteRead)
       else s.addLat s.cfg.latPteRead) := by
  rw [fetchPte, bsRead]
  simp only [n]
  rw [if_pos (by rw [Bool.and_eq_true]; exact h)]
  simp only [Run.bind_ok]
  rfl

theorem ValidPointer.notLeafLooking {pte : Word} (h : ValidPointer pte) : looksLikeLeaf pte = false := by
  simp [looksLikeLeaf, h.2.1, h.2.2.1, h.2.2.2]

/-- A valid pointer below the top descends (R186). -/
theorem walk_pointer {p : Paging} {kind : AccessKind} {level : Nat} {parent : BitVec 44} {a : Addr}
    (n : tlbLookup s (tlbTag s.cfg.tagMode (level + 1) (p.key a)) = none) (h : EntryInWindow s p (p.pteAddr (level + 1) parent a))
    (hp : ValidPointer (s.entryAt p (p.pteAddr (level + 1) parent a))) :
    walk p kind a (level + 1) parent s =
      walk p kind a level (p.ppn (s.entryAt p (p.pteAddr (level + 1) parent a))) (s.addLat s.cfg.latPteRead) := by
  rw [walk, walkStep, fetchPte_read n h, hp.notLeafLooking]
  obtain ⟨h1, h2, h3, h4⟩ := hp
  simp [rejectedEntry, isPointer, h1, h2, h3, h4]

/-- `LeadsOutside` reads the Backing Store, the TLB and the configuration alone. -/
theorem LeadsOutside.congr {t : State} {p : Paging} {a : Addr} {level : Nat} {parent : BitVec 44} (h : LeadsOutside s p a level parent)
    (hc : t.cfg = s.cfg) (ht : t.tlb = s.tlb) (hb : t.bs = s.bs) : LeadsOutside t p a level parent := by
  have e : ∀ x, t.entryAt p x = s.entryAt p x := fun x => by simp [State.entryAt, State.bsByte, hb]
  have w : ∀ x, EntryInWindow t p x ↔ EntryInWindow s p x := fun x => by simp [EntryInWindow, hc]
  induction level generalizing parent with
  | zero => simpa [LeadsOutside, hc, tlbLookup_congr ht, w] using h
  | succ level ih =>
    obtain ⟨h1, h2⟩ := h
    refine ⟨by rw [hc, tlbLookup_congr ht]; exact h1, ?_⟩
    rw [w, e]
    exact h2.imp id fun ⟨a, b, c⟩ => ⟨a, b, ih c⟩

/-- A walk that leads outside the window is refused (R124). -/
theorem walk_leadsOutside {p : Paging} {kind : AccessKind} {a : Addr} {level : Nat} {parent : BitVec 44}
    (h : LeadsOutside s p a level parent) : walk p kind a level parent s = .refuse .outsideBackingStore := by
  induction level generalizing parent s with
  | zero => rw [walk, walkStep, fetchPte_refused h.1 h.2]; rfl
  | succ level ih =>
    obtain ⟨h1, h2 | ⟨hw, hp, h2⟩⟩ := h
    · rw [walk, walkStep, fetchPte_refused h1 h2]; rfl
    · rw [walk_pointer h1 hw hp]
      exact ih (h2.congr rfl rfl rfl)

end Sys2Proof.Machine
end

