-- ==== Sys2Proof/Laws/PerInstr.lean ====
section
/-! SUPPORT. Per command: the request the encoder makes carries the command's code and each operand in its field of R91, whole. -/

namespace Sys2Proof.Laws.EncodedFields

/-- The four fields of the encoded request are the code and the operands of the command (R91, R93, R94). -/
def Statement (i : Instr) : Prop :=
  (encode i).cmd = opcode i ∧ (encode i).len = lenField i ∧ (encode i).addr = addrField i ∧ (encode i).data = dataField i

/-- The fields of four parts put together. -/
theorem fields_append (d : Word) (a : Addr) (l c : Byte) :
    Request.cmd (d ++ a ++ l ++ c) = c ∧ Request.len (d ++ a ++ l ++ c) = l ∧ Request.addr (d ++ a ++ l ++ c) = a ∧
      Request.data (d ++ a ++ l ++ c) = d := by
  have hd := d.isLt
  have ha := a.isLt
  have hl := l.isLt
  have hc := c.isLt
  have e : (d ++ a ++ l ++ c).toNat = ((d.toNat * 2 ^ 64 + a.toNat) * 2 ^ 8 + l.toNat) * 2 ^ 8 + c.toNat := by
    rw [BitVec.toNat_append, BitVec.toNat_append, BitVec.toNat_append, ← Nat.shiftLeft_add_eq_or_of_lt hc,
      ← Nat.shiftLeft_add_eq_or_of_lt hl, ← Nat.shiftLeft_add_eq_or_of_lt ha, Nat.shiftLeft_eq, Nat.shiftLeft_eq, Nat.shiftLeft_eq]
  refine ⟨?_, ?_, ?_, ?_⟩ <;> apply BitVec.eq_of_toNat_eq
  · rw [Request.cmd, BitVec.extractLsb'_toNat, e, Nat.shiftRight_eq_div_pow]; omega
  · rw [Request.len, BitVec.extractLsb'_toNat, e, Nat.shiftRight_eq_div_pow]; omega
  · rw [Request.addr, BitVec.extractLsb'_toNat, e, Nat.shiftRight_eq_div_pow]; omega
  · rw [Request.data, BitVec.extractLsb'_toNat, e, Nat.shiftRight_eq_div_pow]; omega

theorem loadB (a : Addr) : Statement (.loadB a) := fields_append _ _ _ _
theorem loadH (a : Addr) : Statement (.loadH a) := fields_append _ _ _ _
theorem loadW (a : Addr) : Statement (.loadW a) := fields_append _ _ _ _
theorem loadD (a : Addr) : Statement (.loadD a) := fields_append _ _ _ _
theorem storeB (a : Addr) (d : Word) : Statement (.storeB a d) := fields_append _ _ _ _
theorem storeH (a : Addr) (d : Word) : Statement (.storeH a d) := fields_append _ _ _ _
theorem storeW (a : Addr) (d : Word) : Statement (.storeW a d) := fields_append _ _ _ _
theorem storeD (a : Addr) (d : Word) : Statement (.storeD a d) := fields_append _ _ _ _
theorem fetchW (a : Addr) : Statement (.fetchW a) := fields_append _ _ _ _
theorem fetchBlk (a : Addr) (len : Byte) : Statement (.fetchBlk a len) := fields_append _ _ _ _
theorem validate (a : Addr) : Statement (.validate a) := fields_append _ _ _ _
theorem flush : Statement .flush := fields_append _ _ _ _
theorem sfenceVma : Statement .sfenceVma := fields_append _ _ _ _
theorem setXlen (d : Word) : Statement (.setXlen d) := fields_append _ _ _ _
theorem setPriv (d : Word) : Statement (.setPriv d) := fields_append _ _ _ _
theorem setStatus (d : Word) : Statement (.setStatus d) := fields_append _ _ _ _
theorem setAtp (d : Word) : Statement (.setAtp d) := fields_append _ _ _ _
theorem rdL1Hit : Statement .rdL1Hit := fields_append _ _ _ _
theorem rdL1Miss : Statement .rdL1Miss := fields_append _ _ _ _
theorem rdL2Hit : Statement .rdL2Hit := fields_append _ _ _ _
theorem rdL2Miss : Statement .rdL2Miss := fields_append _ _ _ _
theorem drainLat : Statement .drainLat := fields_append _ _ _ _
theorem traceRd : Statement .traceRd := fields_append _ _ _ _
theorem traceClr : Statement .traceClr := fields_append _ _ _ _

end Sys2Proof.Laws.EncodedFields
end

