-- ==== Sys2Proof/Laws/Step.lean ====
section
/-! SUPPORT. One step: the input taken, the state a command begins in, and the canonical form of the byte list at reset and
after a host write. -/

namespace Sys2Proof.Machine

variable {s : State}

/-! `beginCommand` -/

@[simp] theorem beginCommand_cfg (n : Word) (d : Draws) (s : State) : (beginCommand n d s).cfg = s.cfg := rfl
@[simp] theorem beginCommand_xlen (n : Word) (d : Draws) (s : State) : (beginCommand n d s).xlen = s.xlen := rfl
@[simp] theorem beginCommand_scheme (n : Word) (d : Draws) (s : State) : (beginCommand n d s).scheme = s.scheme := rfl
@[simp] theorem beginCommand_rootPpn (n : Word) (d : Draws) (s : State) : (beginCommand n d s).rootPpn = s.rootPpn := rfl
@[simp] theorem beginCommand_priv (n : Word) (d : Draws) (s : State) : (beginCommand n d s).priv = s.priv := rfl
@[simp] theorem beginCommand_status (n : Word) (d : Draws) (s : State) : (beginCommand n d s).status = s.status := rfl
@[simp] theorem beginCommand_lat (n : Word) (d : Draws) (s : State) : (beginCommand n d s).lat = s.lat := rfl
@[simp] theorem beginCommand_tlb (n : Word) (d : Draws) (s : State) : (beginCommand n d s).tlb = s.tlb := rfl
@[simp] theorem beginCommand_l1 (n : Word) (d : Draws) (s : State) : (beginCommand n d s).l1 = s.l1 := rfl
@[simp] theorem beginCommand_l2 (n : Word) (d : Draws) (s : State) : (beginCommand n d s).l2 = s.l2 := rfl
@[simp] theorem beginCommand_l1Hit (n : Word) (d : Draws) (s : State) : (beginCommand n d s).l1Hit = s.l1Hit := rfl
@[simp] theorem beginCommand_l1Miss (n : Word) (d : Draws) (s : State) : (beginCommand n d s).l1Miss = s.l1Miss := rfl
@[simp] theorem beginCommand_l2Hit (n : Word) (d : Draws) (s : State) : (beginCommand n d s).l2Hit = s.l2Hit := rfl
@[simp] theorem beginCommand_l2Miss (n : Word) (d : Draws) (s : State) : (beginCommand n d s).l2Miss = s.l2Miss := rfl
@[simp] theorem beginCommand_bs (n : Word) (d : Draws) (s : State) : (beginCommand n d s).bs = s.bs := rfl
@[simp] theorem beginCommand_trace (n : Word) (d : Draws) (s : State) : (beginCommand n d s).trace = s.trace := rfl
@[simp] theorem beginCommand_inputs (n : Word) (d : Draws) (s : State) : (beginCommand n d s).inputs = s.inputs := rfl
@[simp] theorem beginCommand_now (n : Word) (d : Draws) (s : State) : (beginCommand n d s).now = n := rfl
@[simp] theorem beginCommand_draws (n : Word) (d : Draws) (s : State) : (beginCommand n d s).draws = d := rfl
@[simp] theorem beginCommand_drawCount (n : Word) (d : Draws) (s : State) : (beginCommand n d s).drawCount = s.drawCount := rfl
@[simp] theorem beginCommand_response (n : Word) (d : Draws) (s : State) : (beginCommand n d s).response = s.response := rfl

theorem Coherent.begin (h : Coherent s) (n : Word) (d : Draws) : Coherent (beginCommand n d s) := h.congr rfl rfl rfl rfl

/-! The input -/

theorem takeInput_none : takeInput s = none ↔ s.inputs = [] := by
  rw [takeInput]; split <;> simp [*]

theorem takeInput_some {x : Input} {t : State} :
    takeInput s = some (x, t) ↔ ∃ rest, s.inputs = x :: rest ∧ t = { s with inputs := rest } := by
  rw [takeInput]; split
  · next h => simp [h]
  · next y rest h => simp [h, eq_comm]

/-- A step with nothing waiting. -/
theorem step_idle (h : s.inputs = []) : step s = .next s := by
  rw [step, takeInput_none.2 h]

/-! The byte list -/

theorem resetWith_bs (cfg : Config) (xs : List Input) (n : Nat) : (State.resetWith cfg xs n).bs = cfg.initMem := rfl

/-- The reset memory has the canonical form. -/
theorem reset_memory : Memory.wf State.reset.bs = true := rfl

/-- A host write keeps the canonical form and changes the written byte alone (R331). -/
theorem hostWrite_next {a : Addr} {b : Byte} {t : State} (h : hostWrite a b s = .next t) :
    bsValid s.cfg a = true ∧ t = s.setBs (Memory.write s.bs a.toNat b) ∧
      (Memory.wf s.bs = true → Memory.wf t.bs = true) := by
  rw [hostWrite] at h
  split at h
  · next c => cases h; exact ⟨c, rfl, fun w => Memory.wf_write w _ _⟩
  · cases h

end Sys2Proof.Machine
end

