-- ==== Sys2Proof/Tests/Slice0.lean ====
section
/-! SUPPORT. Small tests of the model, their expected results from spec/95_test_vectors.md, and for each statement with
hypotheses a witness that meets them together. -/

namespace Sys2Proof.Tests

open Sys2Proof.Machine

/-! One declaration at a time: many kernel evaluations at once would each hold a thread. -/

set_option Elab.async false

/-! Well-formedness (R101): each check refuses an ill-formed term -/

theorem test_wf_fetchBlk : (Instr.fetchBlk 0x80001044 0).wf = false ∧ (Instr.fetchBlk 0x80001044 1).wf = true := by decide
theorem test_wf_setPriv : (Instr.setPriv 2).wf = false ∧ (Instr.setPriv 0xFFFFFFFFFFFFFFFD).wf = true := by decide
theorem test_wf_setAtp : (Instr.setAtp 0xC000000000080010).wf = false ∧ (Instr.setAtp 0x8000000000080010).wf = true := by decide

/-! Decoding: the 18 bytes of V-ENC-1 and V-ENC-2, byte 0 first -/

/-- A request's bytes: the ones written out, then zeros up to 18. -/
def request (bs : List Byte) : List Byte := bs ++ List.replicate (18 - bs.length) 0

theorem test_decode_loadB : decodeBytes (request [0x10, 0, 0x44, 0x10, 0, 0x80]) = .ok (.loadB 0x80001044) := by decide
theorem test_decode_loadH : decodeBytes (request [0x11, 0, 0x44, 0x10, 0, 0x80]) = .ok (.loadH 0x80001044) := by decide
theorem test_decode_loadW : decodeBytes (request [0x12, 0, 0xBC, 0x3A, 0xC0, 0, 0xFF, 0xFF, 0xFF, 0xFF]) =
    .ok (.loadW 0xFFFFFFFF00C03ABC) := by decide
theorem test_decode_loadD : decodeBytes (request [0x13, 0, 0x44, 0x10, 0, 0x80]) = .ok (.loadD 0x80001044) := by decide
theorem test_decode_storeB : decodeBytes (request [0x20, 0, 0x44, 0x10, 0, 0x80, 0, 0, 0, 0, 0xFF, 0x01]) =
    .ok (.storeB 0x80001044 0x1FF) := by decide
theorem test_decode_storeH : decodeBytes (request [0x21, 0, 0x44, 0x10, 0, 0x80, 0, 0, 0, 0, 0xEF, 0xBE]) =
    .ok (.storeH 0x80001044 0xBEEF) := by decide
theorem test_decode_storeW : decodeBytes (request [0x22, 0, 0x0C, 0x10, 0x01, 0x80, 0, 0, 0, 0, 0x07, 0x80, 0, 0x20]) =
    .ok (.storeW 0x8001100C 0x20008007) := by decide
theorem test_decode_storeD : decodeBytes (request [0x23, 0, 0x40, 0x10, 0, 0x80, 0, 0, 0, 0, 1, 2, 3, 4, 5, 6, 7, 8]) =
    .ok (.storeD 0x80001040 0x0807060504030201) := by decide
theorem test_decode_fetchW : decodeBytes (request [0x30, 0, 0x44, 0x10, 0, 0x80]) = .ok (.fetchW 0x80001044) := by decide
theorem test_decode_fetchBlk : decodeBytes (request [0x31, 4, 0x3E, 0x10, 0, 0x80]) = .ok (.fetchBlk 0x8000103E 4) := by decide
theorem test_decode_validate : decodeBytes (request [0x40, 0, 0x44, 0x10, 0, 0x80]) = .ok (.validate 0x80001044) := by decide
theorem test_decode_flush : decodeBytes (request [0x50]) = .ok .flush := by decide
theorem test_decode_sfenceVma : decodeBytes (request [0x51]) = .ok .sfenceVma := by decide
theorem test_decode_setXlen : decodeBytes (request [0x60, 0, 0, 0, 0, 0, 0, 0, 0, 0, 1]) = .ok (.setXlen 1) := by decide
theorem test_decode_setPriv : decodeBytes (request [0x61, 0, 0, 0, 0, 0, 0, 0, 0, 0, 1]) = .ok (.setPriv 1) := by decide
theorem test_decode_setStatus : decodeBytes (request [0x62, 0, 0, 0, 0, 0, 0, 0, 0, 0, 0, 8, 2]) = .ok (.setStatus 0x20800) := by
  decide
theorem test_decode_setAtp : decodeBytes (request [0x63, 0, 0, 0, 0, 0, 0, 0, 0, 0, 0x10, 0, 8, 0, 0, 0, 0, 0x40]) =
    .ok (.setAtp 0x4000000000080010) := by decide
theorem test_decode_readouts : [0x70, 0x71, 0x72, 0x73, 0x74, 0x75, 0x76].map (fun b : Byte => decodeBytes (request [b])) =
    [.ok .rdL1Hit, .ok .rdL1Miss, .ok .rdL2Hit, .ok .rdL2Miss, .ok .drainLat, .ok .traceRd, .ok .traceClr] := by decide

/-- V-ENC-3, and a byte string that is no request. -/
theorem test_decode_rejects : ([0x00, 0x14, 0x24, 0x32, 0x41, 0x52, 0x64, 0x77, 0x80, 0xFF] : List Byte).all
      (fun b => decodeBytes (request [b, 0, 0x44, 0x10, 0, 0x80]) == .error .reservedCommand) = true ∧
    decodeBytes (request [0x31, 0, 0x44, 0x10, 0, 0x80]) = .error .zeroLength ∧
    decodeBytes (request [0x61, 0, 0, 0, 0, 0, 0, 0, 0, 0, 2]) = .error .reservedPrivilege ∧
    decodeBytes (request [0x63, 0, 0, 0, 0, 0, 0, 0, 0, 0, 0x10, 0, 8, 0, 0, 0, 0, 0xC0]) = .error .reservedScheme ∧
    decodeBytes [0x50] = .error .wrongLength := by decide

/-- V-ENC-4: fields a format does not use are ignored. -/
theorem test_decode_ignores : decodeBytes (request [0x12, 0x55, 0x44, 0x10, 0, 0x80, 0, 0, 0, 0, 0x34, 0x12]) =
    .ok (.loadW 0x80001044) := by decide

/-- The table word of `set.priv 1` and of an operand row whose high bits the table leaves out. -/
theorem test_decodeTableWord : decodeTableWord 144 0x000000000000000100000000000000000061 = some (.setPriv 1) ∧
    decodeTableWord 8 0x50 = some .flush ∧ decodeTableWord 16 0x0431 = some (.fetchBlk 0 4) := by decide

/-- V-ENC-6. -/
theorem test_pseudo : (Pseudo.load 0x80001044 4).expand = some [.loadW 0x80001044] ∧
    (Pseudo.store 0x80001044 8 5).expand = some [.storeD 0x80001044 5] ∧ Pseudo.fence.expand = some [.flush] ∧
    Pseudo.tick.expand = some [.drainLat, .traceClr] ∧
    (Pseudo.setSatp32 0x80080010).expand = some [.setAtp 0x4000000000080010] ∧
    (Pseudo.setSatp32 0x00080010).expand = some [.setAtp 0x0000000000080010] ∧
    (Pseudo.setSatp64 0x8000000000080010).expand = some [.setAtp 0x8000000000080010] := by decide

/-- R103's own example of a store and of a fetch. -/
theorem test_text : (Instr.storeH 0x80000ffe 0xBEEF).text = "store.h 0x80000ffe, 0xbeef" ∧
    (Instr.fetchBlk 0x80000000 16).text = "fetch.blk 0x80000000, 16" ∧ Instr.flush.text = "flush" := by decide +kernel

/-! Test machines: section 0 of spec/95_test_vectors.md -/

/-- The cells of a value of `n` bytes at an address; a byte 0 needs none. -/
def cells (e : Nat × Nat × Word) : List Host.Cell :=
  ((List.range e.2.1).map fun k => (e.1 + k, e.2.2.extractLsb' (8 * k) 8)).filter fun c => c.2 != 0

/-- The image of the tests: pattern memory in three blocks, the tables T32 at page 0x80010 with a pointer outside the window
beside them (root entry 7), the tables T39 moved to 0x80014 with a misaligned 2 MiB leaf beside them (0x80015010). -/
def image : List Host.Cell :=
  ((List.range 127).map fun k => (0x80001001 + k, BitVec.ofNat 8 (k + 1))) ++
    ((List.range 64).map fun k => (0x80001FC0 + k, BitVec.ofNat 8 (0xC0 + k))) ++
    ([(0x80010004, 4, 0x201000CF), (0x80010008, 4, 0x201004CF), (0x8001000C, 4, 0x20004401), (0x80010010, 4, 0x20008005),
      (0x80010014, 4, 0x20008002), (0x80010018, 4, 0x20004801), (0x8001001C, 4, 0x00004001), (0x8001100C, 4, 0x20008007), (0x80011010, 4, 0x20008443),
      (0x80011014, 4, 0x20008849), (0x80012000, 4, 0x20004C01)] : List (Nat × Nat × Word)).flatMap cells ++
    ([(0x80014000, 8, 0x20005401), (0x80014008, 8, 0x200000CF), (0x80014010, 8, 0x200800CF), (0x80015000, 8, 0x20005801),
      (0x80015008, 8, 0x200800CF), (0x80015010, 8, 0x200804CF), (0x80016028, 8, 0x20008007)] : List (Nat × Nat × Word)).flatMap cells

/-- The parameters of the tests, each latency a power of ten of its own. -/
def cfgT : Config where
  memBase := 0x80000000
  memSize := 0x1000000
  initMem := image
  xlenInit := .w64
  mprvBit := 17
  mppLo := 11
  tagMode := .levelQualified
  latL1Hit := 1
  latL1Check := 100
  latL2Hit := 10000
  latL2Miss := 1000000
  latTlbHit := 100000000
  latPteRead := 10000000000
  latPteWrite := 1000000000000
  extraValid := [⟨0x1000, 0x100⟩]

/-- Reset, with draws of 0 and `now` = 7. -/
def bare : State :=
  { State.resetWith cfgT [] 0 with draws := ⟨List.replicate 20 0, List.replicate 20 0, List.replicate 20 0⟩, now := 7 }

/-- Tables T32 in use: 32 bits, two levels, Supervisor. -/
def paged : State := { bare with xlen := .w32, scheme := .twoLevel, rootPpn := 0x80010, priv := .S }

/-- Tables T39 in use: three levels, Supervisor. -/
def paged3 : State := { bare with scheme := .threeLevel, rootPpn := 0x80014, priv := .S }

/-- Whether a step gave a next state with a property. -/
def nextBy (o : Host.Outcome State Fault Refusal) (p : State → Bool) : Bool :=
  match o with
  | .next t => p t
  | .fault _ => false
  | .refused _ => false

theorem nextBy_next {o : Host.Outcome State Fault Refusal} {p : State → Bool} (h : nextBy o p = true) :
    ∃ t, o = .next t ∧ p t = true := by
  cases o with
  | next t => exact ⟨t, rfl, h⟩
  | fault r => cases h
  | refused r => cases h

/-- Whether a step was refused under a name. -/
def refusedBy (o : Host.Outcome State Fault Refusal) (r : Refusal) : Bool :=
  match o with
  | .next _ => false
  | .fault _ => false
  | .refused r' => r' == r

/-- Whether a procedure returned with a property. -/
def okBy {ε α : Type} (x : Run ε α) (p : α → State → Bool) : Bool :=
  match x with
  | .ok a t => p a t
  | .raise _ _ => false
  | .refuse _ => false

theorem okBy_ok {ε α : Type} {x : Run ε α} {p : α → State → Bool} (h : okBy x p = true) :
    ∃ a t, x = .ok a t ∧ p a t = true := by
  cases x with
  | ok a t => exact ⟨a, t, rfl, h⟩
  | raise e t => cases h
  | refuse r => cases h

/-- Whether a procedure failed with a property. -/
def raiseBy {ε α : Type} (x : Run ε α) (p : ε → State → Bool) : Bool :=
  match x with
  | .ok _ _ => false
  | .raise e t => p e t
  | .refuse _ => false

theorem raiseBy_raise {ε α : Type} {x : Run ε α} {p : ε → State → Bool} (h : raiseBy x p = true) :
    ∃ e t, x = .raise e t ∧ p e t = true := by
  cases x with
  | ok a t => cases h
  | raise e t => exact ⟨e, t, rfl, h⟩
  | refuse r => cases h

/-- Whether a state's response is the given one. -/
def gave (t : State) (r : Response) : Bool := t.response == some r

/-- The four counters, in the order `l1h`, `l1m`, `l2h`, `l2m`. -/
def counters (t : State) : Word × Word × Word × Word := (t.l1Hit, t.l1Miss, t.l2Hit, t.l2Miss)

/-- The little-endian value of Backing Store bytes. -/
def bsValue (t : State) (pa : Addr) (n : Nat) : Word := leWord ((List.range n).map fun k => t.bsByte (pa + BitVec.ofNat 64 k))

/-- The little-endian value of `View` bytes. -/
def viewValue (t : State) (pa : Addr) (n : Nat) : Word := leWord (t.viewBytes pa n)

/-! One step of each command -/

/-- V-CTL-1, V-FAC-1. -/
theorem test_loadB : nextBy (exec (.loadB 0x80001044) bare) (fun t => gave t ⟨.ok, 0x44, 0, []⟩ && counters t == (0, 1, 0, 1) &&
    t.lat == 1000100 && t.trace == [⟨0x80001040, .read, 7⟩]) = true := by decide +kernel
/-- V-TR-2: truncation, not sign extension. -/
theorem test_loadB_32 : nextBy (exec (.loadB 0x180001044) { bare with xlen := .w32 }) (fun t => gave t ⟨.ok, 0x44, 0, []⟩) = true := by
  decide +kernel
/-- V-FAC-1. -/
theorem test_loadH : nextBy (exec (.loadH 0x80001044) bare) (fun t => gave t ⟨.ok, 0x4544, 0, []⟩) = true := by decide +kernel
/-- V-FAC-10: the slow path, each byte's address truncated; the byte at 0x80002000 is 0. -/
theorem test_loadH_cross : nextBy (exec (.loadH 0x180001FFF) { bare with xlen := .w32 }) (fun t => gave t ⟨.ok, 0x00FF, 0, []⟩) = true := by
  decide +kernel
/-- V-FAC-6: line crossing. -/
theorem test_loadW_line : nextBy (exec (.loadW 0x8000103E) bare) (fun t => gave t ⟨.ok, 0x41403F3E, 0, []⟩ &&
    counters t == (2, 2, 0, 2) && t.lat == 2000202 && t.trace == [⟨0x80001000, .read, 7⟩, ⟨0x80001040, .read, 7⟩]) = true := by
  decide +kernel
/-- V-FAC-11. -/
theorem test_loadW_fault : nextBy (exec (.loadW 0x00001000) paged) (fun t => gave t ⟨.loadPageFault, 0, 0x00001000, []⟩ &&
    counters t == (0, 0, 0, 0) && t.lat == 10000000000) = true := by decide +kernel
/-- V-FAC-1. -/
theorem test_loadD : nextBy (exec (.loadD 0x80001044) bare) (fun t => gave t ⟨.ok, 0x4B4A494847464544, 0, []⟩) = true := by
  decide +kernel
/-- V-REF-3. -/
theorem test_loadD_end : refusedBy (exec (.loadD 0x80FFFFFC) bare) .outsideBackingStore = true ∧
    nextBy (exec (.loadD 0x80FFFFF8) bare) (fun t => gave t ⟨.ok, 0, 0, []⟩) = true := by decide +kernel
/-- V-FAC-2, V-CTL-3: the L1 line alone, low byte only. -/
theorem test_storeB : nextBy (exec (.storeB 0x80001044 0x1FF) bare) (fun t => gave t ⟨.ok, 0, 0, []⟩ &&
    viewValue t 0x80001044 2 == 0x45FF && bsValue t 0x80001044 2 == 0x4544) = true := by decide +kernel
/-- V-FAC-11, V-TR-13: the rewrite comes before the permission check. -/
theorem test_storeB_fault : nextBy (exec (.storeB 0x00C04010 1) paged) (fun t => gave t ⟨.storePageFault, 0, 0x00C04010, []⟩ &&
    bsValue t 0x80011010 4 == 0x200084C3) = true := by decide +kernel
/-- V-FAC-3. -/
theorem test_storeH : nextBy (exec (.storeH 0x80001048 0xBEEF) bare) (fun t => viewValue t 0x80001047 4 == 0x4ABEEF47) = true := by
  decide +kernel
/-- V-FAC-8: page crossing; the Backing Store keeps the old bytes. V-ENC-5: the failing byte's own address; the two bytes
before it are stored. -/
theorem test_storeW_cross : nextBy (exec (.storeW 0x80001FFD 0xA1B2C3D4) bare) (fun t => gave t ⟨.ok, 0, 0, []⟩ &&
      viewValue t 0x80001FFC 5 == 0xA1B2C3D4FC && bsValue t 0x80001FFD 3 == 0xFFFEFD) = true ∧
    nextBy (exec (.storeW 0x00C03FFE 0x11223344) paged) (fun t =>
      gave t ⟨.storePageFault, 0, 0x00C04000, []⟩ && viewValue t 0x80020FFC 4 == 0x33440000) = true := by decide +kernel
/-- V-FAC-5. -/
theorem test_storeD : nextBy (exec (.storeD 0x80001040 0x0807060504030201) bare) (fun t =>
    viewValue t 0x80001044 4 == 0x08070605 && viewValue t 0x80001048 1 == 0x48) = true := by decide +kernel
/-- V-FAC-1. -/
theorem test_fetchW : nextBy (exec (.fetchW 0x80001044) bare) (fun t => gave t ⟨.ok, 0x47464544, 0, []⟩) = true := by decide +kernel
/-- V-FAC-11. -/
theorem test_fetchW_fault : nextBy (exec (.fetchW 0x00C03ABC) paged) (fun t => gave t ⟨.instructionPageFault, 0, 0x00C03ABC, []⟩ &&
    bsValue t 0x8001100C 4 == 0x20008047) = true := by decide +kernel
/-- V-FAC-7. -/
theorem test_fetchBlk : nextBy (exec (.fetchBlk 0x8000103E 4) bare) (fun t => gave t ⟨.ok, 0, 0, [0x3E, 0x3F, 0x40, 0x41]⟩ &&
    counters t == (2, 2, 0, 2)) = true := by decide +kernel
/-- V-FAC-7: more than 8 bytes. -/
theorem test_fetchBlk_long : nextBy (exec (.fetchBlk 0x8000103A 16) bare) (fun t => counters t == (14, 2, 0, 2)) = true := by
  decide +kernel
/-- V-FAC-9: Accessed set, Dirty not; no permission asked; no fault. -/
theorem test_validate : nextBy (exec (.validate 0x00C03ABC) paged) (fun t => gave t ⟨.ok, 1, 0, []⟩ &&
      bsValue t 0x8001100C 4 == 0x20008047) = true ∧
    nextBy (exec (.validate 0x00C05000) paged) (fun t => gave t ⟨.ok, 1, 0, []⟩) = true ∧
    nextBy (exec (.validate 0x00001000) paged) (fun t => gave t ⟨.ok, 0, 0, []⟩) = true := by decide +kernel
/-- V-REF-1 and R250: the end of the window, and a further region. -/
theorem test_validate_plain : nextBy (exec (.validate 0x81000000) bare) (fun t => gave t ⟨.ok, 0, 0, []⟩) = true ∧
    nextBy (exec (.validate 0x10FF) bare) (fun t => gave t ⟨.ok, 1, 0, []⟩) = true := by decide +kernel

/-- The state after `store.w 0x80001044, 0xDEADBEEF` on the fresh hierarchy. -/
def warm : State :=
  match exec (.storeW 0x80001044 0xDEADBEEF) bare with
  | .next t => t
  | .fault _ => bare
  | .refused _ => bare

/-- V-CTL-3. -/
theorem test_storeW : gave warm ⟨.ok, 0, 0, []⟩ = true ∧ viewValue warm 0x80001043 6 = 0x48DEADBEEF43 ∧
    bsValue warm 0x80001044 4 = 0x47464544 := by decide +kernel
/-- V-CTL-6. -/
theorem test_flush : nextBy (exec .flush warm) (fun t => bsValue t 0x80001043 6 == 0x48DEADBEEF43 &&
    t.trace == [⟨0x80001040, .read, 7⟩, ⟨0x80001040, .write, 7⟩] && counters t == (0, 1, 0, 1) && t.lat == 1000100 &&
    lookup1 t 0x80001044 == none && lookup2 t 0x80001044 == none) = true := by decide +kernel
/-- V-CMD-1. -/
theorem test_sfenceVma : exec .sfenceVma warm = .next { warm with response := some ⟨.ok, 0, 0, []⟩ } := rfl
/-- V-ENC-4. -/
theorem test_setXlen : nextBy (exec (.setXlen 0xFFFFFFFFFFFFFFFE) bare) (fun t => t.xlen == .w32) = true ∧
    nextBy (exec (.setXlen 1) paged) (fun t => t.xlen == .w64) = true := by decide +kernel
/-- V-ENC-4, V-CMD-5. -/
theorem test_setPriv : nextBy (exec (.setPriv 0xFFFFFFFFFFFFFFFD) bare) (fun t => t.priv == .S) = true ∧
    nextBy (exec (.setPriv 2) paged) (fun t => t.priv == .S && gave t ⟨.illegal, 0, 0, []⟩) = true := by decide +kernel
/-- V-CMD-5. -/
theorem test_setStatus : nextBy (exec (.setStatus 0xFFFFFFFFFFFFFFFF) bare) (fun t => t.status == 0xFFFFFFFFFFFFFFFF &&
    mprv t.cfg t.status && mpp t.cfg t.status == 3) = true := by decide +kernel
/-- V-ENC-4, V-CMD-5. -/
theorem test_setAtp : nextBy (exec (.setAtp 0x4003F00000080010) bare) (fun t => t.scheme == .twoLevel && t.rootPpn == 0x80010) = true ∧
    nextBy (exec (.setAtp 0x00000FFFFFFFFFFF) paged) (fun t => t.scheme == .off && t.rootPpn == 0xFFFFFFFFFFF) = true := by
  decide +kernel
/-- V-CMD-2, the counters made distinct. -/
theorem test_counterReads : nextBy (exec .rdL1Hit { bare with l1Hit := 5, l1Miss := 6, l2Hit := 7, l2Miss := 8 }) (gave · ⟨.ok, 5, 0, []⟩) = true ∧
    nextBy (exec .rdL1Miss { bare with l1Hit := 5, l1Miss := 6, l2Hit := 7, l2Miss := 8 }) (gave · ⟨.ok, 6, 0, []⟩) = true ∧
    nextBy (exec .rdL2Hit { bare with l1Hit := 5, l1Miss := 6, l2Hit := 7, l2Miss := 8 }) (gave · ⟨.ok, 7, 0, []⟩) = true ∧
    nextBy (exec .rdL2Miss { bare with l1Hit := 5, l1Miss := 6, l2Hit := 7, l2Miss := 8 }) (gave · ⟨.ok, 8, 0, []⟩) = true := by
  decide +kernel
/-- V-CMD-3. -/
theorem test_drainLat : nextBy (exec .drainLat warm) (fun t => gave t ⟨.ok, 1000100, 0, []⟩ && t.lat == 0) = true := by decide +kernel
/-- V-CMD-4. -/
theorem test_traceRd : nextBy (exec .traceRd { bare with trace := [⟨0x80001040, .read, 5⟩, ⟨0x80001040, .write, 0x1234⟩] }) (fun t =>
    gave t ⟨.ok, 2, 0, [0x40, 0x10, 0, 0x80, 0, 0, 0, 0, 0, 5, 0, 0, 0, 0, 0, 0, 0, 0x40, 0x10, 0, 0x80, 0, 0, 0, 0, 1, 0x34, 0x12,
      0, 0, 0, 0, 0, 0]⟩ && t.trace.length == 2) = true := by decide +kernel
/-- V-CMD-4. -/
theorem test_traceClr : nextBy (exec .traceClr warm) (fun t => t.trace == [] && gave t ⟨.ok, 0, 0, []⟩) = true := by decide +kernel

/-! Witnesses: for each statement with hypotheses, states and operands that meet them -/

theorem image_canonical : Memory.wf image = true := by decide +kernel

theorem bare_coherent : Coherent bare := coherent_of_fresh (by decide +kernel) image_canonical rfl rfl
theorem paged_coherent : Coherent paged := coherent_of_fresh (by decide +kernel) image_canonical rfl rfl
theorem paged3_coherent : Coherent paged3 := coherent_of_fresh (by decide +kernel) image_canonical rfl rfl

theorem bare_window {a : Addr} {n : Nat} (h : (List.range n).all (fun k => bsValid cfgT (a + BitVec.ofNat 64 k)) = true) :
    PlainInWindow bare a n := fun k hk => List.all_eq_true.1 h k (List.mem_range.2 hk)

theorem in_window {s : State} {a : Addr} {n : Nat} (h : (List.range n).all (fun k => bsValid s.cfg (a + BitVec.ofNat 64 k)) = true) :
    InWindow s.cfg a n := fun k hk => List.all_eq_true.1 h k (List.mem_range.2 hk)

theorem warm_coherent : Coherent warm := by
  obtain ⟨t, e, k⟩ := memWrite_bypassed (bytes := bytesOf 4 0xDEADBEEF) (va := 0x80001044) bare_coherent (.inl rfl)
    (by decide) (by decide) (bare_window (by decide +kernel))
  have w : warm = t.respond .done := by
    rw [warm, exec, execStoreW, store, e]; rfl
  rw [w]
  exact k.coherent.congr rfl rfl rfl rfl

/-- A request waiting. -/
def waiting (s : State) (w : BitVec 144) : State := { s with inputs := [.command w 9 ⟨[0], [0], [0]⟩] }

theorem witness_EncodeThenDecodeGivesTheCommand :
    (Instr.storeD 0xFFFFFFFFFFFFFFFF 0xFFFFFFFFFFFFFFFF).wf = true ∧ (Instr.fetchBlk 0 255).wf = true := by decide

theorem witness_IllegalRequestsAreAnsweredIllegal : (waiting bare 0x14).inputs = [.command 0x14 9 ⟨[0], [0], [0]⟩] ∧
    decode 0x14 = .error .reservedCommand := ⟨rfl, by decide⟩

theorem witness_StepRunsTheDecodedCommand : (waiting bare 0x50).inputs = [.command 0x50 9 ⟨[0], [0], [0]⟩] ∧
    decode 0x50 = .ok .flush ∧ bare.inputs = [] := ⟨rfl, by decide, rfl⟩

theorem witness_SetPrivWritesThePrivilegeAlone : (0xFFFFFFFFFFFFFFFC : Word).extractLsb' 0 2 = 0 ∧ (1 : Word).extractLsb' 0 2 = 1 ∧
    (0xFFFFFFFFFFFFFFFF : Word).extractLsb' 0 2 = 3 ∧ (2 : Word).extractLsb' 0 2 = 2 := by decide

theorem witness_SetAtpWritesSchemeAndRootTogether : (0x3FFFFFFFFFFFFFFF : Word).extractLsb' 62 2 = 0 ∧
    (0x4000000000080010 : Word).extractLsb' 62 2 = 1 ∧ (0x8000000000080010 : Word).extractLsb' 62 2 = 2 ∧
    (0xC000000000080010 : Word).extractLsb' 62 2 = 3 := by decide

theorem witness_FlushWritesBackAndInvalidatesEverything : Coherent warm ∧ (warm.line1 1 0).valid = true :=
  ⟨warm_coherent, by decide +kernel⟩

/-- An L1 line that no L2 line owns. -/
def orphan : State := bare.setLine1 1 0 ⟨true, 0x99999, Vector.replicate 64 0⟩

theorem orphan_line2 (j : Fin 256) (x : Fin 8) : (orphan.line2 j x).valid = false :=
  ((resetWith_nothingCached cfgT [] 0).2 j x).1

theorem witness_FlushWithoutOwnerIsRefused : (orphan.line1 1 0).valid = true ∧
    ∀ j x, (orphan.line2 j x).valid = true → orphan.block2 j x ≠ orphan.block1 1 0 :=
  ⟨by decide +kernel, fun j x h => by simp [orphan_line2] at h⟩

theorem witness_LittleEndianValueOfBytes : ([1, 2, 3, 4, 5, 6, 7, 8] : List Byte).length ≤ 8 ∧ 7 < 8 := by decide

theorem witness_PlainReadsReturnTheView : Coherent bare ∧ Bypassed bare .read ∧ Bypassed bare .execute ∧
    PlainInWindow bare 0x80FFFFFF 1 ∧ PlainInWindow bare 0x80FFFFFE 2 ∧ PlainInWindow bare 0x8000103F 4 ∧
    PlainInWindow bare 0x80000000 8 ∧ PlainInWindow bare 0x80FFFF01 255 ∧ (255 : Byte) ≠ 0 ∧
    Bypassed { paged with priv := .M } .read ∧ Bypassed { paged with priv := .M, status := 0x20800 } .execute ∧
    Bypassed { paged with priv := .M, status := 0x21800 } .read :=
  ⟨bare_coherent, .inl rfl, .inl rfl, bare_window (by decide +kernel), bare_window (by decide +kernel), bare_window (by decide +kernel),
    bare_window (by decide +kernel), bare_window (by decide +kernel), by decide, .inr ⟨rfl, .inr (.inl (by decide +kernel))⟩,
    .inr ⟨rfl, .inl rfl⟩, .inr ⟨rfl, .inr (.inr (by decide +kernel))⟩⟩

theorem witness_PlainStoresWriteTheView : Coherent warm ∧ Bypassed warm .write ∧ PlainInWindow warm 0x80001044 1 ∧
    PlainInWindow warm 0x80001FFF 2 ∧ PlainInWindow warm 0x80FFFFFC 4 ∧ PlainInWindow warm 0x80000000 8 := by
  refine ⟨warm_coherent, .inl (by decide +kernel), ?_, ?_, ?_, ?_⟩ <;> (unfold PlainInWindow; decide +kernel)

/-- A store, then a read of the same kind of run. -/
def storeThenRead (i j : Instr) : Bool :=
  nextBy (exec i bare) fun t => gave t ⟨.ok, 0, 0, []⟩ && nextBy (exec j t) fun _ => true

theorem storeThenRead_runs {i j : Instr} (h : storeThenRead i j = true) :
    ∃ t u, exec i bare = .next t ∧ t.response = some ⟨.ok, 0, 0, []⟩ ∧ exec j t = .next u := by
  obtain ⟨t, e, h⟩ := nextBy_next h
  rw [Bool.and_eq_true] at h
  obtain ⟨u, f, -⟩ := nextBy_next h.2
  exact ⟨t, u, e, by simpa [gave] using h.1, f⟩

theorem witness_LoadAfterStoreReturnsTheStoredValue : (Coherent bare ∧ Bypassed bare .write ∧ Bypassed bare .read ∧ Bypassed bare .execute) ∧
    ((∃ t u, exec (.storeB 0x80FFFFFF 0x1FF) bare = .next t ∧ t.response = some ⟨.ok, 0, 0, []⟩ ∧ exec (.loadB 0x80FFFFFF) t = .next u) ∧
      PlainInWindow bare 0x80FFFFFF 1) ∧
    ((∃ t u, exec (.storeH 0x80001FFF 0x1FF) bare = .next t ∧ t.response = some ⟨.ok, 0, 0, []⟩ ∧ exec (.loadH 0x80001FFF) t = .next u) ∧
      PlainInWindow bare 0x80001FFF 2) ∧
    ((∃ t u, exec (.storeW 0x8000103E 0x1FF) bare = .next t ∧ t.response = some ⟨.ok, 0, 0, []⟩ ∧ exec (.loadW 0x8000103E) t = .next u) ∧
      PlainInWindow bare 0x8000103E 4) ∧
    ((∃ t u, exec (.storeD 0x80000000 0x1FF) bare = .next t ∧ t.response = some ⟨.ok, 0, 0, []⟩ ∧ exec (.loadD 0x80000000) t = .next u) ∧
      PlainInWindow bare 0x80000000 8) ∧
    (∃ t u, exec (.storeW 0x8000103E 0x1FF) bare = .next t ∧ t.response = some ⟨.ok, 0, 0, []⟩ ∧ exec (.fetchW 0x8000103E) t = .next u) ∧
    ∃ t u, exec (.storeW 0x8000103E 0x1FF) bare = .next t ∧ t.response = some ⟨.ok, 0, 0, []⟩ ∧ exec (.loadB 0x8000103F) t = .next u :=
  ⟨⟨bare_coherent, .inl rfl, .inl rfl, .inl rfl⟩, ⟨storeThenRead_runs (by decide +kernel), bare_window (by decide +kernel)⟩,
    ⟨storeThenRead_runs (by decide +kernel), bare_window (by decide +kernel)⟩,
    ⟨storeThenRead_runs (by decide +kernel), bare_window (by decide +kernel)⟩,
    ⟨storeThenRead_runs (by decide +kernel), bare_window (by decide +kernel)⟩, storeThenRead_runs (by decide +kernel),
    storeThenRead_runs (by decide +kernel)⟩

/-- Whether a translation gives an address. -/
def translatesTo (s : State) (va : Addr) (kind : AccessKind) (pa : Addr) : Bool := okBy (translate va kind s) fun p _ => p == pa

theorem translatesTo_ok {s : State} {va pa : Addr} {kind : AccessKind} (h : translatesTo s va kind pa = true) :
    ∃ u, translate va kind s = .ok pa u := by
  obtain ⟨p, u, e, h⟩ := okBy_ok h
  exact ⟨u, by rw [e, beq_iff_eq.1 h]⟩

theorem witness_TranslatedReadsReturnTheView : Coherent paged ∧ (∃ u, translate 0x007FFFF8 .read paged = .ok 0x807FFFF8 u) ∧
    (∃ u, translate 0x007FFF01 .execute paged = .ok 0x807FFF01 u) ∧ InWindow paged.cfg 0x807FFFF8 8 ∧ singlePage 0x007FFFF8 2 = true ∧
    singlePage 0x007FFFF8 4 = true ∧ singlePage 0x007FFFF8 8 = true ∧ InWindow paged.cfg 0x807FFF01 255 ∧
    singlePage 0x007FFF01 255 = true :=
  ⟨paged_coherent, translatesTo_ok (by decide +kernel), translatesTo_ok (by decide +kernel), in_window (by decide +kernel), by decide, by decide,
    by decide, in_window (by decide +kernel), by decide⟩

theorem witness_TranslatedStoresWriteTheView : Coherent paged3 ∧ (∃ u, translate 0x5FF8 .write paged3 = .ok 0x80020FF8 u) ∧
    InWindow paged3.cfg 0x80020FF8 8 ∧ singlePage 0x5FF8 2 = true ∧ singlePage 0x5FF8 4 = true ∧ singlePage 0x5FF8 8 = true :=
  ⟨paged3_coherent, translatesTo_ok (by decide +kernel), in_window (by decide +kernel), by decide, by decide, by decide⟩

/-! One-byte reads and writes in a row -/

/-- One-byte reads while they return a byte. -/
def reads (kind : AccessKind) : Nat → Addr → State → Option (List Byte × State)
  | 0, _, s => some ([], s)
  | n + 1, va, s =>
    match memRead va 1 kind s with
    | .ok [b] u =>
      match reads kind n (va + 1) u with
      | some (bs, t) => some (b :: bs, t)
      | none => none
    | .ok _ _ => none
    | .raise _ _ => none
    | .refuse _ => none

theorem reads_read {kind : AccessKind} {n : Nat} {va : Addr} {s : State} {bs : List Byte} {t : State}
    (h : reads kind n va s = some (bs, t)) : BytesRead kind s va bs t ∧ bs.length = n := by
  induction n generalizing va s bs with
  | zero => simp [reads] at h; obtain ⟨rfl, rfl⟩ := h; exact ⟨rfl, rfl⟩
  | succ n ih =>
    rw [reads] at h
    split at h
    · next b u e =>
      split at h
      · next cs v f =>
        simp at h; obtain ⟨rfl, rfl⟩ := h
        exact ⟨⟨u, e, (ih f).1⟩, by simp [(ih f).2]⟩
      · cases h
    all_goals cases h

/-- One-byte writes while they are done. -/
def writes : List Byte → Addr → State → Option State
  | [], _, s => some s
  | b :: bs, va, s =>
    match memWrite va [b] s with
    | .ok _ u => writes bs (va + 1) u
    | .raise _ _ => none
    | .refuse _ => none

theorem writes_written {bs : List Byte} {va : Addr} {s t : State} (h : writes bs va s = some t) : BytesWritten s va bs t := by
  induction bs generalizing va s with
  | nil => rw [writes, Option.some.injEq] at h; exact h.symm
  | cons b bs ih =>
    rw [writes] at h
    split at h
    · next u e => exact ⟨u, e, ih h⟩
    all_goals cases h

/-- Whether `n` one-byte reads are done, and, if `bad`, the next one fails. -/
def readsOf (kind : AccessKind) (n : Nat) (va : Addr) (s : State) (bad : Bool) : Bool :=
  match reads kind n va s with
  | some (_, t) => !bad || raiseBy (memRead (va + BitVec.ofNat 64 n) 1 kind t) fun _ _ => true
  | none => false

theorem readsOf_reads {kind : AccessKind} {n : Nat} {va : Addr} {s : State} (h : readsOf kind n va s false = true) :
    ∃ bs t, BytesRead kind s va bs t ∧ bs.length = n := by
  rw [readsOf] at h
  split at h
  · next bs t e => exact ⟨bs, t, reads_read e⟩
  · cases h

theorem readsOf_fails {kind : AccessKind} {n : Nat} {va : Addr} {s : State} (h : readsOf kind n va s true = true) :
    ∃ bs t f u, BytesRead kind s va bs t ∧ bs.length = n ∧ memRead (va + BitVec.ofNat 64 bs.length) 1 kind t = .raise f u := by
  rw [readsOf] at h
  split at h
  · next bs t e =>
    obtain ⟨f, u, g, -⟩ := raiseBy_raise (by simpa using h)
    exact ⟨bs, t, f, u, (reads_read e).1, (reads_read e).2, by rw [(reads_read e).2]; exact g⟩
  · cases h

theorem witness_PageCrossingReadsAreByteReadsInOrder :
    (singlePage 0x80001FFF 2 = false ∧ ∃ bs t, BytesRead .read bare 0x80001FFF bs t ∧ bs.length = 2) ∧
    (singlePage 0x80001FFD 4 = false ∧ ∃ bs t, BytesRead .read bare 0x80001FFD bs t ∧ bs.length = 4) ∧
    (singlePage 0x80001FF9 8 = false ∧ ∃ bs t, BytesRead .read bare 0x80001FF9 bs t ∧ bs.length = 8) ∧
    (∃ bs t, BytesRead .execute bare 0x80001FFD bs t ∧ bs.length = 4) ∧
    (singlePage 0x80001FF9 9 = false ∧ ∃ bs t, BytesRead .execute bare 0x80001FF9 bs t ∧ bs.length = (9 : Byte).toNat) ∧
    (singlePage 0x00C04FFF 2 = false ∧ ∃ bs t f u, BytesRead .read paged 0x00C04FFF bs t ∧ bs.length = 1 ∧
      memRead (0x00C04FFF + BitVec.ofNat 64 bs.length) 1 .read t = .raise f u) ∧
    (singlePage 0x00C04FFD 4 = false ∧ singlePage 0x00C04FFD 8 = false ∧ ∃ bs t f u, BytesRead .read paged 0x00C04FFD bs t ∧
      bs.length = 3 ∧ memRead (0x00C04FFD + BitVec.ofNat 64 bs.length) 1 .read t = .raise f u) ∧
    (singlePage 0x00C05FFE 4 = false ∧ ∃ bs t f u, BytesRead .execute paged 0x00C05FFE bs t ∧ bs.length = 2 ∧
      memRead (0x00C05FFE + BitVec.ofNat 64 bs.length) 1 .execute t = .raise f u) :=
  ⟨⟨by decide, readsOf_reads (by decide +kernel)⟩, ⟨by decide, readsOf_reads (by decide +kernel)⟩, ⟨by decide, readsOf_reads (by decide +kernel)⟩,
    readsOf_reads (by decide +kernel), ⟨by decide, readsOf_reads (by decide +kernel)⟩, ⟨by decide, readsOf_fails (by decide +kernel)⟩,
    ⟨by decide, by decide, readsOf_fails (by decide +kernel)⟩, ⟨by decide, readsOf_fails (by decide +kernel)⟩⟩

/-- Whether one-byte writes are done, and, if there is one more byte, its write fails. -/
def writesOf (bs : List Byte) (va : Addr) (s : State) (bad : Option Byte) : Bool :=
  match writes bs va s with
  | some t =>
    match bad with
    | none => true
    | some b => raiseBy (memWrite (va + BitVec.ofNat 64 bs.length) [b] t) fun _ _ => true
  | none => false

theorem writesOf_writes {bs : List Byte} {va : Addr} {s : State} (h : writesOf bs va s none = true) : ∃ t, BytesWritten s va bs t := by
  rw [writesOf] at h
  split at h
  · next t e => exact ⟨t, writes_written e⟩
  · cases h

theorem writesOf_fails {bs : List Byte} {va : Addr} {s : State} {b : Byte} (h : writesOf bs va s (some b) = true) :
    ∃ t f u, BytesWritten s va bs t ∧ memWrite (va + BitVec.ofNat 64 bs.length) [b] t = .raise f u := by
  rw [writesOf] at h
  split at h
  · next t e =>
    obtain ⟨f, u, g, -⟩ := raiseBy_raise h
    exact ⟨t, f, u, writes_written e, g⟩
  · cases h

theorem witness_PageCrossingStoresAreByteStoresInOrder :
    (singlePage 0x80001FFF 2 = false ∧ ∃ t, BytesWritten bare 0x80001FFF (bytesOf 2 0x0102030405060708) t) ∧
    (singlePage 0x80001FFD 4 = false ∧ ∃ t, BytesWritten bare 0x80001FFD (bytesOf 4 0x0102030405060708) t) ∧
    (singlePage 0x80001FF9 8 = false ∧ ∃ t, BytesWritten bare 0x80001FF9 (bytesOf 8 0x0102030405060708) t) ∧
    (singlePage 0x00C03FFF 2 = false ∧ ∃ t f u, BytesWritten paged 0x00C03FFF ((bytesOf 2 0x0102030405060708).take 1) t ∧
      memWrite (0x00C03FFF + BitVec.ofNat 64 1) [0x07] t = .raise f u) ∧
    (singlePage 0x00C03FFD 4 = false ∧ ∃ t f u, BytesWritten paged 0x00C03FFD ((bytesOf 4 0x0102030405060708).take 3) t ∧
      memWrite (0x00C03FFD + BitVec.ofNat 64 3) [0x05] t = .raise f u) ∧
    (singlePage 0x00C04FF9 8 = false ∧ ∃ t f u, BytesWritten paged 0x00C04FF9 ((bytesOf 8 0x0102030405060708).take 0) t ∧
      memWrite (0x00C04FF9 + BitVec.ofNat 64 0) [0x08] t = .raise f u) :=
  ⟨⟨by decide, writesOf_writes (by decide +kernel)⟩, ⟨by decide, writesOf_writes (by decide +kernel)⟩, ⟨by decide, writesOf_writes (by decide +kernel)⟩,
    ⟨by decide, writesOf_fails (by decide +kernel)⟩, ⟨by decide, writesOf_fails (by decide +kernel)⟩, ⟨by decide, writesOf_fails (by decide +kernel)⟩⟩

theorem runs {o : Host.Outcome State Fault Refusal} (h : nextBy o (fun _ => true) = true) : ∃ t, o = .next t := by
  obtain ⟨t, e, -⟩ := nextBy_next h
  exact ⟨t, e⟩

theorem translateFails {s : State} {va : Addr} {kind : AccessKind} (h : raiseBy (translate va kind s) (fun _ _ => true) = true) :
    ∃ u, translate va kind s = .raise () u := by
  obtain ⟨e, u, f, -⟩ := raiseBy_raise h
  exact ⟨u, f⟩

theorem witness_RoundTripsAreCounted : Coherent bare ∧ Bypassed bare .read ∧
    (PlainInWindow bare 0x80FFFFFF 1 ∧ ∃ t, exec (.loadB 0x80FFFFFF) bare = .next t) ∧
    (PlainInWindow bare 0x8000103E 2 ∧ ∃ t, exec (.loadH 0x8000103E) bare = .next t) ∧
    (PlainInWindow bare 0x8000103D 4 ∧ ∃ t, exec (.loadW 0x8000103D) bare = .next t) ∧
    (PlainInWindow bare 0x80001038 8 ∧ ∃ t, exec (.loadD 0x80001038) bare = .next t) ∧
    (PlainInWindow bare 0x80001FFF 8 ∧ ∃ t, exec (.loadD 0x80001FFF) bare = .next t) :=
  ⟨bare_coherent, .inl rfl, ⟨bare_window (by decide +kernel), runs (by decide +kernel)⟩,
    ⟨bare_window (by decide +kernel), runs (by decide +kernel)⟩, ⟨bare_window (by decide +kernel), runs (by decide +kernel)⟩,
    ⟨bare_window (by decide +kernel), runs (by decide +kernel)⟩, ⟨bare_window (by decide +kernel), runs (by decide +kernel)⟩⟩

theorem witness_ValidateAnswersAndTouchesNoCache : (∃ u, translate 0x00C05000 .dontCare paged = .ok 0x80022000 u) ∧
    (∃ u, translate 0x00001000 .dontCare paged = .raise () u) ∧ Bypassed bare .dontCare ∧
    ∃ t, exec (.validate 0x00C05000) paged = .next t :=
  ⟨translatesTo_ok (by decide +kernel), translateFails (by decide +kernel), .inl rfl, runs (by decide +kernel)⟩

theorem witness_FailedTranslationIsAPageFault : (∃ u, translate 0x00001FF8 .read paged = .raise () u) ∧
    (∃ u, translate 0x00C04FF8 .write paged = .raise () u) ∧ (∃ u, translate 0x00C03FF8 .execute paged = .raise () u) ∧
    singlePage 0x00001FF8 2 = true ∧ singlePage 0x00C04FF8 4 = true ∧ singlePage 0x00C03FF8 8 = true ∧ (8 : Byte) ≠ 0 :=
  ⟨translateFails (by decide +kernel), translateFails (by decide +kernel), translateFails (by decide +kernel), by decide, by decide, by decide,
    by decide⟩

/-- A walk step's entry at a level of T32. -/
def stepEntry (level : Nat) (parent : BitVec 44) (a : Addr) (pte : Word) : Bool :=
  okBy (fetchPte .twoLevel level parent a paged) fun e _ => e == pte

theorem stepEntry_ok {level : Nat} {parent : BitVec 44} {a : Addr} {pte : Word} (h : stepEntry level parent a pte = true) :
    ∃ u, fetchPte .twoLevel level parent a paged = .ok pte u := by
  obtain ⟨e, u, f, h⟩ := okBy_ok h
  exact ⟨u, by rw [f, beq_iff_eq.1 h]⟩

theorem witness_WalkFailsForTheFiveCausesOnly : 1 ≤ Paging.twoLevel.top ∧
    (∃ u, fetchPte .twoLevel 1 0x80010 0x00812345 paged = .ok 0x201004CF u) ∧
    (∃ u, fetchPte .twoLevel 1 0x80010 0x00C03ABC paged = .ok 0x20004401 u) ∧
    ∃ u, fetchPte .twoLevel 0 0x80012 0x01800000 paged = .ok 0x20004C01 u :=
  ⟨by decide, stepEntry_ok (by decide +kernel), stepEntry_ok (by decide +kernel), stepEntry_ok (by decide +kernel)⟩

theorem witness_CoherentStatesGiveNoAccessFault : Coherent paged ∧
    ∃ t, exec (.storeB 0x00C04010 1) paged = .next t ∧ t.response = some ⟨.storePageFault, 0, 0x00C04010, []⟩ := by
  obtain ⟨t, e, h⟩ := nextBy_next test_storeB_fault
  rw [Bool.and_eq_true] at h
  exact ⟨paged_coherent, t, e, by simpa [gave] using h.1⟩

/-- No eligible way in L2 set 0x41, where 0x80001044 would go: every inclusion flag is set. -/
def stuck : State :=
  allWays.foldl (fun s x => s.setLine2 0x41 x ⟨true, BitVec.ofNat 50 (0x30000 + x.val), Vector.replicate 64 0, true⟩) bare

/-- The same with an L1 victim to evict, owned in another L2 set. -/
def stuckOwned : State :=
  (stuck.setLine1 1 0 ⟨true, 0x80002, Vector.replicate 64 1⟩).setLine2 0x81 3 ⟨true, 0x20000, Vector.replicate 64 0, true⟩

/-- The hypotheses at the second place, of a state whose translation of 0x80001044 is off. -/
def stuckHolds (u : State) : Prop :=
  (∀ kind, translate 0x80001044 kind u = .ok 0x80001044 u) ∧ lookup1 u 0x80001044 = none ∧ victim1 u = 0 ∧
    (∃ w, evict1 (l1Index 0x80001044) 0 u = .ok () w ∧ ∀ x, (w.line2 (l2Index 0x80001044) x).incl = true) ∧
    lookup2 u 0x80001044 = none

theorem off_translates {s : State} {a : Addr} (h : s.scheme = .off) (x : s.xlen = .w64) (kind : AccessKind) :
    translate a kind s = .ok a s := by
  have e := translate_bypassed (s := s) (kind := kind) (.inl h) a
  rwa [x] at e

theorem evictOk {i : Fin 64} {w : Fin 8} {s : State} {p : State → Bool} (h : okBy (evict1 i w s) (fun _ t => p t) = true) :
    ∃ t, evict1 i w s = .ok () t ∧ p t = true := by
  obtain ⟨_, t, e, h⟩ := okBy_ok h
  exact ⟨t, e, h⟩

theorem stuck_holds {u : State} (off : ∀ kind, translate 0x80001044 kind u = .ok 0x80001044 u)
    (l1 : lookup1 u 0x80001044 = none) (v : victim1 u = 0) (l2 : lookup2 u 0x80001044 = none)
    (h : okBy (evict1 (l1Index 0x80001044) 0 u) (fun _ w => allWays.all fun x => (w.line2 (l2Index 0x80001044) x).incl) = true) :
    stuckHolds u := by
  obtain ⟨w, e, h⟩ := evictOk h
  exact ⟨off, l1, v, ⟨w, e, fun x => List.all_eq_true.1 h x (List.mem_finRange x)⟩, l2⟩

theorem witness_InconsistentCachesGiveAnAccessFault :
    ((∀ kind, translate 0x80001044 kind orphan = .ok 0x80001044 orphan) ∧ lookup1 orphan 0x80001044 = none ∧ victim1 orphan = 0 ∧
      (orphan.line1 (l1Index 0x80001044) 0).valid = true ∧ lookup2 orphan (orphan.block1 (l1Index 0x80001044) 0) = none) ∧
    stuckHolds stuck ∧ stuckHolds stuckOwned ∧ (1 : Byte) ≠ 0 :=
  ⟨⟨off_translates (by decide +kernel) (by decide +kernel), by decide +kernel, by decide +kernel, by decide +kernel, by decide +kernel⟩,
    stuck_holds (off_translates (by decide +kernel) (by decide +kernel)) (by decide +kernel) (by decide +kernel) (by decide +kernel) (by decide +kernel),
    stuck_holds (off_translates (by decide +kernel) (by decide +kernel)) (by decide +kernel) (by decide +kernel) (by decide +kernel) (by decide +kernel),
    by decide⟩

theorem witness_AccessOutsideTheWindowIsRefused : Coherent bare ∧ Bypassed bare .read ∧ Bypassed bare .write ∧ Bypassed bare .execute ∧
    (∃ k < 1, bsValid bare.cfg (bare.plainAddr 0x7FFFFFFF k) = false) ∧ (∃ k < 2, bsValid bare.cfg (bare.plainAddr 0x80FFFFFF k) = false) ∧
    (∃ k < 4, bsValid bare.cfg (bare.plainAddr 0x80FFFFFD k) = false) ∧ (∃ k < 8, bsValid bare.cfg (bare.plainAddr 0x80FFFFF9 k) = false) ∧
    (255 : Byte) ≠ 0 ∧ ∃ k < (255 : Byte).toNat, bsValid bare.cfg (bare.plainAddr 0x80FFFF02 k) = false :=
  ⟨bare_coherent, .inl rfl, .inl rfl, .inl rfl, ⟨0, by decide, by decide +kernel⟩, ⟨1, by decide, by decide +kernel⟩, ⟨3, by decide, by decide +kernel⟩,
    ⟨7, by decide, by decide +kernel⟩, by decide, ⟨254, by decide, by decide +kernel⟩⟩

/-- Machine mode with a status word over T32. -/
def machine (status : Word) : State := { paged with priv := .M, status := status }

/-- V-REF-2, a root table outside the window; and a pointer that leads outside. -/
theorem witness_WalkOutsideTheWindowIsRefused :
    LeadsOutside { paged3 with rootPpn := 0x10 } .threeLevel (effective paged3.xlen 0x1000) Paging.threeLevel.top 0x10 ∧
    LeadsOutside paged .twoLevel (effective paged.xlen 0x01C00000) Paging.twoLevel.top paged.rootPpn ∧
    (paged3.scheme.paging = some .threeLevel ∧ paged.scheme.paging = some .twoLevel) ∧
    (TranslatedFor paged .read ∧ TranslatedFor paged .write ∧ TranslatedFor paged .execute ∧ TranslatedFor paged .dontCare) ∧
    (TranslatedFor (machine 0x20800) .read ∧ TranslatedFor (machine 0x20000) .write ∧ TranslatedFor (machine 0x20800) .dontCare) ∧
    (255 : Byte) ≠ 0 := by
  refine ⟨⟨by decide +kernel, .inl ?_⟩, ⟨by decide +kernel, .inr ⟨?_, ?_, by decide +kernel, ?_⟩⟩, ⟨rfl, rfl⟩,
    ⟨.inl (by decide), .inl (by decide), .inl (by decide), .inl (by decide)⟩,
    ⟨.inr (by decide +kernel), .inr (by decide +kernel), .inr (by decide +kernel)⟩, by decide⟩
  · unfold EntryInWindow; decide +kernel
  · unfold EntryInWindow; decide +kernel
  · unfold ValidPointer; decide +kernel
  · unfold EntryInWindow; decide +kernel

theorem witness_ReservedEffectivePrivilegeIsRefused : (machine 0x21000).scheme ≠ .off ∧ (machine 0x21000).priv = .M ∧
    mprv (machine 0x21000).cfg (machine 0x21000).status = true ∧ mpp (machine 0x21000).cfg (machine 0x21000).status = 2 :=
  ⟨by decide, rfl, by decide +kernel, by decide +kernel⟩

theorem witness_SchemeOffTranslatesToTheSameAddress : bare.scheme = .off ∧ bare.xlen = .w64 ∧
    ({ bare with xlen := .w32 } : State).scheme = .off ∧ ({ bare with xlen := .w32 } : State).xlen = .w32 := ⟨rfl, rfl, rfl, rfl⟩

theorem witness_PrivilegeDecidesWhoIsTranslated : (machine 0).scheme.paging = some .twoLevel ∧ (machine 0).priv = .M ∧
    mprv cfgT 0 = false ∧ mprv cfgT 0x20000 = true ∧ mpp cfgT 0x20000 = 0 ∧ mpp cfgT 0x20800 = 1 ∧ mpp cfgT 0x21000 = 2 ∧
    mpp cfgT 0x21800 = 3 ∧ mprv cfgT 0x21800 = true ∧ paged.priv = .S := by
  refine ⟨rfl, rfl, ?_, ?_, ?_, ?_, ?_, ?_, ?_, rfl⟩ <;> decide +kernel

theorem cold_of_fresh {s : State} (h : s.tlb = Vector.replicate 64 TlbEntry.free) (va : Addr) : ColdFor s va := by
  intro p _ level
  rw [tlbLookup_none]
  intro i
  simp [State.tlbEntry, h, Vector.get, TlbEntry.free]

theorem paged_page : paged.cfg.wf ∧ Memory.wf paged.bs = true ∧ paged.scheme = .twoLevel ∧ paged.priv ≠ .M ∧
    ColdFor paged 0x00C03ABC ∧ Paging.twoLevel.pteAddr 1 paged.rootPpn (effective paged.xlen 0x00C03ABC) = 0x8001000C ∧
    EntryInWindow paged .twoLevel 0x8001000C ∧ paged.entryAt .twoLevel 0x8001000C = 0x20004401 ∧ ValidPointer 0x20004401 ∧
    Paging.twoLevel.pteAddr 0 (Paging.twoLevel.ppn 0x20004401) (effective paged.xlen 0x00C03ABC) = 0x8001100C ∧
    EntryInWindow paged .twoLevel 0x8001100C ∧ paged.entryAt .twoLevel 0x8001100C = 0x20008007 ∧ ValidLeaf .write 0x20008007 := by
  refine ⟨paged_coherent.config, image_canonical, rfl, by decide, cold_of_fresh rfl _, by decide +kernel, ?_, by decide +kernel, ?_, by decide +kernel,
    ?_, by decide +kernel, ?_⟩
  · unfold EntryInWindow; decide +kernel
  · unfold ValidPointer; decide
  · unfold EntryInWindow; decide +kernel
  · unfold ValidLeaf; decide

/-- What every three-level clause asks of T39's root: a pointer, for an address of its first gigabyte. -/
def rootPointer (va : Addr) : Prop := paged3.cfg.wf ∧ Memory.wf paged3.bs = true ∧ paged3.scheme = .threeLevel ∧ paged3.priv ≠ .M ∧
  ColdFor paged3 va ∧ Paging.threeLevel.pteAddr 2 paged3.rootPpn (effective paged3.xlen va) = 0x80014000 ∧
  EntryInWindow paged3 .threeLevel 0x80014000 ∧ paged3.entryAt .threeLevel 0x80014000 = 0x20005401 ∧ ValidPointer 0x20005401

theorem rootPointer_holds {va : Addr} (h : Paging.threeLevel.pteAddr 2 paged3.rootPpn (effective paged3.xlen va) = 0x80014000) :
    rootPointer va :=
  ⟨paged3_coherent.config, image_canonical, rfl, by decide, cold_of_fresh rfl _, h, by unfold EntryInWindow; decide +kernel, by decide +kernel,
    by unfold ValidPointer; decide⟩

/-- An entry of T39 at a level below its root, reached through a pointer. -/
def entryBelow (va : Addr) (level : Nat) (ptr : Word) (e : Addr) (pte : Word) : Prop :=
  Paging.threeLevel.pteAddr level (Paging.threeLevel.ppn ptr) (effective paged3.xlen va) = e ∧ EntryInWindow paged3 .threeLevel e ∧
    paged3.entryAt .threeLevel e = pte

/-- A two-level page; a three-level page; a 2 MiB page, aligned and misaligned. -/
theorem witness_PagesReachedThroughPointersTranslate :
    (paged.cfg.wf ∧ Memory.wf paged.bs = true ∧ paged.scheme = .twoLevel ∧ paged.priv ≠ .M ∧
      ColdFor paged 0x00C03ABC ∧ Paging.twoLevel.pteAddr 1 paged.rootPpn (effective paged.xlen 0x00C03ABC) = 0x8001000C ∧
      EntryInWindow paged .twoLevel 0x8001000C ∧ paged.entryAt .twoLevel 0x8001000C = 0x20004401 ∧ ValidPointer 0x20004401 ∧
      Paging.twoLevel.pteAddr 0 (Paging.twoLevel.ppn 0x20004401) (effective paged.xlen 0x00C03ABC) = 0x8001100C ∧
      EntryInWindow paged .twoLevel 0x8001100C ∧ paged.entryAt .twoLevel 0x8001100C = 0x20008007 ∧ ValidLeaf .write 0x20008007) ∧
    (rootPointer 0x5ABC ∧ entryBelow 0x5ABC 1 0x20005401 0x80015000 0x20005801 ∧ ValidPointer 0x20005801 ∧
      entryBelow 0x5ABC 0 0x20005801 0x80016028 0x20008007 ∧ ValidLeaf .write 0x20008007) ∧
    (rootPointer 0x234567 ∧ entryBelow 0x234567 1 0x20005401 0x80015008 0x200800CF ∧ ValidLeaf .read 0x200800CF ∧
      (0x200800CF : Word).extractLsb' 10 9 = 0) ∧
    rootPointer 0x400000 ∧ entryBelow 0x400000 1 0x20005401 0x80015010 0x200804CF ∧ ValidLeaf .read 0x200804CF ∧
      (0x200804CF : Word).extractLsb' 10 9 ≠ 0 := by
  refine ⟨paged_page, ⟨rootPointer_holds (by decide +kernel), ?_, ?_, ?_, ?_⟩, ⟨rootPointer_holds (by decide +kernel), ?_, ?_, by decide⟩,
    rootPointer_holds (by decide +kernel), ?_, ?_, by decide⟩ <;>
  first
  | (unfold ValidLeaf; decide)
  | (unfold ValidPointer; decide)
  | (unfold entryBelow EntryInWindow; decide +kernel)

/-- The hypotheses of the superpage statement. -/
def superpageHolds (s : State) (va : Addr) (kind : AccessKind) (p : Paging) (leaf : Word) (e : Addr) : Prop :=
  s.cfg.wf ∧ Memory.wf s.bs = true ∧ s.scheme.paging = some p ∧ s.priv ≠ .M ∧ ColdFor s va ∧
    e = p.pteAddr p.top s.rootPpn (effective s.xlen va) ∧ EntryInWindow s p e ∧ s.entryAt p e = leaf ∧ ValidLeaf kind leaf

theorem witness_SuperpageTranslatesOrIsMisaligned : superpageHolds paged 0x00400123 .read .twoLevel 0x201000CF 0x80010004 ∧
    superpageHolds paged 0x00812345 .read .twoLevel 0x201004CF 0x80010008 ∧
    superpageHolds paged3 0x40123456 .execute .threeLevel 0x200000CF 0x80014008 ∧
    superpageHolds paged3 0x80000000 .read .threeLevel 0x200800CF 0x80014010 := by
  refine ⟨⟨paged_coherent.config, image_canonical, rfl, by decide, cold_of_fresh rfl _, by decide +kernel, ?_, by decide +kernel, ?_⟩,
    ⟨paged_coherent.config, image_canonical, rfl, by decide, cold_of_fresh rfl _, by decide +kernel, ?_, by decide +kernel, ?_⟩,
    ⟨paged_coherent.config, image_canonical, rfl, by decide, cold_of_fresh rfl _, by decide +kernel, ?_, by decide +kernel, ?_⟩,
    ⟨paged_coherent.config, image_canonical, rfl, by decide, cold_of_fresh rfl _, by decide +kernel, ?_, by decide +kernel, ?_⟩⟩ <;>
    first
    | (unfold ValidLeaf; decide)
    | (unfold EntryInWindow; decide +kernel)

/-- V-TR-13: a read-only page without Dirty, written. -/
theorem witness_RewritePrecedesThePermissionCheck : (∃ u, fetchPte .twoLevel 0 0x80011 0x00C04010 paged = .ok 0x20008443 u ∧ u.cfg.wf ∧
      Memory.wf u.bs = true ∧ EntryInWindow u .twoLevel (Paging.twoLevel.pteAddr 0 0x80011 0x00C04010)) ∧
    rejectedEntry 0x20008443 = false ∧ isPointer 0x20008443 = false ∧ permits .write 0x20008443 = false ∧
    needsRewrite .write 0x20008443 = true := by
  refine ⟨?_, by decide, by decide, by decide, by decide⟩
  obtain ⟨u, e⟩ := stepEntry_ok (level := 0) (parent := 0x80011) (a := 0x00C04010) (pte := 0x20008443) (by decide +kernel)
  have l := fetchPte_leaves .twoLevel 0 0x80011 0x00C04010 paged
  rw [e] at l
  have w := Walked.coherent l paged_coherent
  refine ⟨u, e, w.config, w.memory, ?_⟩
  have c : u.cfg = cfgT := by rw [l.frame]; rfl
  unfold EntryInWindow
  rw [c]
  decide +kernel

/-- A TLB that holds the leaf of T32's page 0xC03, unmarked, in slot 5. -/
def hot : State := paged.setTlbEntry 5 ⟨true, ⟨0, 0xC03⟩, 0x20008007, false⟩

theorem witness_TlbHitReusesTheStoredEntry :
    tlbLookup hot (tlbTag hot.cfg.tagMode 0 (Paging.twoLevel.key 0x00C03ABC)) = some 5 := by decide +kernel

/-- A full TLB, every marker alike but that of slot 9. -/
def full (others ninth : Bool) : State :=
  { paged with tlb := (Vector.replicate 64 ⟨true, ⟨0, 1⟩, 0, others⟩).set 9 ⟨true, ⟨0, 1⟩, 0, ninth⟩ }

theorem witness_TlbInsertTakesAFreeOrAnUnmarkedSlot : (∃ j, (hot.tlbEntry j).valid = false) ∧
    ((∀ j, ((full true false).tlbEntry j).valid = true) ∧ ∃ j, ((full true false).tlbEntry j).mru = false) ∧
    (∀ j, ((full true true).tlbEntry j).valid = true) ∧ ∀ j, ((full true true).tlbEntry j).mru = true := by
  refine ⟨⟨0, by decide +kernel⟩, ⟨?_, 9, by decide +kernel⟩, ?_, ?_⟩ <;> decide +kernel

/-- V-TLB-8. -/
theorem witness_TranslatingTwiceGivesTheSameAddress : paged.cfg.tagMode = .levelQualified ∧ ColdFor paged 0x00C03ABC ∧
    ∃ t, translate 0x00C03ABC .write paged = .ok 0x80020ABC t := ⟨rfl, cold_of_fresh rfl _, translatesTo_ok (by decide +kernel)⟩

/-- V-TR-9: V clear, R set. -/
theorem witness_FaultingLeafLookingEntryStaysCached : paged.scheme.paging = some .twoLevel ∧ paged.priv ≠ .M ∧ ColdFor paged 0x01400000 ∧
    0x80010014 = Paging.twoLevel.pteAddr 1 paged.rootPpn (effective paged.xlen 0x01400000) ∧ EntryInWindow paged .twoLevel 0x80010014 ∧
    looksLikeLeaf (paged.entryAt .twoLevel 0x80010014) = true ∧ rejectedEntry (paged.entryAt .twoLevel 0x80010014) = true :=
  ⟨rfl, by decide, cold_of_fresh rfl _, by decide +kernel, by unfold EntryInWindow; decide +kernel, by decide +kernel, by decide +kernel⟩

theorem witness_OnlySetCommandsWriteControlElements :
    (∃ t, exec (.setXlen 0) bare = .next t ∧ t.xlen ≠ bare.xlen) ∧ (∃ t, exec (.setAtp 1) bare = .next t ∧ t.rootPpn ≠ bare.rootPpn) ∧
    (∃ t, exec (.setPriv 0) bare = .next t ∧ t.priv ≠ bare.priv) ∧ ∃ t, exec (.setStatus 1) bare = .next t ∧ t.status ≠ bare.status :=
  ⟨⟨_, rfl, by decide⟩, ⟨_, rfl, by decide⟩, ⟨_, rfl, by decide⟩, ⟨_, rfl, by decide⟩⟩

theorem witness_NoCommandInvalidatesTheTlb : (∃ t, exec (.loadB 0x00C04010) hot = .next t) ∧ (hot.tlbEntry 5).valid = true ∧
    (∃ t, exec .sfenceVma hot = .next t) ∧ movesData .sfenceVma = false :=
  ⟨runs (by decide +kernel), by decide +kernel, ⟨_, rfl⟩, rfl⟩

theorem witness_OnlyDataMovesCountAndOnlyTransfersTrace : (∃ t, exec .flush warm = .next t) ∧ movesData .flush = false ∧
    (∃ t, exec (.validate 0x80001044) warm = .next t) ∧ movesData (.validate 0x80001044) = false ∧ Instr.flush ≠ .traceClr := by
  obtain ⟨t, e, -⟩ := nextBy_next test_flush
  exact ⟨⟨t, e⟩, rfl, runs (by decide +kernel), rfl, by decide⟩

theorem witness_DrawsDoNotShowInLoadsAndStores : Coherent bare ∧ movesData (.storeW 0x8000103E 5) = true ∧
    singlePage (addrField (.storeW 0x8000103E 5)) 4 = true ∧
    (∃ t, exec (.storeW 0x8000103E 5) { bare with draws := ⟨[3, 1], [4, 1], []⟩, drawCount := 2 } = .next t) ∧
    movesData (.fetchBlk 0x80001F01 255) = true ∧ singlePage (addrField (.fetchBlk 0x80001F01 255)) (255 : Byte).toNat = true :=
  ⟨bare_coherent, rfl, by decide, runs (by decide +kernel), rfl, by decide⟩

theorem witness_L1HitChangesCountAndLatencyOnly : lookup1 warm 0x80001044 = some 0 := by decide +kernel

theorem witness_FirstLoadOfAFreshHierarchy : Coherent bare ∧ NothingCached bare ∧ Bypassed bare .read ∧ 0x8000107C = effective bare.xlen 0x8000107C ∧
    blockOffset 0x8000107C + 4 ≤ 64 ∧ bsValid bare.cfg 0x8000107C = true :=
  ⟨bare_coherent, resetWith_nothingCached cfgT [] 0, .inl rfl, rfl, by decide, by decide +kernel⟩

theorem witness_StoreHitChangesTheL1LineAlone : Bypassed warm .write ∧ lookup1 warm (effective warm.xlen 0x80001078) = some 0 ∧
    blockOffset (effective warm.xlen 0x80001078) + 8 ≤ 64 ∧ lookup1 warm (effective warm.xlen 0x8000107F) = some 0 ∧
    blockOffset (effective warm.xlen 0x8000107F) + 1 ≤ 64 :=
  ⟨.inl (by decide +kernel), by decide +kernel, by decide +kernel, by decide +kernel, by decide +kernel⟩

theorem witness_L1WriteBackGoesToTheOwningL2Line : lookup2 warm (l1BlockAddr 1 (warm.line1 1 0).tag) = some 0 ∧
    lookup2 orphan (l1BlockAddr 1 (orphan.line1 1 0).tag) = none := ⟨by decide +kernel, by decide +kernel⟩

theorem witness_L2WriteBackGoesToTheBackingStore : warm.cfg.wf ∧ Memory.wf warm.bs = true ∧
    bsValid warm.cfg (l2BlockAddr 0x41 (warm.line2 0x41 0).tag) = true :=
  ⟨warm_coherent.config, warm_coherent.memory, by decide +kernel⟩

theorem witness_VictimsAreTheEligibleWays : victim2 warm 0x41 = some 1 ∧ (warm.line2 0x41 1).incl = false := by decide +kernel

/-- An L2 line that is not in L1. -/
def onlyL2 : State := bare.setLine2 0x41 2 ⟨true, 0x20000, Vector.replicate 64 3, false⟩

/-- The same with a valid L1 victim, owned in L2 set 0x81. -/
def onlyL2Owned : State :=
  (onlyL2.setLine1 1 0 ⟨true, 0x80002, Vector.replicate 64 1⟩).setLine2 0x81 3 ⟨true, 0x20000, Vector.replicate 64 0, true⟩

theorem witness_L2HitFillsL1AndBecomesInclusive : (lookup1 onlyL2 0x80001044 = none ∧ victim1 onlyL2 = 0 ∧
      (onlyL2.line1 (l1Index 0x80001044) 0).valid = false ∧ lookup2 onlyL2 0x80001044 = some 2) ∧
    lookup1 onlyL2Owned 0x80001044 = none ∧ victim1 onlyL2Owned = 0 ∧ (onlyL2Owned.line1 (l1Index 0x80001044) 0).valid = true ∧
      lookup2 onlyL2Owned 0x80001044 = some 2 ∧ lookup2 onlyL2Owned (onlyL2Owned.block1 (l1Index 0x80001044) 0) = some 3 := by
  refine ⟨⟨?_, ?_, ?_, ?_⟩, ?_, ?_, ?_, ?_, ?_⟩ <;> decide +kernel

/-- A block of another tag whose fill evicts the dirty block 0x80001040 from both levels. -/
theorem witness_L2MissEvictsAndRefillsBothLevels : Coherent warm ∧ bsValid warm.cfg 0x80005044 = true ∧
    lookup1 warm 0x80005044 = none ∧ lookup2 warm 0x80005044 = none ∧ victim1 warm = 0 ∧
    (warm.line1 (l1Index 0x80005044) 0).valid = true ∧ (warm.line2 (l2Index 0x80005044) 0).valid = true := by
  refine ⟨warm_coherent, ?_, ?_, ?_, ?_, ?_, ?_⟩ <;> decide +kernel

/-- R212, R215: the write-back's entry before the fill's, `LAT_L2_MISS` twice, the dirty bytes in the Backing Store. -/
theorem test_acquireLine_evicts : okBy (acquireLine 0x80005044 warm) (fun w t => w == 0 && counters t == (0, 2, 0, 2) &&
    t.trace == [⟨0x80001040, .read, 7⟩, ⟨0x80001040, .write, 7⟩, ⟨0x80005040, .read, 7⟩] &&
    t.lat == 1000100 + 2000100 && bsValue t 0x80001044 4 == 0xDEADBEEF) = true := by decide +kernel

theorem witness_StepKeepsCoherence : Coherent (waiting warm 0x000000000000000500000000800020440022) ∧
    ∃ t, step (waiting warm 0x000000000000000500000000800020440022) = .next t :=
  ⟨warm_coherent.congr rfl rfl rfl rfl, runs (by decide +kernel)⟩

theorem witness_StepKeepsTheTlbInvariants : TlbDistinct (waiting paged 0x000000000000000000000000C040100010) ∧
    MarkedWhileFree (waiting paged 0x000000000000000000000000C040100010) ∧
    ∃ t, step (waiting paged 0x000000000000000000000000C040100010) = .next t := by
  have f : ∀ i, ((waiting paged 0x000000000000000000000000C040100010).tlbEntry i).valid = false := by
    intro i; simp [waiting, paged, bare, State.resetWith, State.tlbEntry, Vector.get, TlbEntry.free]
  exact ⟨fun i _ h => absurd h (Bool.eq_false_iff.1 (f i)), fun _ j _ h => absurd h (Bool.eq_false_iff.1 (f j)), runs (by decide +kernel)⟩

theorem witness_StepKeepsTheMissBalance : Coherent (waiting warm 0x000000000000000500000000800020440022) ∧
    MissesBalance (waiting warm 0x000000000000000500000000800020440022) ∧
    ∃ t, step (waiting warm 0x000000000000000500000000800020440022) = .next t :=
  ⟨witness_StepKeepsCoherence.1, by unfold MissesBalance; decide +kernel, witness_StepKeepsCoherence.2⟩

theorem witness_InvariantsHoldAtReset : cfgT.wf := bare_coherent.config

theorem witness_ResetGivesEveryElementItsValue : ({ warm with inputs := [.reset] } : State).inputs = .reset :: [] := rfl

theorem witness_HostWriteChangesTheBackingStoreAlone : Coherent { warm with inputs := [.hostWrite 0x80001044 1] } ∧
    bsValid warm.cfg 0x80001044 = true ∧ bsValid warm.cfg 0x81000000 = false ∧ bsValid warm.cfg 0x80FFFFFF = true :=
  ⟨warm_coherent.congr rfl rfl rfl rfl, by decide +kernel, by decide +kernel, by decide +kernel⟩

end Sys2Proof.Tests
end

section
/-! A step that takes a request which decodes (R11, R90). -/

namespace Sys2Proof.Machine

/-- The decoded command runs in the state with the request taken and with `now` and the draws presented with it (R13, R41). -/
theorem step_command {s : State} {w : Request} {now : Word} {draws : Draws} {rest : List Input} {i : Instr}
    (hin : s.inputs = .command w now draws :: rest) (hdec : decode w = .ok i) :
    step s = exec i (beginCommand now draws { s with inputs := rest }) := by
  have htake : takeInput s = some (.command w now draws, { s with inputs := rest }) :=
    takeInput_some.2 ⟨rest, hin, rfl⟩
  simp only [step, htake, hdec]

/-- Settles O5: `step_command` when a request waits, `step_idle` when nothing does. -/
theorem stepRunsTheDecodedCommand : Obligations.StepRunsTheDecodedCommand :=
  ⟨fun _ _ _ _ _ _ hin hdec => step_command hin hdec, fun _ => step_idle⟩

end Sys2Proof.Machine
end

section
/-! What each procedure of the controller keeps and adds, in every state and however it ends (R210 to R219): the part outside
the caches is kept, and the trace grows by block transfers (R40, R306). -/

namespace Sys2Proof.Machine

/-- The trace of `t` is that of `s` with further entries, each for a block and with the `now` of `s` (R40, R41). -/
def TraceGrows (s t : State) : Prop :=
  ∃ es, t.trace = s.trace ++ es ∧ ∀ e ∈ es, e.cycle = s.now ∧ blockOf e.addr = e.addr

/-- The four counters are the same (R33). -/
def SameCounters (s t : State) : Prop :=
  t.l1Hit = s.l1Hit ∧ t.l1Miss = s.l1Miss ∧ t.l2Hit = s.l2Hit ∧ t.l2Miss = s.l2Miss

/-- What moving blocks between the levels can do, as far as the whole-machine rules ask. -/
structure Transfers (s t : State) : Prop where
  outside : SameTranslation s t
  traced : TraceGrows s t

/-- What write-backs alone can do: they do not count either (R33, R217, R218). -/
structure WritesBack (s t : State) : Prop extends Transfers s t where
  counters : SameCounters s t

variable {s t u : State}

theorem SameTranslation.control (h : SameTranslation s t) : SameControl s t := h.1

theorem SameTranslation.tlb_eq (h : SameTranslation s t) : t.tlb = s.tlb := h.2.1

theorem SameTranslation.inputs_eq (h : SameTranslation s t) : SameInputs s t := h.2.2

theorem SameInputs.now_eq (h : SameInputs s t) : t.now = s.now := h.2

theorem TraceGrows.of_eq (h : t.trace = s.trace) : TraceGrows s t := ⟨[], by simp [h], by simp⟩

theorem TraceGrows.trans (h : TraceGrows s t) (hn : t.now = s.now) (k : TraceGrows t u) : TraceGrows s u := by
  obtain ⟨es, he, hes⟩ := h
  obtain ⟨fs, hf, hfs⟩ := k
  refine ⟨es ++ fs, by rw [hf, he, List.append_assoc], fun e hmem => ?_⟩
  rcases List.mem_append.1 hmem with hmem | hmem
  · exact hes e hmem
  · exact hn ▸ hfs e hmem

theorem traceGrows_appendTrace (s : State) {b : Addr} (hb : blockOf b = b) (k : TraceKind) :
    TraceGrows s (s.appendTrace b k) :=
  ⟨[⟨b, k, s.now⟩], rfl, by simp [hb]⟩

theorem Transfers.trans (h : Transfers s t) (k : Transfers t u) : Transfers s u :=
  ⟨h.outside.trans k.outside, h.traced.trans h.outside.inputs_eq.now_eq k.traced⟩

/-- A change of lines, counters, latency, the byte list or draws. -/
theorem Transfers.of_same (ho : SameTranslation s t) (ht : t.trace = s.trace) : Transfers s t := ⟨ho, .of_eq ht⟩

theorem WritesBack.refl (s : State) : WritesBack s s := ⟨.of_same (.refl s) rfl, rfl, rfl, rfl, rfl⟩

theorem WritesBack.trans (h : WritesBack s t) (k : WritesBack t u) : WritesBack s u := by
  refine ⟨h.toTransfers.trans k.toTransfers, ?_⟩
  have hc := h.counters
  have kc := k.counters
  simp only [SameCounters] at *
  simp [*]

/-- A change of lines, latency, the byte list or draws. -/
theorem WritesBack.of_same (ho : SameTranslation s t) (hc : SameCounters s t) (ht : t.trace = s.trace) : WritesBack s t :=
  ⟨.of_same ho ht, hc⟩

theorem writesBack_addLat (s : State) (n : Nat) : WritesBack s (s.addLat n) :=
  .of_same (by simp [SameTranslation, SameControl, SameInputs]) (by simp [SameCounters]) rfl

theorem writesBack_setLine1 (s : State) (i : Fin 64) (w : Fin 8) (l : L1Line) : WritesBack s (s.setLine1 i w l) :=
  .of_same (by simp [SameTranslation, SameControl, SameInputs]) (by simp [SameCounters]) rfl

theorem writesBack_setLine2 (s : State) (i : Fin 256) (w : Fin 8) (l : L2Line) : WritesBack s (s.setLine2 i w l) :=
  .of_same (by simp [SameTranslation, SameControl, SameInputs]) (by simp [SameCounters]) rfl

theorem writesBack_setBs (s : State) (m : List Host.Cell) : WritesBack s (s.setBs m) :=
  .of_same (by simp [SameTranslation, SameControl, SameInputs]) (by simp [SameCounters]) rfl

theorem writesBack_appendTrace (s : State) {b : Addr} (hb : blockOf b = b) (k : TraceKind) :
    WritesBack s (s.appendTrace b k) :=
  ⟨⟨by simp [SameTranslation, SameControl, SameInputs], traceGrows_appendTrace s hb k⟩, by simp [SameCounters]⟩

/-! Write-backs -/

theorem bsWrite_leaves {ε : Type} (pa : Addr) (bytes : List Byte) (s : State) :
    (bsWrite pa bytes s : Run ε Unit).Leaves (WritesBack s) := by
  rw [bsWrite]
  split
  · exact writesBack_setBs s _
  · trivial

theorem bsWriteBlock_leaves {ε : Type} (b : Addr) (data : Block) (s : State) :
    (bsWriteBlock b data s : Run ε Unit).Leaves (WritesBack s) :=
  Run.Leaves.forEach (fun _ t h => (bsWrite_leaves _ _ t).mono fun _ k => h.trans k) _ (.refl s)

theorem writeBack1_leaves (line : L1Line) (i : Fin 64) (s : State) : (writeBack1 line i s).Leaves (WritesBack s) := by
  simp only [writeBack1]
  split
  · exact writesBack_setLine2 s _ _ _
  · exact .refl s

theorem writeBack2_leaves (line : L2Line) (i : Fin 256) (s : State) : (writeBack2 line i s).Leaves (WritesBack s) :=
  (bsWriteBlock_leaves _ _ s).bind (fun _ h => h) fun _ t h => h.trans (writesBack_appendTrace t (by simp) .write)

theorem evict1_leaves (i : Fin 64) (w : Fin 8) (s : State) : (evict1 i w s).Leaves (WritesBack s) := by
  rw [evict1]
  split
  · exact (writeBack1_leaves _ i s).bind (fun _ h => h) fun _ t h => h.trans (writesBack_setLine1 t _ _ _)
  · exact .refl s

theorem evict2_leaves (i : Fin 256) (w : Fin 8) (s : State) : (evict2 i w s).Leaves (WritesBack s) := by
  rw [evict2]
  split
  · exact (writeBack2_leaves _ i s).bind (fun _ h => h) fun _ t h => h.trans (writesBack_addLat t _)
  · exact .refl s

theorem flushLine1_leaves (i : Fin 64) (w : Fin 8) (s : State) : (flushLine1 i w s).Leaves (WritesBack s) := by
  rw [flushLine1]
  split
  · exact (writeBack1_leaves _ i _).mono fun _ h => (writesBack_setLine1 s _ _ _).trans h
  · exact .refl s

theorem flushLine2_leaves (i : Fin 256) (w : Fin 8) (s : State) : (flushLine2 i w s).Leaves (WritesBack s) := by
  rw [flushLine2]
  split
  · exact (writeBack2_leaves _ i _).mono fun _ h => (writesBack_setLine2 s _ _ _).trans h
  · exact .refl s

/-- A procedure run for each place of a list of sets writes back, if it does for one place (R146). -/
theorem forEach_ways_leaves {n : Nat} {f : Fin n → Fin 8 → State → Run Unit Unit}
    (hf : ∀ i w s, (f i w s).Leaves (WritesBack s)) (is : List (Fin n)) (s : State) :
    (Run.forEach (fun i => Run.forEach (f i) allWays) is s).Leaves (WritesBack s) :=
  Run.Leaves.forEach (fun i _ h => Run.Leaves.forEach (fun w t h => (hf i w t).mono fun _ k => h.trans k) _ h) _ (.refl s)

/-- All a `flush` can do (R146, R219). -/
theorem flushBoth_leaves (s : State) : (flushBoth s).Leaves (WritesBack s) :=
  (forEach_ways_leaves flushLine1_leaves _ s).bind (fun _ h => h) fun _ t h =>
    (forEach_ways_leaves flushLine2_leaves _ t).mono fun _ k => h.trans k

/-! `AcquireLine` -/

theorem tookL1Draw_transfers (s : State) : Transfers s s.tookL1Draw :=
  .of_same (by simp [SameTranslation, SameControl, SameInputs]) (by simp)

theorem tookL2Draw_transfers (s : State) : Transfers s s.tookL2Draw :=
  .of_same (by simp [SameTranslation, SameControl, SameInputs]) (by simp)

theorem bsReadBlock_leaves {ε : Type} (b : Addr) (s : State) :
    (bsReadBlock b s : Run ε Block).Leaves fun t => t = s := by
  rw [bsReadBlock]
  split
  · rfl
  · trivial

theorem fillFromL2_leaves (pa : Addr) (v w : Fin 8) (s : State) : (fillFromL2 pa v w s).Leaves (Transfers s) :=
  Transfers.of_same (by simp [SameTranslation, SameControl, SameInputs, refill1]) rfl

theorem fillFromBs_leaves (pa : Addr) (v u : Fin 8) (s : State) : (fillFromBs pa v u s).Leaves (Transfers s) := by
  refine (bsReadBlock_leaves _ s).bind (fun _ h => h ▸ (WritesBack.refl s).toTransfers) fun blk t h => ?_
  rw [h]
  have traced := (writesBack_appendTrace s (blockOf_blockOf pa) .read).trans (writesBack_addLat _ s.cfg.latL2Miss)
  exact ((traced.trans (writesBack_setLine2 _ _ _ _)).trans (writesBack_setLine1 _ _ _ _)).toTransfers

theorem missL2_leaves (pa : Addr) (v : Fin 8) (s : State) : (missL2 pa v s).Leaves (Transfers s) := by
  have counted : Transfers s s.bumpL2Miss := .of_same (by simp [SameTranslation, SameControl, SameInputs]) rfl
  simp only [missL2]
  split
  · exact counted
  · next u _ =>
    have drawn := counted.trans (tookL2Draw_transfers _)
    refine (evict2_leaves (l2Index pa) u _).bind (fun _ h => drawn.trans h.toTransfers) fun _ t h => ?_
    exact (fillFromBs_leaves pa v u t).mono fun _ k => (drawn.trans h.toTransfers).trans k

theorem consultL2_leaves (pa : Addr) (v : Fin 8) (s : State) : (consultL2 pa v s).Leaves (Transfers s) := by
  rw [consultL2]
  split
  · exact fillFromL2_leaves pa v _ s
  · exact missL2_leaves pa v s

theorem missL1_leaves (pa : Addr) (s : State) : (missL1 pa s).Leaves (Transfers s) := by
  have counted : Transfers s s.bumpL1Miss := .of_same (by simp [SameTranslation, SameControl, SameInputs]) rfl
  have drawn := counted.trans (tookL1Draw_transfers _)
  refine (evict1_leaves (l1Index pa) _ _).bind (fun _ h => drawn.trans h.toTransfers) fun _ t h => ?_
  have checked := (drawn.trans h.toTransfers).trans (writesBack_addLat t t.cfg.latL1Check).toTransfers
  exact (consultL2_leaves pa _ _).mono fun _ k => checked.trans k

/-- All an `AcquireLine` can do, in every state and however it ends (R210). -/
theorem acquireLine_leaves (pa : Addr) (s : State) : (acquireLine pa s).Leaves (Transfers s) := by
  rw [acquireLine]
  split
  · exact Transfers.of_same (by simp [SameTranslation, SameControl, SameInputs]) rfl
  · exact missL1_leaves pa s

end Sys2Proof.Machine
end

section
/-! Reset (R50, R320): the value of each array's elements, and the invariants at reset (R321). -/

namespace Sys2Proof.Machine

@[simp] theorem resetWith_tlbEntry (cfg : Config) (xs : List Input) (n : Nat) (i : Fin 64) :
    (State.resetWith cfg xs n).tlbEntry i = .free := by
  simp [State.tlbEntry, State.resetWith, Vector.get_eq_getElem]

/-- A reset state is coherent for want of lines. -/
theorem resetWith_coherent {cfg : Config} (h : cfg.wf) (xs : List Input) (n : Nat) :
    Coherent (State.resetWith cfg xs n) :=
  (resetWith_nothingCached cfg xs n).coherent h h.2.2.2

/-- With every slot free no two entries are valid (R30). -/
theorem resetWith_tlbDistinct (cfg : Config) (xs : List Input) (n : Nat) : TlbDistinct (State.resetWith cfg xs n) := by
  intro i j hi
  simp [TlbEntry.free] at hi

/-- With every slot free no entry is valid (R337). -/
theorem resetWith_markedWhileFree (cfg : Config) (xs : List Input) (n : Nat) :
    MarkedWhileFree (State.resetWith cfg xs n) := by
  intro i j _ hj
  simp [TlbEntry.free] at hj

theorem resetWith_missesBalance (cfg : Config) (xs : List Input) (n : Nat) : MissesBalance (State.resetWith cfg xs n) :=
  (BitVec.add_zero 0).symm

/-- A step that takes a reset (R320). -/
theorem step_reset {s : State} {rest : List Input} (h : s.inputs = .reset :: rest) :
    step s = .next (State.resetWith s.cfg rest s.drawCount) := by
  have htake : takeInput s = some (.reset, { s with inputs := rest }) := takeInput_some.2 ⟨rest, h, rfl⟩
  rw [step, htake]
  rfl

/-- Settles O57: nothing is cached, every TLB slot is free and every counter is 0. -/
theorem invariantsHoldAtReset : Obligations.InvariantsHoldAtReset :=
  ⟨fun cfg xs n h => ⟨resetWith_coherent h xs n, resetWith_nothingCached cfg xs n, resetWith_tlbDistinct cfg xs n,
    resetWith_markedWhileFree cfg xs n, resetWith_missesBalance cfg xs n⟩, by decide, rfl⟩

/-- Settles O58: the scalar elements by definition, the arrays by their elements, the step by `step_reset`. -/
theorem resetGivesEveryElementItsValue : Obligations.ResetGivesEveryElementItsValue := by
  refine ⟨?_, fun s rest h => step_reset h⟩
  rintro cfg xs n t rfl
  obtain ⟨hl1, hl2⟩ := resetWith_nothingCached cfg xs n
  have htlb : ∀ i, ((State.resetWith cfg xs n).tlbEntry i).valid = false ∧
      ((State.resetWith cfg xs n).tlbEntry i).mru = false := fun i => by simp [TlbEntry.free]
  exact ⟨rfl, rfl, rfl, rfl, rfl, rfl, htlb, hl1, hl2, rfl, rfl, rfl, rfl, rfl, rfl, rfl⟩

end Sys2Proof.Machine
end

section
/-! Loads, stores and fetches: a property that translation, `AcquireLine` and the write of a line's data keep, every one of them
keeps, on the single page and on the page crossing path (R232 to R249). -/

namespace Sys2Proof.Machine

/-- What a property must satisfy to be kept by every command that moves data. -/
structure DataInvariant (P : State → Prop) : Prop where
  translated : ∀ va kind s, P s → (translate va kind s).Leaves P
  acquired : ∀ pa s, P s → (acquireLine pa s).Leaves P
  wroteData : ∀ i w d s, P s → P (s.setLine1 i w { s.line1 i w with data := d })
  responded : ∀ r s, P s → P (s.respond r)

namespace DataInvariant

variable {P : State → Prop} {s t : State} (h : DataInvariant P)
include h

/-! The physical data phase -/

theorem readLine (hs : P s) (pa : Addr) (n : Nat) : (readLine pa n s).Leaves P :=
  (h.acquired pa s hs).bind (fun _ ht => ht) fun _ _ ht => ht

theorem writeLine (hs : P s) (pa : Addr) (bytes : List Byte) : (writeLine pa bytes s).Leaves P :=
  (h.acquired pa s hs).bind (fun _ ht => ht) fun _ t ht => h.wroteData _ _ _ t ht

theorem readLineBytes (hs : P s) (n : Nat) (pa : Addr) : (readLineBytes n pa s).Leaves P := by
  induction n generalizing s pa with
  | zero => exact hs
  | succ n ih =>
    exact (h.readLine hs pa 1).bind (fun _ ht => ht) fun _ _ ht => (ih ht (pa + 1)).bind (fun _ hu => hu) fun _ _ hu => hu

theorem writeLineBytes (hs : P s) (bytes : List Byte) (pa : Addr) : (writeLineBytes bytes pa s).Leaves P := by
  induction bytes generalizing s pa with
  | nil => exact hs
  | cons b bytes ih => exact (h.writeLine hs pa [b]).bind (fun _ ht => ht) fun _ _ ht => ih ht (pa + 1)

theorem physRead (hs : P s) (pa : Addr) (n : Nat) : (physRead pa n s).Leaves P := by
  rw [Machine.physRead]
  split
  · exact h.readLine hs pa n
  · exact h.readLineBytes hs n pa

theorem physWrite (hs : P s) (pa : Addr) (bytes : List Byte) : (physWrite pa bytes s).Leaves P := by
  rw [Machine.physWrite]
  split
  · exact h.writeLine hs pa bytes
  · exact h.writeLineBytes hs bytes pa

/-! The virtual access -/

theorem access {α : Type} {phase : Addr → State → Run Unit α} (hp : ∀ pa t, P t → (phase pa t).Leaves P) (hs : P s)
    (va : Addr) (kind : AccessKind) : (access va kind phase s).Leaves P :=
  (Run.leaves_mapFailure.2 (h.translated va kind s hs)).bind (fun _ ht => ht) fun pa t ht =>
    Run.leaves_mapFailure.2 (hp pa t ht)

theorem memReadBytes (hs : P s) (kind : AccessKind) (n : Nat) (va : Addr) : (memReadBytes kind n va s).Leaves P := by
  induction n generalizing s va with
  | zero => exact hs
  | succ n ih =>
    exact (h.access (fun pa _ ht => h.physRead ht pa 1) hs va kind).bind (fun _ ht => ht) fun _ _ ht =>
      (ih ht (va + 1)).bind (fun _ hu => hu) fun _ _ hu => hu

theorem memWriteBytes (hs : P s) (bytes : List Byte) (va : Addr) : (memWriteBytes bytes va s).Leaves P := by
  induction bytes generalizing s va with
  | nil => exact hs
  | cons b bytes ih =>
    exact (h.access (fun pa _ ht => h.physWrite ht pa [b]) hs va .write).bind (fun _ ht => ht) fun _ _ ht => ih ht (va + 1)

theorem memRead (hs : P s) (va : Addr) (n : Nat) (kind : AccessKind) : (memRead va n kind s).Leaves P := by
  rw [Machine.memRead]
  split
  · exact h.access (fun pa _ ht => h.physRead ht pa n) hs va kind
  · exact h.memReadBytes hs kind n va

theorem memWrite (hs : P s) (va : Addr) (bytes : List Byte) : (memWrite va bytes s).Leaves P := by
  rw [Machine.memWrite]
  split
  · exact h.access (fun pa _ ht => h.physWrite ht pa bytes) hs va .write
  · exact h.memWriteBytes hs bytes va

/-! The commands -/

/-- What a procedure leaves, the end of its command leaves (R12). -/
theorem finish {α : Type} {answer : α → Response} {x : Run Failure α} (hx : x.Leaves P)
    (e : finish answer x = .next t) : P t := by
  cases x with
  | ok a u => cases e; exact h.responded _ u hx
  | raise f u => cases e; exact h.responded _ u hx
  | refuse r => cases e

/-- Every load, store and fetch keeps the property (R240 to R249). -/
theorem exec {i : Instr} (hm : movesData i = true) (hs : P s) (e : exec i s = .next t) : P t := by
  cases i with
  | loadB a => exact h.finish (h.memRead hs a 1 .read) e
  | loadH a => exact h.finish (h.memRead hs a 2 .read) e
  | loadW a => exact h.finish (h.memRead hs a 4 .read) e
  | loadD a => exact h.finish (h.memRead hs a 8 .read) e
  | storeB a d => exact h.finish (h.memWrite hs a (bytesOf 1 d)) e
  | storeH a d => exact h.finish (h.memWrite hs a (bytesOf 2 d)) e
  | storeW a d => exact h.finish (h.memWrite hs a (bytesOf 4 d)) e
  | storeD a d => exact h.finish (h.memWrite hs a (bytesOf 8 d)) e
  | fetchW a => exact h.finish (h.memRead hs a 4 .execute) e
  | fetchBlk a len =>
    simp only [Machine.exec, execFetchBlk] at e
    split at e
    · cases e; exact h.responded _ s hs
    · exact h.finish (h.memRead hs a len.toNat .execute) e
  | _ => cases hm

end DataInvariant

end Sys2Proof.Machine
end

section
/-! What each command can do (R305, R306): one case for the commands that move data, one for `validate`, one for `flush`, one for
the rest; and from it the rules about the whole machine. -/

namespace Sys2Proof.Machine

/-- What every command keeps of the TLB (R29, R30, R337). -/
structure TlbKept (s t : State) : Prop where
  valid : ∀ k, (s.tlbEntry k).valid = true → (t.tlbEntry k).valid = true
  distinct : TlbDistinct s → TlbDistinct t
  marked : MarkedWhileFree s → MarkedWhileFree t

/-- What a load, store or fetch can do, as far as the whole-machine rules ask. -/
structure Moved (s t : State) : Prop where
  control : SameControl s t
  inputs : SameInputs s t
  tlb : TlbKept s t
  traced : TraceGrows s t

/-- A control element differs only after the command that sets it (R22 to R26). -/
structure SetsOwnElement (i : Instr) (s t : State) : Prop where
  xlen : t.xlen ≠ s.xlen → ∃ d, i = .setXlen d
  atp : t.scheme ≠ s.scheme ∨ t.rootPpn ≠ s.rootPpn → ∃ d, i = .setAtp d
  priv : t.priv ≠ s.priv → ∃ d, i = .setPriv d
  status : t.status ≠ s.status → ∃ d, i = .setStatus d
  cfg : t.cfg = s.cfg

/-- What a command that neither moves data nor translates nor flushes can do (R271 to R283). -/
structure Controls (i : Instr) (s t : State) : Prop where
  sets : SetsOwnElement i s t
  frame : t = { s with xlen := t.xlen, scheme := t.scheme, rootPpn := t.rootPpn, priv := t.priv, status := t.status,
                       lat := t.lat, trace := t.trace, response := t.response }
  trace : i ≠ .traceClr → t.trace = s.trace

/-- The four kinds of command, with what each can do. -/
inductive Effect (i : Instr) (s t : State) : Prop
  | moves (hi : movesData i = true) (h : Moved s t)
  | validates (a : Addr) (hi : i = .validate a) (u : State) (r : Response) (h : Walked s u) (ht : t = u.respond r)
  | flushes (hi : i = .flush) (u : State) (h : flushBoth s = .ok () u) (ht : t = u.respond .done)
  | controls (h : Controls i s t)

variable {i : Instr} {s t u : State}

theorem SameControl.refl (s : State) : SameControl s s := (SameTranslation.refl s).1

theorem SameControl.trans (h : SameControl s t) (k : SameControl t u) : SameControl s u := by
  simp only [SameControl] at *; simp [*]

theorem SameInputs.trans (h : SameInputs s t) (k : SameInputs t u) : SameInputs s u :=
  ⟨k.1.trans h.1, k.2.trans h.2⟩

theorem SameControl.sets (h : SameControl s t) (i : Instr) : SetsOwnElement i s t := by
  obtain ⟨hcfg, hxlen, hscheme, hroot, hpriv, hstatus⟩ := h
  exact ⟨absurd hxlen, fun c => (c.elim (absurd hscheme) (absurd hroot)), absurd hpriv, absurd hstatus, hcfg⟩

theorem SetsOwnElement.respond (h : SetsOwnElement i s t) (r : Response) : SetsOwnElement i s (t.respond r) :=
  ⟨h.xlen, h.atp, h.priv, h.status, h.cfg⟩

theorem TlbKept.of_eq (h : t.tlb = s.tlb) : TlbKept s t := by
  refine ⟨fun k => ?_, fun d i j => ?_, fun m i j => ?_⟩ <;> simp only [tlbEntry_congr h]
  · exact id
  · exact d i j
  · exact m i j

theorem TlbKept.trans (h : TlbKept s t) (k : TlbKept t u) : TlbKept s u :=
  ⟨fun j => k.valid j ∘ h.valid j, k.distinct ∘ h.distinct, k.marked ∘ h.marked⟩

/-! Data moves -/

theorem Moved.refl (s : State) : Moved s s := ⟨.refl s, ⟨rfl, rfl⟩, .of_eq rfl, .of_eq rfl⟩

theorem Moved.trans (h : Moved s t) (k : Moved t u) : Moved s u :=
  ⟨h.control.trans k.control, h.inputs.trans k.inputs, h.tlb.trans k.tlb, h.traced.trans h.inputs.now_eq k.traced⟩

theorem Walked.sameControl (h : Walked s t) : SameControl s t := by rw [h.frame]; exact .refl s

theorem Walked.tlbKept (h : Walked s t) : TlbKept s t := ⟨h.valid, h.distinct, h.marked⟩

theorem Walked.sameCounters (h : Walked s t) : SameCounters s t := by rw [h.frame]; exact ⟨rfl, rfl, rfl, rfl⟩

theorem Walked.trace_eq (h : Walked s t) : t.trace = s.trace := by rw [h.frame]

theorem Walked.moved (h : Walked s t) : Moved s t :=
  ⟨h.sameControl, by rw [h.frame]; exact ⟨rfl, rfl⟩, h.tlbKept, .of_eq h.trace_eq⟩

theorem Transfers.moved (h : Transfers s t) : Moved s t :=
  ⟨h.outside.control, h.outside.inputs_eq, .of_eq h.outside.tlb_eq, h.traced⟩

theorem moved_respond (s : State) (r : Response) : Moved s (s.respond r) :=
  ⟨.refl s, ⟨rfl, rfl⟩, .of_eq rfl, .of_eq rfl⟩

theorem dataInvariant_moved (s : State) : DataInvariant (Moved s) where
  translated va kind t h := (translate_leaves va kind t).mono fun _ k => h.trans k.moved
  acquired pa t h := (acquireLine_leaves pa t).mono fun _ k => h.trans k.moved
  wroteData i w _ t h := h.trans (writesBack_setLine1 t i w _).toTransfers.moved
  responded r t h := h.trans (moved_respond t r)

/-! The other commands -/

/-- `validate` is one translation and an answer (R250). -/
theorem exec_validate {a : Addr} (h : exec (.validate a) s = .next t) : ∃ u r, Walked s u ∧ t = u.respond r := by
  have hw := translate_leaves a .dontCare s
  simp only [exec, execValidate] at h
  cases e : translate a .dontCare s with
  | ok pa u => rw [e] at hw h; cases h; exact ⟨u, _, hw, rfl⟩
  | raise f u => rw [e] at hw h; cases h; exact ⟨u, _, hw, rfl⟩
  | refuse r => rw [e] at h; cases h

/-- A `flush` that ends in a next state went through both levels (R219, R270). -/
theorem exec_flush (h : exec .flush s = .next t) : ∃ u, flushBoth s = .ok () u ∧ t = u.respond .done := by
  simp only [exec, execFlush] at h
  split at h
  · next u e => cases h; exact ⟨u, e, rfl⟩
  · cases h
  · cases h

theorem writesBack_of_flushBoth (h : flushBoth s = .ok () u) : WritesBack s u := by
  have := flushBoth_leaves s
  rwa [h] at this

/-- A change of the latency, the trace or the answer. -/
theorem Controls.of_same (h : t = { s with lat := t.lat, trace := t.trace, response := t.response })
    (ht : i ≠ .traceClr → t.trace = s.trace) : Controls i s t :=
  ⟨SameControl.sets (by rw [h]; exact .refl s) i, by rw [h], ht⟩

theorem controls_respond (i : Instr) (s : State) (r : Response) : Controls i s (s.respond r) := .of_same rfl fun _ => rfl

theorem exec_setPriv {d : Word} (h : exec (.setPriv d) s = .next t) : Controls (.setPriv d) s t := by
  simp only [exec, execSetPriv] at h
  split at h <;> cases h
  · exact ⟨⟨absurd rfl, by simp, fun _ => ⟨d, rfl⟩, absurd rfl, rfl⟩, rfl, fun _ => rfl⟩
  · exact controls_respond _ s _

theorem exec_setAtp {d : Word} (h : exec (.setAtp d) s = .next t) : Controls (.setAtp d) s t := by
  simp only [exec, execSetAtp] at h
  split at h <;> cases h
  · exact ⟨⟨absurd rfl, fun _ => ⟨d, rfl⟩, absurd rfl, absurd rfl, rfl⟩, rfl, fun _ => rfl⟩
  · exact controls_respond _ s _

/-- All a command can do. -/
theorem exec_effect (h : exec i s = .next t) : Effect i s t := by
  cases i with
  | validate a =>
    obtain ⟨u, r, hw, ht⟩ := exec_validate h
    exact .validates a rfl u r hw ht
  | flush =>
    obtain ⟨u, hu, ht⟩ := exec_flush h
    exact .flushes rfl u hu ht
  | setPriv d => exact .controls (exec_setPriv h)
  | setAtp d => exact .controls (exec_setAtp h)
  | setXlen d =>
    cases h
    exact .controls ⟨⟨fun _ => ⟨d, rfl⟩, by simp, absurd rfl, absurd rfl, rfl⟩, rfl, fun _ => rfl⟩
  | setStatus d =>
    cases h
    exact .controls ⟨⟨absurd rfl, by simp, absurd rfl, fun _ => ⟨d, rfl⟩, rfl⟩, rfl, fun _ => rfl⟩
  | drainLat =>
    cases h
    exact .controls (.of_same rfl fun _ => rfl)
  | traceClr =>
    cases h
    exact .controls (.of_same rfl (absurd rfl))
  | sfenceVma | rdL1Hit | rdL1Miss | rdL2Hit | rdL2Miss | traceRd =>
    cases h
    exact .controls (controls_respond _ s _)
  | _ => exact .moves rfl ((dataInvariant_moved s).exec rfl (.refl s) h)

end Sys2Proof.Machine
end

section
/-! The rules about the whole machine (R29, R40, R305, R343), each by the four kinds of command. -/

namespace Sys2Proof.Machine

variable {i : Instr} {s t u : State}

theorem Controls.tlb_eq (h : Controls i s t) : t.tlb = s.tlb := by rw [h.frame]

theorem Controls.sameCounters (h : Controls i s t) : SameCounters s t := by rw [h.frame]; exact ⟨rfl, rfl, rfl, rfl⟩

/-- Each control element is written by its own command alone, and `priv` is restored on every path (R22 to R26, R182). -/
theorem exec_setsOwnElement (h : exec i s = .next t) : SetsOwnElement i s t := by
  cases exec_effect h with
  | moves _ hm => exact hm.control.sets i
  | validates a _ u r hw ht => exact ht ▸ (hw.sameControl.sets i).respond r
  | flushes _ u hf ht => exact ht ▸ ((writesBack_of_flushBoth hf).outside.control.sets i).respond _
  | controls hc => exact hc.sets

/-- Settles O43: each kind of command by what it can do, `exec_setsOwnElement`. -/
theorem onlySetCommandsWriteControlElements : Obligations.OnlySetCommandsWriteControlElements := by
  intro i s t h
  obtain ⟨hxlen, hatp, hpriv, hstatus, hcfg⟩ := exec_setsOwnElement h
  exact ⟨hxlen, hatp, hpriv, hstatus, hcfg⟩

/-- A command that neither moves data nor translates leaves the TLB as it is (R271, R285). -/
theorem exec_tlb_eq (h : exec i s = .next t) (hm : movesData i = false) (hv : ∀ a, i ≠ .validate a) : t.tlb = s.tlb := by
  cases exec_effect h with
  | moves hi _ => rw [hi] at hm; cases hm
  | validates a hi => exact absurd hi (hv a)
  | flushes _ u hf ht => exact ht ▸ (writesBack_of_flushBoth hf).outside.tlb_eq
  | controls hc => exact hc.tlb_eq

/-- Every command keeps valid TLB entries valid and the two TLB invariants (R29, R30, R337). -/
theorem exec_tlbKept (h : exec i s = .next t) : TlbKept s t := by
  cases exec_effect h with
  | moves _ hm => exact hm.tlb
  | validates a _ u r hw ht => exact ht ▸ hw.tlbKept.trans (.of_eq rfl)
  | flushes _ u hf ht => exact .of_eq (ht ▸ (writesBack_of_flushBoth hf).outside.tlb_eq)
  | controls hc => exact .of_eq hc.tlb_eq

/-- Settles O44: a walk keeps valid entries valid (`Walked`), and no other procedure writes the TLB. -/
theorem noCommandInvalidatesTheTlb : Obligations.NoCommandInvalidatesTheTlb :=
  fun _ _ _ h => ⟨(exec_tlbKept h).valid, exec_tlb_eq h⟩

/-- Only loads, stores and fetches count (R33, R305). -/
theorem exec_sameCounters (h : exec i s = .next t) (hm : movesData i = false) : SameCounters s t := by
  cases exec_effect h with
  | moves hi _ => rw [hi] at hm; cases hm
  | validates a _ u r hw ht => exact ht ▸ hw.sameCounters
  | flushes _ u hf ht => exact ht ▸ (writesBack_of_flushBoth hf).counters
  | controls hc => exact hc.sameCounters

/-- No command but `trace.clr` takes an entry away, and each new one is a block transfer at `now` (R40, R41, R306). -/
theorem exec_traceGrows (h : exec i s = .next t) (hc : i ≠ .traceClr) : TraceGrows s t := by
  cases exec_effect h with
  | moves _ hm => exact hm.traced
  | validates a _ u r hw ht => exact .of_eq (ht ▸ hw.trace_eq)
  | flushes _ u hf ht => exact ht ▸ (writesBack_of_flushBoth hf).traced
  | controls hk => exact .of_eq (hk.trace hc)

/-- A command that moves no block leaves the trace as it is (R142, R306). -/
theorem exec_trace_eq (h : exec i s = .next t) (hc : i ≠ .traceClr) (hm : movesData i = false) (hf : i ≠ .flush) :
    t.trace = s.trace := by
  cases exec_effect h with
  | moves hi _ => rw [hi] at hm; cases hm
  | validates a _ u r hw ht => exact ht ▸ hw.trace_eq
  | flushes hi => exact absurd hi hf
  | controls hk => exact hk.trace hc

/-- Settles O45: the counters by `exec_sameCounters`, the entries by `exec_traceGrows`, and that there are none by
`exec_trace_eq`. -/
theorem onlyDataMovesCountAndOnlyTransfersTrace : Obligations.OnlyDataMovesCountAndOnlyTransfersTrace := by
  intro i s t h
  refine ⟨exec_sameCounters h, fun hc => ?_⟩
  obtain ⟨es, he, hes⟩ := exec_traceGrows h hc
  refine ⟨es, he, hes, fun hm hf => ?_⟩
  rw [exec_trace_eq h hc hm hf] at he
  exact List.self_eq_append_right.1 he

end Sys2Proof.Machine
end

section
/-! Invariants of the machine: what every command, host write and reset keeps, every step keeps (R30, R44, R337). -/

namespace Sys2Proof.Machine

/-- What a property must satisfy to be kept by every step, whatever the input. -/
structure StepInvariant (P : State → Prop) : Prop where
  took : ∀ s rest, P s → P { s with inputs := rest }
  began : ∀ s now draws, P s → P (beginCommand now draws s)
  executed : ∀ i s t, P s → exec i s = .next t → P t
  answered : ∀ s, P s → P (answerIllegal s)
  hostWrote : ∀ a b s t, P s → hostWrite a b s = .next t → P t
  reset : ∀ s, P s → P (hostReset s)

theorem StepInvariant.step {P : State → Prop} {s t : State} (h : StepInvariant P) (hs : P s) (e : step s = .next t) :
    P t := by
  cases hin : takeInput s with
  | none => simp only [Machine.step, hin] at e; cases e; exact hs
  | some p =>
    obtain ⟨x, u⟩ := p
    obtain ⟨rest, -, hu⟩ := takeInput_some.1 hin
    have hPu : P u := hu ▸ h.took s rest hs
    simp only [Machine.step, hin] at e
    cases x with
    | command w now draws =>
      have hb := h.began u now draws hPu
      cases hd : decode w with
      | ok i => simp only [hd] at e; exact h.executed i _ t hb e
      | error d => simp only [hd] at e; cases e; exact h.answered _ hb
    | hostWrite a b => exact h.hostWrote a b u t hPu e
    | reset => cases e; exact h.reset u hPu

/-! The TLB -/

theorem hostWrite_tlbKept {a : Addr} {b : Byte} {s t : State} (h : hostWrite a b s = .next t) : TlbKept s t := by
  obtain ⟨-, rfl, -⟩ := hostWrite_next h
  exact .of_eq rfl

theorem stepInvariant_tlbDistinct : StepInvariant TlbDistinct where
  took _ _ h := h
  began _ _ _ h := h
  executed _ _ _ h e := (exec_tlbKept e).distinct h
  answered _ h := h
  hostWrote _ _ _ _ h e := (hostWrite_tlbKept e).distinct h
  reset _ _ := resetWith_tlbDistinct _ _ _

theorem stepInvariant_markedWhileFree : StepInvariant MarkedWhileFree where
  took _ _ h := h
  began _ _ _ h := h
  executed _ _ _ h e := (exec_tlbKept e).marked h
  answered _ h := h
  hostWrote _ _ _ _ h e := (hostWrite_tlbKept e).marked h
  reset _ _ := resetWith_markedWhileFree _ _ _

/-- Settles O55: both are step invariants, a walk keeping them (`Walked`) and no other procedure writing the TLB. -/
theorem stepKeepsTheTlbInvariants : Obligations.StepKeepsTheTlbInvariants :=
  fun _ _ e => ⟨fun h => stepInvariant_tlbDistinct.step h e, fun h => stepInvariant_markedWhileFree.step h e⟩

/-! Coherence -/

variable {s t u : State}

theorem Coherent.respond (h : Coherent s) (r : Response) : Coherent (s.respond r) := h.congr rfl rfl rfl rfl

/-- `AcquireLine` keeps a coherent state coherent: it returns with everything kept, or is refused (R210, R221). -/
theorem acquireLine_coherent (h : Coherent s) (pa : Addr) : (acquireLine pa s).Leaves Coherent := by
  cases hp : bsValid s.cfg pa with
  | true =>
    obtain ⟨w, t, e, k, -⟩ := acquireLine_ok h hp
    rw [e]
    exact k.coherent
  | false =>
    rw [acquireLine_refused h hp]
    trivial

theorem dataInvariant_coherent : DataInvariant Coherent where
  translated va kind s h := (translate_leaves va kind s).mono fun _ k => k.coherent h
  acquired pa _ h := acquireLine_coherent h pa
  wroteData i w d _ h := setData1_coherent h i w d
  responded r _ h := h.respond r

/-- A `flush` keeps a coherent state coherent (R219, R221). -/
theorem flushBoth_coherent (h : Coherent s) (e : flushBoth s = .ok () u) : Coherent u := by
  obtain ⟨v, hv, kv, empty, frame, -⟩ := flushAll1_ok h
  have hv1 : L1Empty s v := ⟨kv, empty, by rw [frame]⟩
  obtain ⟨w, hw, hw1, -, -⟩ := flushAll2_ok hv1
  rw [flushBoth, hv, Run.bind_ok, hw] at e
  cases e
  exact hw1.keeps.coherent

theorem Controls.coherent {i : Instr} (k : Controls i s t) (h : Coherent s) : Coherent t :=
  h.congr (by rw [k.frame]) (by rw [k.frame]) (by rw [k.frame]) (by rw [k.frame])

/-- Every command keeps a coherent state coherent (R221). -/
theorem exec_coherent {i : Instr} (h : Coherent s) (e : exec i s = .next t) : Coherent t := by
  cases exec_effect e with
  | moves hi _ => exact dataInvariant_coherent.exec hi h e
  | validates a _ u r hw ht => exact ht ▸ (hw.coherent h).respond r
  | flushes _ u hf ht => exact ht ▸ (flushBoth_coherent h hf).respond _
  | controls hc => exact hc.coherent h

/-- A host write keeps a coherent state coherent: `BS` changes and no line does (R331). -/
theorem hostWrite_coherent {a : Addr} {b : Byte} (h : Coherent s) (e : hostWrite a b s = .next t) : Coherent t := by
  obtain ⟨-, rfl, hmem⟩ := hostWrite_next e
  exact ⟨h.config, hmem h.memory, h.inclusion.congr rfl rfl, h.window.congr rfl rfl⟩

theorem stepInvariant_coherent : StepInvariant Coherent where
  took _ _ h := h.congr rfl rfl rfl rfl
  began _ now draws h := h.begin now draws
  executed _ _ _ h e := exec_coherent h e
  answered _ h := h.respond _
  hostWrote _ _ _ _ h e := hostWrite_coherent h e
  reset s h := resetWith_coherent h.config s.inputs s.drawCount

/-- Settles O54: coherence is a step invariant, kept by every command (`exec_coherent`), host write and reset. -/
theorem stepKeepsCoherence : Obligations.StepKeepsCoherence :=
  fun _ _ h e => stepInvariant_coherent.step h e

end Sys2Proof.Machine
end

section
/-! Little-endian values bit by bit (R64, R99), and the bytes a value is cut into (R122). -/

namespace Sys2Proof.Machine

/-- Bit `i` of the value is bit `i % 8` of byte `i / 8`; beyond the list it is 0. -/
theorem getLsbD_leWord (bs : List Byte) {i : Nat} (hi : i < 64) :
    (leWord bs).getLsbD i = (bs.getD (i / 8) 0).getLsbD (i % 8) := by
  induction bs generalizing i with
  | nil => simp [leWord]
  | cons b bs ih =>
    simp only [leWord, BitVec.getLsbD_or, BitVec.getLsbD_setWidth, BitVec.getLsbD_shiftLeft]
    by_cases low : i < 8
    · simp [low, hi, Nat.div_eq_of_lt low, Nat.mod_eq_of_lt low]
    · have hb : b.getLsbD i = false := BitVec.getLsbD_of_ge b i (by omega)
      have hdiv : i / 8 = (i - 8) / 8 + 1 := by omega
      have hmod : i % 8 = (i - 8) % 8 := by omega
      simp [low, hi, hb, ih (i := i - 8) (by omega), hdiv, hmod]

@[simp] theorem bytesOf_length (n : Nat) (v : Word) : (bytesOf n v).length = n := by simp [bytesOf]

theorem bytesOf_getD (n : Nat) (v : Word) (k : Nat) :
    (bytesOf n v).getD k 0 = if k < n then v.extractLsb' (8 * k) 8 else 0 := by
  by_cases hk : k < n <;> simp [bytesOf, List.getD, hk]

/-- Byte `k` of the value is byte `k` of the list (R64). -/
theorem extractLsb'_leWord (bs : List Byte) {k : Nat} (hk : k < 8) :
    (leWord bs).extractLsb' (8 * k) 8 = bs.getD k 0 := by
  apply BitVec.eq_of_getLsbD_eq
  intro i hi
  have hdiv : (8 * k + i) / 8 = k := by omega
  have hmod : (8 * k + i) % 8 = i := by omega
  rw [BitVec.getLsbD_extractLsb', getLsbD_leWord bs (by omega), hdiv, hmod, decide_eq_true hi, Bool.true_and]

/-- The bytes of a value give it back, truncated to them (R64, R122). -/
theorem leWord_bytesOf (n : Nat) (v : Word) : leWord (bytesOf n v) = (v.setWidth (8 * n)).setWidth 64 := by
  apply BitVec.eq_of_getLsbD_eq
  intro i hi
  have hat : 8 * (i / 8) + i % 8 = i := Nat.div_add_mod i 8
  rw [getLsbD_leWord _ hi, bytesOf_getD, BitVec.getLsbD_setWidth, BitVec.getLsbD_setWidth]
  by_cases hn : i / 8 < n
  · have hlow : i < 8 * n := by omega
    simp [hn, hi, hlow, hat, Nat.mod_lt]
  · have hhigh : ¬i < 8 * n := by omega
    simp [hn, hhigh]

/-- Settles O14: byte `k` by `extractLsb'_leWord`, the round trip by `leWord_bytesOf`. -/
theorem littleEndianValueOfBytes : Obligations.LittleEndianValueOfBytes :=
  ⟨fun bs _ _ hk => extractLsb'_leWord bs hk, fun n v _ => leWord_bytesOf n v⟩

end Sys2Proof.Machine
end

section
/-! Loads, fetches and stores that are not translated: the end of a read that kept everything and of a write that stored its
bytes (R92, R99), for any width. -/

namespace Sys2Proof.Machine

variable {s t : State} {va : Addr} {n : Nat}

/-- A state that keeps everything, answered. -/
theorem Keeps.readDone (k : Keeps s t) (r : Response) : ReadDone s (t.respond r) r :=
  ⟨rfl, k.coherent.respond r, k.view, k.outside⟩

/-- A read that returned with everything kept, as a command (R12, R92). -/
theorem finish_read {x : Run Failure (List Byte)} {bytes : List Byte} (e : x = .ok bytes t) (k : Keeps s t)
    (answer : List Byte → Response) : ∃ u, finish answer x = .next u ∧ ReadDone s u (answer bytes) :=
  ⟨t.respond (answer bytes), by rw [e]; rfl, k.readDone _⟩

/-- A bypassed read of bytes in the window, as a command (R72, R232, R234). -/
theorem finish_memRead_bypassed {kind : AccessKind} (h : Coherent s) (hb : Bypassed s kind) (hn : 0 < n) (hl : n ≤ 4096)
    (hp : PlainInWindow s va n) (answer : List Byte → Response) :
    ∃ u, finish answer (memRead va n kind s) = .next u ∧ ReadDone s u (answer (s.plainBytes va n)) := by
  obtain ⟨t, e, k⟩ := memRead_bypassed h hb hn hl hp
  exact finish_read e k answer

/-- `fetch.blk` of a nonzero length is a read (R249). -/
theorem exec_fetchBlk {len : Byte} (h : len ≠ 0) (a : Addr) (s : State) :
    exec (.fetchBlk a len) s = finish (fun bs => .bytes 0 bs) (memRead a len.toNat .execute s) := if_neg h

/-- Settles O15: each command is the end of a read, `finish_memRead_bypassed`. -/
theorem plainReadsReturnTheView : Obligations.PlainReadsReturnTheView := by
  intro s a h
  have valued : ∀ {kind n}, 0 < n → n ≤ 8 → Bypassed s kind → PlainInWindow s a n →
      ∃ t, finish (fun bs => .value (leWord bs)) (memRead a n kind s) = .next t ∧
        ReadDone s t ⟨.ok, leWord (s.plainBytes a n), 0, []⟩ :=
    fun hn hl hb hp => finish_memRead_bypassed h hb hn (by omega) hp _
  refine ⟨valued (by decide) (by decide), valued (by decide) (by decide), valued (by decide) (by decide),
    valued (by decide) (by decide), valued (by decide) (by decide), fun len hlen hb hp => ?_⟩
  have hpos : 0 < len.toNat := Nat.pos_of_ne_zero fun c => hlen (BitVec.eq_of_toNat_eq c)
  have hmax : len.toNat ≤ 4096 := by have := len.isLt; omega
  rw [exec_fetchBlk hlen]
  exact finish_memRead_bypassed h hb hpos hmax hp _

/-- A state in which the low bytes of a value are stored, answered (R99). -/
theorem PlainWrites.storeDone {data : Word} (k : PlainWrites s t va (bytesOf n data)) :
    StoreDone s (t.respond .done) va n data where
  response := rfl
  coherent := k.coherent.respond .done
  stored i hi := (k.stored i (by rwa [bytesOf_length])).trans (by rw [bytesOf_getD, if_pos hi])
  others x hx := k.others x (by rwa [bytesOf_length])
  outside := k.outside

/-- A bypassed store to bytes in the window (R72, R233, R235). -/
theorem store_bypassed (h : Coherent s) (hb : Bypassed s .write) (data : Word) (hn : 0 < n) (hl : n ≤ 4096)
    (hp : PlainInWindow s va n) : ∃ u, store va n data s = .next u ∧ StoreDone s u va n data := by
  obtain ⟨t, e, k⟩ := memWrite_bypassed (bytes := bytesOf n data) h hb (by rwa [bytesOf_length]) (by rwa [bytesOf_length])
    (by rwa [bytesOf_length])
  exact ⟨t.respond .done, by rw [store, e]; rfl, k.storeDone⟩

/-- Settles O16: each command is a store of its width, `store_bypassed`. -/
theorem plainStoresWriteTheView : Obligations.PlainStoresWriteTheView := fun _ _ d h hb =>
  ⟨store_bypassed h hb d (by decide) (by decide), store_bypassed h hb d (by decide) (by decide),
    store_bypassed h hb d (by decide) (by decide), store_bypassed h hb d (by decide) (by decide)⟩

end Sys2Proof.Machine
end

section
/-! `sfence.vma` (R271). -/

namespace Sys2Proof.Machine

/-- Settles O9: the meaning of `sfence.vma` is an answer and no other write. -/
theorem sfenceVmaChangesNothing : Obligations.SfenceVmaChangesNothing := fun _ => rfl

end Sys2Proof.Machine
end

section
/-! The decoder (R91, R93, R94, R101): what `select` and `decode` answer to a request. -/

namespace Sys2Proof

variable {w : Request} {i : Instr}

/-! The command map -/

/-- The fields of a request that the format of `i` uses hold the operands of `i` (R93). -/
def Request.Carries (w : Request) (i : Instr) : Prop :=
  (usesAddr i = true → w.addr = addrField i) ∧ (usesLen i = true → w.len = lenField i) ∧
    (usesData i = true → w.data = dataField i)

theorem cmd_of_select (h : select w = .ok i) : w.cmd = opcode i := by
  unfold select at h
  split at h <;> cases h <;> assumption

theorem carries_of_select (h : select w = .ok i) : w.Carries i := by
  unfold select at h
  split at h <;> cases h <;> simp [Request.Carries, usesAddr, usesLen, usesData, addrField, lenField, dataField]

theorem select_of_carries (hc : w.cmd = opcode i) (hf : w.Carries i) : select w = .ok i := by
  obtain ⟨ha, hl, hd⟩ := hf
  cases i <;> simp_all [select, opcode, usesAddr, usesLen, usesData, addrField, lenField, dataField]

theorem select_eq_ok_iff : select w = .ok i ↔ w.cmd = opcode i ∧ w.Carries i :=
  ⟨fun h => ⟨cmd_of_select h, carries_of_select h⟩, fun ⟨hc, hf⟩ => select_of_carries hc hf⟩

/-- The 24 codes of R94. -/
def commandCodes : List Byte :=
  [0x10, 0x11, 0x12, 0x13, 0x20, 0x21, 0x22, 0x23, 0x30, 0x31, 0x40, 0x50, 0x51, 0x60, 0x61, 0x62, 0x63,
    0x70, 0x71, 0x72, 0x73, 0x74, 0x75, 0x76]

theorem select_eq_error_iff {e : DecodeError} : select w = .error e ↔ w.cmd ∉ commandCodes ∧ e = .reservedCommand := by
  unfold select
  split <;> simp_all [commandCodes, eq_comm]

/-! The decoder -/

theorem decode_eq_ok_iff : decode w = .ok i ↔ i.wf = true ∧ select w = .ok i := by
  cases hs : select w with
  | error e => simp [decode, hs]
  | ok j =>
    simp only [decode, hs]
    constructor
    · intro h
      split at h <;> cases h
      exact ⟨‹_›, rfl⟩
    · rintro ⟨hwf, h⟩
      cases h
      exact if_pos hwf

/-- Settles O2: `select` is the code and the fields of the format, `decode` adds the check of R101. -/
theorem decodingReadsOnlyTheFieldsOfTheFormat : Obligations.DecodingReadsOnlyTheFieldsOfTheFormat :=
  fun _ _ => decode_eq_ok_iff.trans (and_congr_right fun _ => select_eq_ok_iff)

/-- Settles O4: each word evaluated. -/
theorem wordsOfTheSpecDecode : Obligations.WordsOfTheSpecDecode := by
  unfold Obligations.WordsOfTheSpecDecode
  decide

end Sys2Proof
end

section
/-! The encoder against the decoder (R91, R93, R102): the fields of an encoded request, and the 18 bytes of any request. -/

namespace Sys2Proof

open Laws.EncodedFields (Statement fields_append)

variable {i : Instr}

theorem encodedFields (i : Instr) : Statement i := fields_append _ _ _ _

theorem decode_encode (h : i.wf = true) : decode (encode i) = .ok i := by
  obtain ⟨hcmd, hlen, haddr, hdata⟩ := encodedFields i
  exact decode_eq_ok_iff.2 ⟨h, select_of_carries hcmd ⟨fun _ => haddr, fun _ => hlen, fun _ => hdata⟩⟩

@[simp] theorem requestBytes_length (w : Request) : (requestBytes w).length = 18 := by simp [requestBytes]

theorem requestBytes_getD (w : Request) {k : Nat} (hk : k < 18) :
    (requestBytes w).getD k 0 = w.extractLsb' (8 * k) 8 := by
  simp [requestBytes, List.getD, hk]

/-- Bit `n` of the request is bit `n % 8` of byte `n / 8`; beyond the bytes it is 0. -/
theorem getLsbD_requestOfBytes (bs : List Byte) {n : Nat} (hn : n < 144) :
    (requestOfBytes bs).getLsbD n = (bs.getD (n / 8) 0).getLsbD (n % 8) := by
  induction bs generalizing n with
  | nil => simp [requestOfBytes]
  | cons b bs ih =>
    simp only [requestOfBytes, BitVec.getLsbD_or, BitVec.getLsbD_setWidth, BitVec.getLsbD_shiftLeft]
    by_cases low : n < 8
    · simp [low, hn, Nat.div_eq_of_lt low, Nat.mod_eq_of_lt low]
    · obtain ⟨m, rfl⟩ := Nat.exists_eq_add_of_le' (Nat.le_of_not_lt low)
      simp [hn, ih (n := m) (by omega)]

/-- The 18 bytes of a request stand for it (R91). -/
theorem requestOfBytes_requestBytes (w : Request) : requestOfBytes (requestBytes w) = w := by
  apply BitVec.eq_of_getLsbD_eq
  intro n hn
  have hbit : 8 * (n / 8) + n % 8 = n := Nat.div_add_mod n 8
  rw [getLsbD_requestOfBytes _ hn, requestBytes_getD w (by omega), BitVec.getLsbD_extractLsb', hbit,
    decide_eq_true (Nat.mod_lt n (by decide)), Bool.true_and]

theorem decodeBytes_requestBytes (w : Request) : decodeBytes (requestBytes w) = decode w := by
  rw [decodeBytes, if_pos (requestBytes_length w), requestOfBytes_requestBytes]

/-- Settles O1: `decode_encode` on the request, `decodeBytes_requestBytes` on its bytes. -/
theorem encodeThenDecodeGivesTheCommand : Obligations.EncodeThenDecodeGivesTheCommand :=
  fun _ h => ⟨decode_encode h, requestBytes_length _, (decodeBytes_requestBytes _).trans (decode_encode h)⟩

end Sys2Proof
end

section
/-! Illegal requests (R101): when `decode` rejects, and the answer of the step. -/

namespace Sys2Proof

variable {w : Request} {i : Instr}

/-- A request is rejected for its code, or for the operands of the command its code selects (R101). -/
theorem decode_rejects_iff :
    (∃ e, decode w = .error e) ↔ w.cmd ∉ commandCodes ∨ ∃ i, select w = .ok i ∧ i.wf = false := by
  cases hs : select w with
  | error e => simp [decode, hs, (select_eq_error_iff.1 hs).1]
  | ok i =>
    have hcode : w.cmd ∈ commandCodes := by
      by_contra hc
      rw [select_eq_error_iff.2 ⟨hc, rfl⟩] at hs
      cases hs
    cases hwf : i.wf <;> simp [decode, hs, hwf, hcode]

/-- The ill-formed commands (R101). -/
theorem wf_eq_false_iff : i.wf = false ↔ (∃ a, i = .fetchBlk a 0) ∨ (∃ d, i = .setPriv d ∧ d.extractLsb' 0 2 = 2) ∨
    ∃ d, i = .setAtp d ∧ d.extractLsb' 62 2 = 3 := by
  cases i <;> simp [Instr.wf]

theorem select_eq_fetchBlk_iff {a : Addr} {len : Byte} :
    select w = .ok (.fetchBlk a len) ↔ w.cmd = 0x31 ∧ w.addr = a ∧ w.len = len := by
  simp [select_eq_ok_iff, Request.Carries, opcode, usesAddr, usesLen, usesData, addrField, lenField]

theorem select_eq_setPriv_iff {d : Word} : select w = .ok (.setPriv d) ↔ w.cmd = 0x61 ∧ w.data = d := by
  simp [select_eq_ok_iff, Request.Carries, opcode, usesAddr, usesLen, usesData, dataField]

theorem select_eq_setAtp_iff {d : Word} : select w = .ok (.setAtp d) ↔ w.cmd = 0x63 ∧ w.data = d := by
  simp [select_eq_ok_iff, Request.Carries, opcode, usesAddr, usesLen, usesData, dataField]

/-- The requests whose code selects an ill-formed command (R101). -/
theorem selects_illFormed_iff : (∃ i, select w = .ok i ∧ i.wf = false) ↔
    (w.cmd = 0x31 ∧ w.len = 0) ∨ (w.cmd = 0x61 ∧ w.data.extractLsb' 0 2 = 2) ∨
      (w.cmd = 0x63 ∧ w.data.extractLsb' 62 2 = 3) := by
  constructor
  · rintro ⟨i, hs, hwf⟩
    obtain ⟨a, rfl⟩ | ⟨d, rfl, hd⟩ | ⟨d, rfl, hd⟩ := wf_eq_false_iff.1 hwf
    · obtain ⟨hc, -, hl⟩ := select_eq_fetchBlk_iff.1 hs
      exact .inl ⟨hc, hl⟩
    · obtain ⟨hc, rfl⟩ := select_eq_setPriv_iff.1 hs
      exact .inr (.inl ⟨hc, hd⟩)
    · obtain ⟨hc, rfl⟩ := select_eq_setAtp_iff.1 hs
      exact .inr (.inr ⟨hc, hd⟩)
  · rintro (⟨hc, hl⟩ | ⟨hc, hd⟩ | ⟨hc, hd⟩)
    · exact ⟨_, select_eq_fetchBlk_iff.2 ⟨hc, rfl, hl⟩, wf_eq_false_iff.2 (.inl ⟨_, rfl⟩)⟩
    · exact ⟨_, select_eq_setPriv_iff.2 ⟨hc, rfl⟩, wf_eq_false_iff.2 (.inr (.inl ⟨_, rfl, hd⟩))⟩
    · exact ⟨_, select_eq_setAtp_iff.2 ⟨hc, rfl⟩, wf_eq_false_iff.2 (.inr (.inr ⟨_, rfl, hd⟩))⟩

namespace Machine

/-- A rejected request is answered before any state is touched (R101, R293). -/
theorem step_rejected {s : State} {now : Word} {draws : Draws} {rest : List Input} {e : DecodeError}
    (hin : s.inputs = .command w now draws :: rest) (hdec : decode w = .error e) :
    step s = .next (answerIllegal (beginCommand now draws { s with inputs := rest })) := by
  have htake : takeInput s = some (.command w now draws, { s with inputs := rest }) :=
    takeInput_some.2 ⟨rest, hin, rfl⟩
  simp only [step, htake, hdec]

/-- `fetch.blk` of length 0 answers `Illegal` (R101, R249). -/
theorem exec_fetchBlk_zero (a : Addr) (s : State) : exec (.fetchBlk a 0) s = .next (answerIllegal s) := by
  rw [exec, execFetchBlk, if_pos rfl]

/-- Settles O3: the rejected requests by `decode_rejects_iff` and `selects_illFormed_iff`, the answer by `step_rejected`. -/
theorem illegalRequestsAreAnsweredIllegal : Obligations.IllegalRequestsAreAnsweredIllegal :=
  ⟨fun _ => ⟨decode_rejects_iff.trans (or_congr_right selects_illFormed_iff), fun _ _ _ _ _ => step_rejected⟩,
    fun s a => exec_fetchBlk_zero a s⟩

end Machine

end Sys2Proof
end

section
/-! Accesses outside the window (R124): a run of single bytes stops at its first byte outside, and a single round trip moves
bytes of one block, which is inside or outside as a whole. -/

namespace Sys2Proof.Machine

variable {s t : State} {va pa : Addr} {n : Nat}

/-- The states that bytes moved from `s` on lead to, as far as a later refusal depends on them. -/
structure Follows (s t : State) : Prop where
  coherent : Coherent t
  outside : SameTranslation s t

theorem Follows.refl (h : Coherent s) : Follows s s := ⟨h, .refl s⟩

theorem Follows.cfg (f : Follows s t) : t.cfg = s.cfg := f.outside.1.1

theorem Follows.xlen (f : Follows s t) : t.xlen = s.xlen := f.outside.1.2.1

theorem Follows.keeps {u : State} (f : Follows s t) (k : Keeps t u) : Follows s u :=
  ⟨k.coherent, f.outside.trans k.outside⟩

theorem Follows.writes {u : State} {bytes : List Byte} (f : Follows s t) (k : Writes t u pa bytes) : Follows s u :=
  ⟨k.coherent, f.outside.trans k.outside⟩

/-- Bytes moved one at a time in ascending order, one of them outside, are refused, if a byte outside is refused at once and the
bytes after one inside are refused in every state it can lead to. -/
theorem refused_of_byte_outside {outside : Addr → Prop} {Refused : Nat → Addr → State → Prop}
    (here : ∀ {n va t}, Follows s t → outside va → Refused (n + 1) va t)
    (later : ∀ {n va t}, Follows s t → ¬outside va → (∀ u, Follows s u → Refused n (va + 1) u) → Refused (n + 1) va t)
    (hst : Follows s t) (ho : ∃ k < n, outside (va + BitVec.ofNat 64 k)) : Refused n va t := by
  induction n generalizing va t with
  | zero => simp at ho
  | succ n ih =>
    by_cases hva : outside va
    · exact here hst hva
    · obtain ⟨k, hk, hout⟩ := ho
      cases k with
      | zero => exact absurd (by simpa using hout) hva
      | succ k => exact later hst hva fun u hu => ih hu ⟨k, by omega, by rwa [add_one_add]⟩

/-! The physical data phase -/

/-- The bytes of one line are in the window or outside it together (R81, R120). -/
theorem bsValid_oneLine {cfg : Config} (h : cfg.wf) (hl : oneLine pa n = true) {k : Nat} (hk : k < n) :
    bsValid cfg (pa + BitVec.ofNat 64 k) = bsValid cfg pa := by
  simp only [oneLine, Bool.and_eq_true, decide_eq_true_eq] at hl
  exact bsValid_block h (blockOf_add (by omega)).1

theorem readLineBytes_refused (h : Coherent s) (ho : ∃ k < n, bsValid s.cfg (pa + BitVec.ofNat 64 k) = false) :
    readLineBytes n pa s = .refuse .outsideBackingStore := by
  refine refused_of_byte_outside (outside := fun x => bsValid s.cfg x = false)
    (Refused := fun n pa t => readLineBytes n pa t = .refuse .outsideBackingStore) ?here ?later (.refl h) ho
  case here =>
    intro n pa t ht hout
    rw [readLineBytes, readLine_refused ht.coherent (by rwa [ht.cfg])]; rfl
  case later =>
    intro n pa t ht hin rest
    have := blockOffset_lt pa
    obtain ⟨u, e, k⟩ := readLine_ok ht.coherent (n := 1) (by rw [ht.cfg]; simpa using hin) (by omega)
    rw [readLineBytes, e, Run.bind_ok, rest u (ht.keeps k)]; rfl

theorem writeLineBytes_refused (h : Coherent s) {bytes : List Byte}
    (ho : ∃ k < bytes.length, bsValid s.cfg (pa + BitVec.ofNat 64 k) = false) :
    writeLineBytes bytes pa s = .refuse .outsideBackingStore := by
  refine refused_of_byte_outside (outside := fun x => bsValid s.cfg x = false)
    (Refused := fun n pa t => ∀ bytes, bytes.length = n → writeLineBytes bytes pa t = .refuse .outsideBackingStore)
    ?here ?later (.refl h) ho bytes rfl
  case here =>
    rintro n pa t ht hout (_ | ⟨b, bytes⟩) hl
    · cases hl
    · rw [writeLineBytes, writeLine_refused ht.coherent (by rwa [ht.cfg])]; rfl
  case later =>
    rintro n pa t ht hin rest (_ | ⟨b, bytes⟩) hl
    · cases hl
    · have := blockOffset_lt pa
      obtain ⟨u, e, k⟩ := writeLine_ok ht.coherent (bytes := [b]) (by rw [ht.cfg]; simpa using hin)
        (by rw [List.length_singleton]; omega)
      rw [writeLineBytes, e, Run.bind_ok, rest u (ht.writes k) bytes (by simpa using hl)]

/-- A read of bytes with one outside the window is refused (R124, R238). -/
theorem physRead_refused (h : Coherent s) (ho : ∃ k < n, bsValid s.cfg (pa + BitVec.ofNat 64 k) = false) :
    physRead pa n s = .refuse .outsideBackingStore := by
  rw [physRead]
  split
  · next hl =>
    obtain ⟨k, hk, hout⟩ := ho
    exact readLine_refused h (by rwa [bsValid_oneLine h.config hl hk] at hout) n
  · exact readLineBytes_refused h ho

/-- A write of bytes with one outside the window is refused (R124, R239). -/
theorem physWrite_refused (h : Coherent s) {bytes : List Byte}
    (ho : ∃ k < bytes.length, bsValid s.cfg (pa + BitVec.ofNat 64 k) = false) :
    physWrite pa bytes s = .refuse .outsideBackingStore := by
  rw [physWrite]
  split
  · next hl =>
    obtain ⟨k, hk, hout⟩ := ho
    exact writeLine_refused h (by rwa [bsValid_oneLine h.config hl hk] at hout) bytes
  · exact writeLineBytes_refused h ho

/-! The virtual access, bypassed -/

theorem inWindow_one {cfg : Config} (h : ¬bsValid cfg pa = false) : InWindow cfg pa 1 := fun k hk => by
  obtain rfl : k = 0 := by omega
  simpa using h

theorem outside_one {cfg : Config} (h : bsValid cfg pa = false) : ∃ k < 1, bsValid cfg (pa + BitVec.ofNat 64 k) = false :=
  ⟨0, by decide, by simpa using h⟩

/-- One access to a physical range with a byte outside (R124, R232). -/
theorem access_read_refused {kind : AccessKind} (h : Coherent s) (hb : Bypassed s kind)
    (ho : ∃ k < n, bsValid s.cfg (effective s.xlen va + BitVec.ofNat 64 k) = false) :
    access va kind (fun pa s => physRead pa n s) s = .refuse .outsideBackingStore := by
  rw [access_translated (translate_bypassed hb va), physRead_refused h ho]; rfl

/-- One access to a physical range with a byte outside (R124, R233). -/
theorem access_write_refused {bytes : List Byte} (h : Coherent s) (hb : Bypassed s .write)
    (ho : ∃ k < bytes.length, bsValid s.cfg (effective s.xlen va + BitVec.ofNat 64 k) = false) :
    access va .write (fun pa s => physWrite pa bytes s) s = .refuse .outsideBackingStore := by
  rw [access_translated (translate_bypassed hb va), physWrite_refused h ho]; rfl

/-- In one page a byte outside is outside as a byte of the physical range (R231). -/
theorem plain_outside_of_singlePage (hl : n ≤ 4096) (hp : singlePage va n = true)
    (ho : ∃ k < n, bsValid s.cfg (s.plainAddr va k) = false) :
    ∃ k < n, bsValid s.cfg (effective s.xlen va + BitVec.ofNat 64 k) = false := by
  obtain ⟨k, hk, hout⟩ := ho
  exact ⟨k, hk, by rwa [State.plainAddr, effective_add _ hp hl hk] at hout⟩

theorem memReadBytes_refused {kind : AccessKind} (h : Coherent s) (hb : Bypassed s kind)
    (ho : ∃ k < n, bsValid s.cfg (s.plainAddr va k) = false) :
    memReadBytes kind n va s = .refuse .outsideBackingStore := by
  refine refused_of_byte_outside (outside := fun x => bsValid s.cfg (effective s.xlen x) = false)
    (Refused := fun n va t => memReadBytes kind n va t = .refuse .outsideBackingStore) ?here ?later (.refl h) ho
  case here =>
    intro n va t ht hout
    rw [← ht.cfg, ← ht.xlen] at hout
    rw [memReadBytes, access_read_refused ht.coherent (hb.congr ht.outside) (outside_one hout)]; rfl
  case later =>
    intro n va t ht hin rest
    rw [← ht.cfg, ← ht.xlen] at hin
    obtain ⟨u, e, k⟩ := access_read_ok ht.coherent (translate_bypassed (hb.congr ht.outside) va) (by decide) (inWindow_one hin)
    rw [memReadBytes, e, Run.bind_ok, rest u (ht.keeps k)]; rfl

theorem memWriteBytes_refused {bytes : List Byte} (h : Coherent s) (hb : Bypassed s .write)
    (ho : ∃ k < bytes.length, bsValid s.cfg (s.plainAddr va k) = false) :
    memWriteBytes bytes va s = .refuse .outsideBackingStore := by
  refine refused_of_byte_outside (outside := fun x => bsValid s.cfg (effective s.xlen x) = false)
    (Refused := fun n va t => ∀ bytes, bytes.length = n → memWriteBytes bytes va t = .refuse .outsideBackingStore)
    ?here ?later (.refl h) ho bytes rfl
  case here =>
    rintro n va t ht hout (_ | ⟨b, bytes⟩) hl
    · cases hl
    · rw [← ht.cfg, ← ht.xlen] at hout
      rw [memWriteBytes, access_write_refused (bytes := [b]) ht.coherent (hb.congr ht.outside) (outside_one hout)]; rfl
  case later =>
    rintro n va t ht hin rest (_ | ⟨b, bytes⟩) hl
    · cases hl
    · rw [← ht.cfg, ← ht.xlen] at hin
      obtain ⟨u, e, k⟩ := access_write_ok ht.coherent (translate_bypassed (hb.congr ht.outside) va) (bytes := [b])
        (by simp) (inWindow_one hin) (by simp)
      rw [memWriteBytes, e, Run.bind_ok, rest u (ht.writes k) bytes (by simpa using hl)]

/-- A bypassed read of bytes with one outside the window is refused on either path (R124, R232, R234). -/
theorem memRead_refused {kind : AccessKind} (h : Coherent s) (hb : Bypassed s kind) (hl : n ≤ 4096)
    (ho : ∃ k < n, bsValid s.cfg (s.plainAddr va k) = false) : memRead va n kind s = .refuse .outsideBackingStore := by
  rw [memRead]
  split
  · next hp => exact access_read_refused h hb (plain_outside_of_singlePage hl hp ho)
  · exact memReadBytes_refused h hb ho

/-- A bypassed write of bytes with one outside the window is refused on either path (R124, R233, R235). -/
theorem memWrite_refused {bytes : List Byte} (h : Coherent s) (hb : Bypassed s .write) (hl : bytes.length ≤ 4096)
    (ho : ∃ k < bytes.length, bsValid s.cfg (s.plainAddr va k) = false) :
    memWrite va bytes s = .refuse .outsideBackingStore := by
  rw [memWrite]
  split
  · next hp => exact access_write_refused h hb (plain_outside_of_singlePage hl hp ho)
  · exact memWriteBytes_refused h hb ho

/-! The commands -/

theorem finish_refused {α : Type} {x : Run Failure α} {r : Refusal} (e : x = .refuse r) (answer : α → Response) :
    finish answer x = .refused r := by
  rw [e]; rfl

/-- Settles O28: each command is the end of a read or of a write that is refused, `memRead_refused` and `memWrite_refused`. -/
theorem accessOutsideTheWindowIsRefused : Obligations.AccessOutsideTheWindowIsRefused := by
  intro s a d h
  have valued : ∀ {kind n}, n ≤ 4096 → Bypassed s kind → (∃ k < n, bsValid s.cfg (s.plainAddr a k) = false) →
      finish (fun bs => .value (leWord bs)) (memRead a n kind s) = .refused .outsideBackingStore :=
    fun hl hb ho => finish_refused (memRead_refused h hb hl ho) _
  have stored : ∀ {n}, n ≤ 4096 → Bypassed s .write → (∃ k < n, bsValid s.cfg (s.plainAddr a k) = false) →
      store a n d s = .refused .outsideBackingStore :=
    fun hl hb ho => finish_refused (memWrite_refused h hb (by rwa [bytesOf_length]) (by rwa [bytesOf_length])) _
  refine ⟨valued (by decide), valued (by decide), valued (by decide), valued (by decide), stored (by decide),
    stored (by decide), stored (by decide), stored (by decide), valued (by decide), fun len hlen hb ho => ?_⟩
  rw [exec_fetchBlk hlen]
  exact finish_refused (memRead_refused h hb (by have := len.isLt; omega) ho) _

end Sys2Proof.Machine
end

section
/-! Translations that are refused: whose walk is (R182), and that an access of one byte or more begins, on either path, with the
translation of its own address (R232 to R235). -/

namespace Sys2Proof.Machine

variable {s : State} {va : Addr} {kind : AccessKind} {r : Refusal} {n : Nat}

/-- A translated access is refused when its walk is, whatever the privilege it is made under (R182). -/
theorem translate_refused {p : Paging} (hp : s.scheme.paging = some p) (ht : TranslatedFor s kind)
    (hw : ∀ q, startWalk p va kind (s.setPriv q) = .refuse r) : translate va kind s = .refuse r := by
  have own : startWalk p va kind s = .refuse r := hw s.priv
  rw [translate, hp]
  cases hpriv : s.priv with
  | U | S => simpa only [translatePaged, hpriv] using own
  | M =>
    obtain hM | ⟨hkind, hmprv, hmpp⟩ := ht
    · exact absurd hpriv hM
    · have substituted : translateAs p va kind s = .refuse r := by
        rcases hmpp with h | h <;> simp [translateAs, h, privOfCode, hw]
      simp only [translatePaged, hpriv, if_neg hkind, hmprv, substituted, if_true]

theorem memRead_translate_refused (e : translate va kind s = .refuse r) (hn : 0 < n) : memRead va n kind s = .refuse r := by
  rw [memRead]
  split
  · exact access_refused e _
  · cases n with
    | zero => cases hn
    | succ n => rw [memReadBytes, access_refused e]; rfl

theorem memWrite_translate_refused {bytes : List Byte} (e : translate va .write s = .refuse r) (hn : 0 < bytes.length) :
    memWrite va bytes s = .refuse r := by
  rw [memWrite]
  split
  · exact access_refused e _
  · cases bytes with
    | nil => cases hn
    | cons b bytes => rw [memWriteBytes, access_refused e]; rfl

/-- A translated access whose walk leads outside the window (R124, R182). -/
theorem translate_leadsOutside {p : Paging} (hp : s.scheme.paging = some p)
    (ho : LeadsOutside s p (effective s.xlen va) p.top s.rootPpn) (ht : TranslatedFor s kind) :
    translate va kind s = .refuse .outsideBackingStore :=
  translate_refused hp ht fun _ => walk_leadsOutside (ho.congr rfl rfl rfl)

/-- Settles O29: each command begins with the translation of its address, refused by `translate_leadsOutside`. -/
theorem walkOutsideTheWindowIsRefused : Obligations.WalkOutsideTheWindowIsRefused := by
  intro s p a d hp ho
  have valued : ∀ {kind n}, TranslatedFor s kind → 0 < n →
      finish (fun bs => .value (leWord bs)) (memRead a n kind s) = .refused .outsideBackingStore :=
    fun ht hn => finish_refused (memRead_translate_refused (translate_leadsOutside hp ho ht) hn) _
  have stored : ∀ {n}, TranslatedFor s .write → 0 < n → store a n d s = .refused .outsideBackingStore :=
    fun ht hn => finish_refused (memWrite_translate_refused (translate_leadsOutside hp ho ht) (by rwa [bytesOf_length])) _
  refine ⟨fun ht => ⟨valued ht (by decide), valued ht (by decide), valued ht (by decide), valued ht (by decide)⟩,
    fun ht => ⟨stored ht (by decide), stored ht (by decide), stored ht (by decide), stored ht (by decide)⟩,
    fun ht => ⟨valued ht (by decide), fun len hlen => ?_⟩, fun ht => ?_⟩
  · rw [exec_fetchBlk hlen]
    have hpos : 0 < len.toNat := by bv_omega
    exact finish_refused (memRead_translate_refused (translate_leadsOutside hp ho ht) hpos) _
  · rw [exec, execValidate, translate_leadsOutside hp ho ht]

end Sys2Proof.Machine
end

section
/-! The draws of a victim (R13, R143): each eligible way is the victim for some draw presented with the command. -/

namespace Sys2Proof.Machine

/-- Any L1 way can be the victim (R143). -/
theorem victim1_surj (s : State) (w : Fin 8) : ∃ d, victim1 { s with draws := d } = w := by
  obtain ⟨n, hn⟩ := choose_surj (mem_allWays w) 0
  exact ⟨⟨[n], [], []⟩, hn⟩

/-- Any L2 way whose inclusion flag is false can be the victim (R143). -/
theorem victim2_surj {s : State} {i : Fin 256} {u : Fin 8} (h : (s.line2 i u).incl = false) :
    ∃ d, victim2 { s with draws := d } i = some u := by
  have hu : u ∈ eligible2 s i := by simp [eligible2, h]
  have sameWays : ∀ d, eligible2 { s with draws := d } i = eligible2 s i := fun _ => rfl
  cases he : eligible2 s i with
  | nil => simp [he] at hu
  | cons w ws =>
    obtain ⟨n, hn⟩ := choose_surj (he ▸ hu) w
    refine ⟨⟨[], [n], []⟩, ?_⟩
    simp only [victim2, sameWays, he]
    exact congrArg some hn

/-- Settles O52: a victim is eligible by `victim2_some` and `victim2_none`, and each eligible way is drawn by `choose_surj`. -/
theorem victimsAreTheEligibleWays : Obligations.VictimsAreTheEligibleWays :=
  fun s => ⟨victim1_surj s, fun _ => ⟨fun _ => victim2_some, fun _ => victim2_surj, victim2_none⟩⟩

end Sys2Proof.Machine
end

section
/-! Entry and leaf addresses: their fields as numbers and as shifts and masks (R164, R165, R191). -/

namespace Sys2Proof.Machine

/-! Entry addresses -/

/-- The index fields of R164 as numbers. -/
theorem vpn_toNat (p : Paging) (level : Nat) (a : Addr) :
    (p.vpn level a).toNat = match p with
      | .twoLevel => a.toNat / 2 ^ (12 + 10 * level) % 1024
      | .threeLevel => a.toNat / 2 ^ (12 + 9 * level) % 512 := by
  cases p <;> simp only [Paging.vpn, BitVec.toNat_setWidth, BitVec.extractLsb'_toNat, Nat.shiftRight_eq_div_pow]
  · exact Nat.mod_eq_of_lt (by omega)
  · exact Nat.mod_eq_of_lt (by omega)

/-- A table fills one page (R164). -/
theorem vpn_mul_pteSize_le (p : Paging) (level : Nat) (a : Addr) :
    (p.vpn level a).toNat * p.pteSize + p.pteSize ≤ 4096 := by
  rw [vpn_toNat]
  cases p <;> simp only [Paging.pteSize] <;> omega

/-- The entry address does not wrap (R165). -/
theorem pteAddr_toNat (p : Paging) (level : Nat) (parent : BitVec 44) (a : Addr) :
    (p.pteAddr level parent a).toNat = parent.toNat * 4096 + (p.vpn level a).toNat * p.pteSize := by
  have hparent := parent.isLt
  have htable := vpn_mul_pteSize_le p level a
  have hsize : (BitVec.ofNat 64 p.pteSize).toNat = p.pteSize := by cases p <;> rfl
  rw [Paging.pteAddr, BitVec.toNat_add, BitVec.toNat_mul, BitVec.toNat_mul, BitVec.toNat_setWidth, hsize]
  simp only [BitVec.reduceToNat]
  omega

theorem pteAddr_mod_pteSize (p : Paging) (level : Nat) (parent : BitVec 44) (a : Addr) :
    (p.pteAddr level parent a).toNat % p.pteSize = 0 := by
  rw [pteAddr_toNat]
  cases p <;> simp only [Paging.pteSize] <;> omega

theorem pteAddr_mod_page (p : Paging) (level : Nat) (parent : BitVec 44) (a : Addr) :
    (p.pteAddr level parent a).toNat % 4096 + p.pteSize ≤ 4096 := by
  have htable := vpn_mul_pteSize_le p level a
  have hsize : 0 < p.pteSize := by cases p <;> decide
  rw [pteAddr_toNat]
  omega

/-- Settles O34: `pteAddr_toNat` with the index fields as numbers; each table fills one page. -/
theorem entryAddressesAreAlignedAndExact : Obligations.EntryAddressesAreAlignedAndExact := by
  intro p level parent a
  refine ⟨?_, pteAddr_mod_pteSize p level parent a, pteAddr_mod_page p level parent a⟩
  rw [pteAddr_toNat, vpn_toNat]
  cases p <;> rfl

/-! Leaf addresses -/

/-- Two fields side by side, as a shift and an or. -/
theorem setWidth_append_eq_or {m n : Nat} (x : BitVec m) (y : BitVec n) :
    (x ++ y).setWidth 64 = x.setWidth 64 <<< n ||| y.setWidth 64 := by
  apply BitVec.eq_of_getLsbD_eq
  intro i hi
  simp only [BitVec.getLsbD_setWidth, BitVec.getLsbD_append, BitVec.getLsbD_or, BitVec.getLsbD_shiftLeft, hi,
    decide_true, Bool.true_and]
  by_cases low : i < n
  · simp [low]
  · have hy : y.getLsbD i = false := BitVec.getLsbD_of_ge y i (by omega)
    have hsub : i - n < 64 := by omega
    simp [low, hy, hsub]

theorem getLsbD_mask (n : Nat) {i : Nat} (hi : i < 64) : (BitVec.ofNat 64 (2 ^ n - 1)).getLsbD i = decide (i < n) := by
  rw [BitVec.getLsbD_ofNat, Nat.testBit_two_pow_sub_one, decide_eq_true hi, Bool.true_and]

/-- A field, as a shift and a mask. -/
theorem setWidth_field (x : Word) (i n : Nat) :
    (x.extractLsb' i n).setWidth 64 = x >>> i &&& BitVec.ofNat 64 (2 ^ n - 1) := by
  apply BitVec.eq_of_getLsbD_eq
  intro k hk
  rw [BitVec.getLsbD_and, getLsbD_mask n hk, BitVec.getLsbD_setWidth, BitVec.getLsbD_extractLsb', BitVec.getLsbD_ushiftRight,
    decide_eq_true hk, Bool.true_and, Bool.and_comm]

/-- A field directly above the low bits makes one field with them. -/
theorem field_or_low (x : Word) (i n : Nat) :
    (x >>> i &&& BitVec.ofNat 64 (2 ^ n - 1)) <<< i ||| x &&& BitVec.ofNat 64 (2 ^ i - 1) =
      x &&& BitVec.ofNat 64 (2 ^ (i + n) - 1) := by
  apply BitVec.eq_of_getLsbD_eq
  intro k hk
  simp only [BitVec.getLsbD_or, BitVec.getLsbD_and, BitVec.getLsbD_shiftLeft, BitVec.getLsbD_ushiftRight, getLsbD_mask, hk]
  by_cases low : k < i
  · have : k < i + n := by omega
    simp [low, this]
  · have hsub : k - i < 64 := by omega
    have hback : i + (k - i) = k := by omega
    have hn : k - i < n ↔ k < i + n := by omega
    simp [low, getLsbD_mask n hsub, hback, hn]

/-- Settles O35: each formula is the fields of `leafAddr` put side by side, `setWidth_append_eq_or` and `setWidth_field`. -/
theorem leafAddressesAreReconstructed : Obligations.LeafAddressesAreReconstructed := by
  intro pte a
  refine ⟨?_, ?_, ?_, ?_, ?_⟩ <;>
    simp only [Paging.leafAddr, setWidth_append_eq_or, setWidth_field, BitVec.shiftLeft_or_distrib, ← BitVec.shiftLeft_add] <;>
    rfl

end Sys2Proof.Machine
end

section
/-! A walk does not depend on the privilege it is made under (R182, R194). -/

namespace Sys2Proof.Machine

/-- A procedure that commutes with a change of the state commutes with it after another that does. -/
theorem Run.mapState_bind {ε α β : Type} {g : State → State} {f : α → State → Run ε β}
    (hf : ∀ a s, f a (g s) = (f a s).mapState g) (x : Run ε α) : (x.mapState g).bind f = (x.bind f).mapState g := by
  cases x with
  | ok a s => exact hf a s
  | raise e s => rfl
  | refuse r => rfl

theorem Run.mapState_mapState {ε α : Type} (f g : State → State) (x : Run ε α) :
    (x.mapState f).mapState g = x.mapState fun s => g (f s) := by
  cases x <;> rfl

theorem tookTlbDraw_setPriv (s : State) (q : Priv) : (s.setPriv q).tookTlbDraw = s.tookTlbDraw.setPriv q := by
  simp only [State.tookTlbDraw, State.setPriv_draws]
  split <;> rfl

theorem generationalReset_setPriv (s : State) (q : Priv) :
    (s.setPriv q).generationalReset = s.generationalReset.setPriv q := by
  have hm : unmarkedSlots (s.setPriv q) = unmarkedSlots s := rfl
  rw [State.generationalReset, State.generationalReset, hm]
  split <;> rfl

theorem tlbInsert_setPriv (tag : TlbTag) (pte : Word) (s : State) (q : Priv) :
    tlbInsert tag pte (s.setPriv q) = (tlbInsert tag pte s).setPriv q := by
  have hf : freeSlots (s.setPriv q) = freeSlots s := rfl
  simp only [tlbInsert, hf, generationalReset_setPriv]
  split <;> rw [tookTlbDraw_setPriv] <;> rfl

theorem bsRead_setPriv {ε : Type} (pa : Addr) (n : Nat) (s : State) (q : Priv) :
    (bsRead pa n (s.setPriv q) : Run ε (List Byte)) = (bsRead pa n s).mapState fun t => t.setPriv q := by
  rw [bsRead, bsRead]
  symm
  apply apply_ite (Run.mapState fun t => t.setPriv q)

theorem bsWrite_setPriv {ε : Type} (pa : Addr) (bytes : List Byte) (s : State) (q : Priv) :
    (bsWrite pa bytes (s.setPriv q) : Run ε Unit) = (bsWrite pa bytes s).mapState fun t => t.setPriv q := by
  rw [bsWrite, bsWrite]
  symm
  apply apply_ite (Run.mapState fun t => t.setPriv q)

theorem fetchPte_setPriv (p : Paging) (level : Nat) (parent : BitVec 44) (a : Addr) (s : State) (q : Priv) :
    fetchPte p level parent a (s.setPriv q) = (fetchPte p level parent a s).mapState fun t => t.setPriv q := by
  have hlookup : ∀ tag, tlbLookup (s.setPriv q) tag = tlbLookup s tag := fun _ => rfl
  simp only [fetchPte, hlookup, State.setPriv_cfg]
  split
  · rfl
  · rw [bsRead_setPriv]
    refine Run.mapState_bind (fun bytes t => ?_) _
    simp only [Run.mapState_ok]
    split
    · exact congrArg (Run.ok _) (tlbInsert_setPriv _ _ (t.addLat t.cfg.latPteRead) q)
    · rfl

theorem rewriteEntry_setPriv (p : Paging) (kind : AccessKind) (addr : Addr) (pte : Word) (s : State) (q : Priv) :
    rewriteEntry p kind addr pte (s.setPriv q) = (rewriteEntry p kind addr pte s).mapState fun t => t.setPriv q := by
  rw [rewriteEntry, rewriteEntry]
  split
  · rw [bsWrite_setPriv]
    exact Run.mapState_bind (fun _ _ => rfl) _
  · rfl

theorem useLeaf_setPriv (p : Paging) (kind : AccessKind) (level : Nat) (addr a : Addr) (pte : Word) (s : State) (q : Priv) :
    useLeaf p kind level addr a pte (s.setPriv q) =
      (useLeaf p kind level addr a pte s).mapState fun t => t.setPriv q := by
  rw [useLeaf, useLeaf, rewriteEntry_setPriv]
  refine Run.mapState_bind (fun _ t => ?_) _
  split
  · rfl
  · split <;> rfl

theorem walkStep_setPriv (p : Paging) (kind : AccessKind) (a : Addr) (level : Nat) (parent : BitVec 44)
    {descend : BitVec 44 → State → Run Unit Addr} {q : Priv}
    (hd : ∀ n t, descend n (t.setPriv q) = (descend n t).mapState fun t => t.setPriv q) (s : State) :
    walkStep p kind a level parent descend (s.setPriv q) =
      (walkStep p kind a level parent descend s).mapState fun t => t.setPriv q := by
  rw [walkStep, walkStep, fetchPte_setPriv]
  refine Run.mapState_bind (fun pte t => ?_) _
  split
  · rfl
  · split
    · exact hd _ t
    · exact useLeaf_setPriv p kind level _ a pte t q

theorem walk_setPriv (p : Paging) (kind : AccessKind) (a : Addr) (level : Nat) (parent : BitVec 44) (s : State) (q : Priv) :
    walk p kind a level parent (s.setPriv q) = (walk p kind a level parent s).mapState fun t => t.setPriv q := by
  induction level generalizing parent s with
  | zero => exact walkStep_setPriv p kind a 0 parent (fun _ _ => rfl) s
  | succ level ih => exact walkStep_setPriv p kind a (level + 1) parent (fun n t => ih n t) s

/-- The privilege restored after a walk under another one (R182). -/
theorem walk_substituted (p : Paging) (kind : AccessKind) (a : Addr) (level : Nat) (parent : BitVec 44) (s : State) (q : Priv) :
    (walk p kind a level parent (s.setPriv q)).mapState (fun t => t.setPriv s.priv) = walk p kind a level parent s := by
  rw [walk_setPriv, Run.mapState_mapState]
  exact (walk_setPriv p kind a level parent s s.priv).symm

end Sys2Proof.Machine
end

section
/-! Who is translated (R181, R182): bypassed, refused, or by the walk from the root, whatever the privilege. -/

namespace Sys2Proof.Machine

variable {s v : State} {p : Paging} {kind : AccessKind}

theorem paging_eq_none_iff {sch : Scheme} : sch.paging = none ↔ sch = .off := by
  cases sch <;> simp [Scheme.paging]

theorem scheme_ne_off (hp : s.scheme.paging = some p) : s.scheme ≠ .off :=
  fun off => by simp [paging_eq_none_iff.2 off] at hp

/-- A translated access is the walk from the root (R182, R183). -/
theorem translate_walk (hp : s.scheme.paging = some p) (ht : TranslatedFor s kind) (va : Addr) :
    translate va kind s = walk p kind (effective s.xlen va) p.top s.rootPpn s := by
  rw [translate, hp]
  cases hpriv : s.priv with
  | U | S => simp only [translatePaged, hpriv, startWalk]
  | M =>
    obtain hM | ⟨hkind, hmprv, hmpp⟩ := ht
    · exact absurd hpriv hM
    · have substituted : translateAs p va kind s = walk p kind (effective s.xlen va) p.top s.rootPpn s := by
        rcases hmpp with h | h <;> simp only [translateAs, h, privOfCode, startWalk] <;> exact walk_substituted ..
      simp only [translatePaged, hpriv, if_neg hkind, hmprv, substituted, if_true]

/-- A translated access in a state that differs in no control element is the walk from the same root (R182, R183). -/
theorem translate_sameControl (k : SameControl s v) (hp : s.scheme.paging = some p) (ht : TranslatedFor s kind) (va : Addr) :
    translate va kind v = walk p kind (effective s.xlen va) p.top s.rootPpn v := by
  obtain ⟨hcfg, hxlen, hscheme, hroot, hpriv, hstatus⟩ := k
  have translated : TranslatedFor v kind := by simpa only [TranslatedFor, hcfg, hpriv, hstatus] using ht
  rw [translate_walk (by rwa [hscheme]) translated, hxlen, hroot]

/-- The reserved effective privilege (R182, U4). -/
theorem translate_reserved (hs : s.scheme ≠ .off) (hpriv : s.priv = .M) (hkind : kind ≠ .execute)
    (hmprv : mprv s.cfg s.status = true) (hmpp : mpp s.cfg s.status = 2) (va : Addr) :
    translate va kind s = .refuse .reservedEffectivePrivilege := by
  cases hscheme : s.scheme with
  | off => exact absurd hscheme hs
  | twoLevel | threeLevel =>
    simp [translate, hscheme, Scheme.paging, translatePaged, hpriv, hkind, hmprv, translateAs, hmpp, privOfCode]

/-- The three ways a translation goes (R181, R182). -/
theorem translate_cases (s : State) (va : Addr) (kind : AccessKind) :
    Bypassed s kind ∨ translate va kind s = .refuse .reservedEffectivePrivilege ∨
      ∃ p, s.scheme.paging = some p ∧ TranslatedFor s kind := by
  cases hp : s.scheme.paging with
  | none => exact .inl (.inl (paging_eq_none_iff.1 hp))
  | some p =>
    by_cases hpriv : s.priv = .M
    · by_cases hkind : kind = .execute
      · exact .inl (.inr ⟨hpriv, .inl hkind⟩)
      · cases hmprv : mprv s.cfg s.status with
        | false => exact .inl (.inr ⟨hpriv, .inr (.inl hmprv)⟩)
        | true =>
          have four : ∀ c : BitVec 2, c = 3 ∨ c = 2 ∨ c = 0 ∨ c = 1 := by decide
          obtain hM | hR | hUS := four (mpp s.cfg s.status)
          · exact .inl (.inr ⟨hpriv, .inr (.inr hM)⟩)
          · exact .inr (.inl (translate_reserved (scheme_ne_off hp) hpriv hkind hmprv hR va))
          · exact .inr (.inr ⟨p, rfl, .inr ⟨hkind, hmprv, hUS⟩⟩)
    · exact .inr (.inr ⟨p, rfl, .inl hpriv⟩)

/-- Settles O31: with the scheme off the translation is bypassed. -/
theorem schemeOffTranslatesToTheSameAddress : Obligations.SchemeOffTranslatesToTheSameAddress := by
  intro s va kind hs
  have bypassed : translate va kind s = .ok (effective s.xlen va) s := translate_bypassed (.inl hs) va
  exact ⟨fun h => by rw [bypassed, h, effective], fun h => by rw [bypassed, h, effective]⟩

/-- A translation under another privilege that is translated, with Machine mode restored, is the walk (R182). -/
theorem translate_substituted (hp : s.scheme.paging = some p) {q : Priv} (hq : q ≠ .M) (va : Addr) (kind : AccessKind) :
    (translate va kind (s.setPriv q)).mapState (fun t => t.setPriv .M) =
      (walk p kind (effective s.xlen va) p.top s.rootPpn s).mapState fun t => t.setPriv .M := by
  have walked : translate va kind (s.setPriv q) = walk p kind (effective s.xlen va) p.top s.rootPpn (s.setPriv q) :=
    translate_walk (s := s.setPriv q) hp (.inl hq) va
  rw [walked, walk_setPriv, Run.mapState_mapState]
  rfl

/-- Settles O33: both are the walk from the root, which the privilege takes no part in. -/
theorem userAndSupervisorTranslateAlike : Obligations.UserAndSupervisorTranslateAlike := by
  intro s va kind
  show (translate va kind (s.setPriv .U)).mapState (fun t => t.setPriv .M) =
    (translate va kind (s.setPriv .S)).mapState fun t => t.setPriv .M
  cases hp : s.scheme.paging with
  | none => simp only [translate, State.setPriv_scheme, hp]; rfl
  | some p => rw [translate_substituted hp (by decide), translate_substituted hp (by decide)]

/-- Settles O32: Machine mode by `translate_bypassed`, `translate_reserved` and `translate_substituted`, the rest by
`translate_walk`. -/
theorem privilegeDecidesWhoIsTranslated : Obligations.PrivilegeDecidesWhoIsTranslated := by
  intro s va kind p hp
  have overridden : ∀ {q : Priv}, q ≠ .M → s.priv = .M → TranslatedFor s kind →
      translate va kind s = (translate va kind (s.setPriv q)).mapState fun t => t.setPriv .M := fun hq hpriv ht => by
    rw [translate_substituted hp hq, translate_walk hp ht, ← hpriv, ← walk_setPriv]
    rfl
  refine ⟨fun hM hk => translate_bypassed (.inr ⟨hM, .inl hk⟩) va,
    fun hM _ hv => translate_bypassed (.inr ⟨hM, .inr (.inl hv)⟩) va, fun hM hk hv => ⟨?_, ?_, ?_, ?_⟩, ?_⟩
  · exact fun h => translate_bypassed (.inr ⟨hM, .inr (.inr h)⟩) va
  · exact fun h => translate_reserved (scheme_ne_off hp) hM hk hv h va
  · exact fun h => overridden (q := .U) (by decide) hM (.inr ⟨hk, hv, .inl h⟩)
  · exact fun h => overridden (q := .S) (by decide) hM (.inr ⟨hk, hv, .inr h⟩)
  · exact fun h => translate_walk hp (.inl (by rcases h with h | h <;> simp [h])) va

/-- Settles O30: each command begins with the translation of its address, refused by `translate_reserved`. -/
theorem reservedEffectivePrivilegeIsRefused : Obligations.ReservedEffectivePrivilegeIsRefused := by
  intro s a d hs hpriv hmprv hmpp
  have refused : ∀ {kind}, kind ≠ .execute → translate a kind s = .refuse .reservedEffectivePrivilege :=
    fun hk => translate_reserved hs hpriv hk hmprv hmpp a
  have loaded : ∀ {n}, 0 < n → load a n s = .refused .reservedEffectivePrivilege :=
    fun hn => finish_refused (memRead_translate_refused (refused (by decide)) hn) _
  have stored : ∀ {n}, 0 < n → store a n d s = .refused .reservedEffectivePrivilege :=
    fun hn => finish_refused (memWrite_translate_refused (refused (by decide)) (by rwa [bytesOf_length])) _
  refine ⟨loaded (by decide), loaded (by decide), loaded (by decide), loaded (by decide), stored (by decide),
    stored (by decide), stored (by decide), stored (by decide), ?_, translate_bypassed (.inr ⟨hpriv, .inl rfl⟩) a⟩
  rw [exec, execValidate, refused (by decide)]

end Sys2Proof.Machine
end

section
/-! The TLB: what a hit leaves (R169), which slot an insertion takes and what it leaves in every other (R171), and what the
lookups find afterwards. -/

namespace Sys2Proof.Machine

variable {s : State} {tag : TlbTag} {pte : Word}

/-! Hits -/

/-- A hit reads no Backing Store (R169). -/
theorem fetchPte_hit {p : Paging} {level : Nat} {parent : BitVec 44} {a : Addr} {i : Fin 64}
    (h : tlbLookup s (tlbTag s.cfg.tagMode level (p.key a)) = some i) :
    fetchPte p level parent a s = .ok (s.tlbEntry i).pte ((s.markTlb i).addLat s.cfg.latTlbHit) := by
  simp only [fetchPte, h]

theorem tlbEntry_markTlb (s : State) (i j : Fin 64) :
    (s.markTlb i).tlbEntry j = if j = i then { s.tlbEntry i with mru := true } else s.tlbEntry j :=
  tlbEntry_setTlbEntry s i j _

/-- Settles O39: `fetchPte_hit`, the entries by `tlbEntry_markTlb`. -/
theorem tlbHitReusesTheStoredEntry : Obligations.TlbHitReusesTheStoredEntry := by
  intro p level parent a s i h
  have entries : ∀ j, ((s.markTlb i).addLat s.cfg.latTlbHit).tlbEntry j = (s.markTlb i).tlbEntry j := tlbEntry_congr rfl
  refine ⟨_, fetchPte_hit h, rfl, ?_, fun j hj => ?_⟩
  · rw [entries, tlbEntry_markTlb, if_pos rfl]
  · rw [entries, tlbEntry_markTlb, if_neg hj]

/-! The state in which a slot is chosen -/

/-- The state in which an insertion chooses its slot: markers cleared if no slot is free or unmarked (R171). -/
def insertReady (s : State) : State := if freeSlots s = [] then s.generationalReset else s

theorem insertReady_of_free {j : Fin 64} (h : (s.tlbEntry j).valid = false) : insertReady s = s :=
  if_neg fun hf => by simp [freeSlots_nil.1 hf j] at h

theorem insertReady_of_unmarked {j : Fin 64} (h : (s.tlbEntry j).mru = false) : insertReady s = s := by
  have hm : unmarkedSlots s ≠ [] := fun hm => by simp [unmarkedSlots_nil.1 hm j] at h
  rw [insertReady, State.generationalReset, if_neg hm, ite_self]

theorem insertReady_of_marked (hv : ∀ j, (s.tlbEntry j).valid = true) (hm : ∀ j, (s.tlbEntry j).mru = true) :
    insertReady s = s.clearMarkers := by
  rw [insertReady, if_pos (freeSlots_nil.2 hv), State.generationalReset, if_pos (unmarkedSlots_nil.2 hm)]

/-- The state is as it was, or with every marker cleared. -/
theorem insertReady_cases (s : State) : insertReady s = s ∨ insertReady s = s.clearMarkers := by
  rw [insertReady, State.generationalReset]
  split
  · split
    · exact .inr rfl
    · exact .inl rfl
  · exact .inl rfl

theorem insertReady_frame (s : State) : insertReady s = { s with tlb := (insertReady s).tlb } := by
  rcases insertReady_cases s with h | h <;> rw [h]
  rfl

/-- The choice of a slot changes no entry but for its marker (R171). -/
theorem tlbEntry_insertReady (s : State) (j : Fin 64) : ∃ m, (insertReady s).tlbEntry j = { s.tlbEntry j with mru := m } := by
  rcases insertReady_cases s with h | h <;> rw [h]
  · exact ⟨_, rfl⟩
  · exact ⟨_, tlbEntry_clearMarkers s j⟩

theorem freeSlots_insertReady (s : State) : freeSlots (insertReady s) = freeSlots s := by
  rw [insertReady]
  split
  · exact freeSlots_generationalReset s
  · rfl

/-- With no slot free, some slot is unmarked (R171). -/
theorem unmarkedSlots_insertReady (hf : freeSlots (insertReady s) = []) : unmarkedSlots (insertReady s) ≠ [] := by
  rw [insertReady, if_pos (by rwa [freeSlots_insertReady] at hf)]
  exact unmarked_after_reset s

/-! What an insertion leaves -/

theorem tlbInsert_eq (tag : TlbTag) (pte : Word) (s : State) :
    tlbInsert tag pte s = (insertReady s).tookTlbDraw.setTlbEntry (insertSlot (insertReady s)) ⟨true, tag, pte, true⟩ := rfl

/-- The slot taken holds the entry, marked; every other slot is as the choice left it (R171). -/
theorem tlbEntry_tlbInsert (tag : TlbTag) (pte : Word) (s : State) (j : Fin 64) :
    (tlbInsert tag pte s).tlbEntry j =
      if j = insertSlot (insertReady s) then ⟨true, tag, pte, true⟩ else (insertReady s).tlbEntry j := by
  rw [tlbInsert_eq, tlbEntry_setTlbEntry, tlbEntry_congr (tookTlbDraw_tlb _)]

theorem tookTlbDraw_frame (s : State) :
    s.tookTlbDraw = { s with draws := s.tookTlbDraw.draws, drawCount := s.tookTlbDraw.drawCount } := by
  rw [State.tookTlbDraw]
  split <;> rfl

/-- An insertion changes the TLB and the draws alone (R171). -/
theorem tlbInsert_frame (tag : TlbTag) (pte : Word) (s : State) : tlbInsert tag pte s =
    { s with tlb := (tlbInsert tag pte s).tlb, draws := (tlbInsert tag pte s).draws,
             drawCount := (tlbInsert tag pte s).drawCount } := by
  rw [tlbInsert_eq, tookTlbDraw_frame, insertReady_frame]
  rfl

theorem tlbInsert_cfg (tag : TlbTag) (pte : Word) (s : State) : (tlbInsert tag pte s).cfg = s.cfg := by
  rw [tlbInsert_frame]

theorem tlbInsert_bs (tag : TlbTag) (pte : Word) (s : State) : (tlbInsert tag pte s).bs = s.bs := by
  rw [tlbInsert_frame]

/-! Every candidate is drawn -/

/-- Each slot an insertion may take is taken for some draw (R13, R171). -/
theorem insertSlot_surj {i : Fin 64} (h : i ∈ freeSlots s ∨ freeSlots s = [] ∧ i ∈ unmarkedSlots s) :
    ∃ d, insertSlot { s with draws := d } = i := by
  have sameFree : ∀ d, freeSlots { s with draws := d } = freeSlots s := fun _ => rfl
  have sameUnmarked : ∀ d, unmarkedSlots { s with draws := d } = unmarkedSlots s := fun _ => rfl
  cases hf : freeSlots s with
  | nil =>
    obtain ⟨n, hn⟩ := choose_surj (c := unmarkedSlots s) (by simpa [hf] using h) 0
    exact ⟨⟨[], [], [n]⟩, by simp only [insertSlot, sameFree, sameUnmarked, hf]; exact hn⟩
  | cons j js =>
    obtain ⟨n, hn⟩ := choose_surj (c := j :: js) (by simpa [hf] using h) 0
    exact ⟨⟨[], [], [n]⟩, by simp only [insertSlot, sameFree, hf]; exact hn⟩

theorem insertReady_draws (s : State) (d : Draws) :
    insertReady { s with draws := d } = { insertReady s with draws := d } := by
  have sameFree : freeSlots { s with draws := d } = freeSlots s := rfl
  have sameUnmarked : unmarkedSlots { s with draws := d } = unmarkedSlots s := rfl
  rw [insertReady, insertReady, State.generationalReset, State.generationalReset, sameFree, sameUnmarked]
  split
  · split <;> rfl
  · rfl

theorem tlbInsert_surj {i : Fin 64} (tag : TlbTag) (pte : Word)
    (h : i ∈ freeSlots (insertReady s) ∨ freeSlots (insertReady s) = [] ∧ i ∈ unmarkedSlots (insertReady s)) :
    ∃ d, (tlbInsert tag pte { s with draws := d }).tlbEntry i = ⟨true, tag, pte, true⟩ := by
  obtain ⟨d, hd⟩ := insertSlot_surj h
  exact ⟨d, by rw [tlbEntry_tlbInsert, insertReady_draws, hd, if_pos rfl]⟩

/-- Settles O40: the slot is free or unmarked by `insertSlot_cases`, in the state `insertReady` of each case; every candidate is
drawn by `tlbInsert_surj`; the frame is `tlbInsert_frame`. -/
theorem tlbInsertTakesAFreeOrAnUnmarkedSlot : Obligations.TlbInsertTakesAFreeOrAnUnmarkedSlot := by
  intro s tag pte
  have entry := tlbEntry_tlbInsert tag pte s
  have slot := insertSlot_cases (insertReady s) unmarkedSlots_insertReady
  refine ⟨⟨insertSlot (insertReady s), by rw [entry, if_pos rfl], ?free, ?unmarked, ?marked⟩, ?drawn,
    _, rfl, tlbInsert_frame tag pte s⟩
  case free =>
    rintro ⟨j, hj⟩
    rw [insertReady_of_free hj] at entry slot ⊢
    refine ⟨slot.resolve_right fun h => ?_, fun k hk => by rw [entry, if_neg hk]⟩
    rw [freeSlots_nil.1 h.1 j] at hj
    cases hj
  case unmarked =>
    rintro hv ⟨j, hj⟩
    rw [insertReady_of_unmarked hj] at entry slot ⊢
    refine ⟨(slot.resolve_left fun h => ?_).2, fun k hk => by rw [entry, if_neg hk]⟩
    rw [hv] at h
    cases h
  case marked =>
    intro hv hm k hk
    rw [entry, if_neg hk, insertReady_of_marked hv hm, tlbEntry_clearMarkers]
  case drawn =>
    rintro i (hi | ⟨hv, hi | hm⟩) <;> apply tlbInsert_surj
    · exact .inl (by rw [insertReady_of_free hi]; simpa [freeSlots] using hi)
    · rw [insertReady_of_unmarked hi]
      exact .inr ⟨freeSlots_nil.2 hv, by simpa [unmarkedSlots] using hi⟩
    · rw [freeSlots_insertReady, insertReady_of_marked hv hm]
      exact .inr ⟨freeSlots_nil.2 hv, by simp [unmarkedSlots, tlbEntry_clearMarkers]⟩

/-! Lookups after an insertion -/

/-- A lookup that misses still misses after the choice of a slot. -/
theorem insertReady_misses (h : tlbLookup s tag = none) (j : Fin 64) (hv : ((insertReady s).tlbEntry j).valid = true) :
    ((insertReady s).tlbEntry j).tag ≠ tag := by
  obtain ⟨m, hm⟩ := tlbEntry_insertReady s j
  rw [hm] at hv ⊢
  exact tlbLookup_none.1 h j hv

/-- After a miss and an insertion the lookup finds the entry inserted, marked (R168, R171). -/
theorem tlbLookup_tlbInsert_same (h : tlbLookup s tag = none) (pte : Word) :
    ∃ i, tlbLookup (tlbInsert tag pte s) tag = some i ∧ (tlbInsert tag pte s).tlbEntry i = ⟨true, tag, pte, true⟩ := by
  have entry := tlbEntry_tlbInsert tag pte s
  cases hi : tlbLookup (tlbInsert tag pte s) tag with
  | none =>
    have absent := tlbLookup_none.1 hi (insertSlot (insertReady s))
    rw [entry, if_pos rfl] at absent
    exact absurd rfl (absent rfl)
  | some i =>
    obtain ⟨hv, ht⟩ := tlbLookup_some hi
    refine ⟨i, rfl, ?_⟩
    rw [entry] at hv ht ⊢
    split
    · rfl
    · next hne =>
      rw [if_neg hne] at hv ht
      exact absurd ht (insertReady_misses h i hv)

/-- An insertion under another tag does not make a lookup find anything. -/
theorem tlbLookup_tlbInsert_other {tag' : TlbTag} (h : tlbLookup s tag = none) (hne : tag ≠ tag') (pte : Word) :
    tlbLookup (tlbInsert tag' pte s) tag = none := by
  refine tlbLookup_none.2 fun j hv => ?_
  rw [tlbEntry_tlbInsert] at hv ⊢
  split
  · exact hne.symm
  · next hj =>
    rw [if_neg hj] at hv
    exact insertReady_misses h j hv

/-- Under the level-qualified tag the levels of a walk have tags of their own (R166). -/
theorem tlbTag_levelQualified_ne {l m : Nat} (hl : l < 4) (hm : m < 4) (h : l ≠ m) (k k' : BitVec 27) :
    tlbTag .levelQualified l k ≠ tlbTag .levelQualified m k' := by
  intro e
  have level := congrArg (fun t => t.level.toNat) e
  simp only [tlbTag, BitVec.toNat_ofNat] at level
  omega

end Sys2Proof.Machine
end

section
/-! One walk step on a fetched entry (R184 to R191): rejected, a pointer, or a leaf, rewritten before it is checked. -/

namespace Sys2Proof.Machine

variable {s u : State} {p : Paging} {kind : AccessKind} {level : Nat} {parent : BitVec 44} {a addr : Addr} {pte : Word}

/-! The rewrite of an entry -/

/-- The state once the Accessed/Dirty rewrite of an entry, if due, is made (R188). -/
def rewritten (p : Paging) (kind : AccessKind) (addr : Addr) (pte : Word) (s : State) : State :=
  if needsRewrite kind pte then
    (s.setBs (Memory.writeBytes s.bs addr (bytesOf p.pteSize (withAccessed kind pte)))).addLat s.cfg.latPteWrite
  else s

/-- The rewrite of an entry, if due, lies in the window (R124). -/
def RewriteInWindow (s : State) (p : Paging) (kind : AccessKind) (addr : Addr) (pte : Word) : Prop :=
  needsRewrite kind pte = true → EntryInWindow s p addr

theorem rewriteEntry_ok (h : RewriteInWindow s p kind addr pte) :
    rewriteEntry p kind addr pte s = .ok () (rewritten p kind addr pte s) := by
  rw [rewriteEntry, rewritten]
  split
  · next due =>
    obtain ⟨hfirst, hlast⟩ := h due
    rw [bsWrite_ok hfirst (by rwa [bytesOf_length])]
    rfl
  · rfl

theorem rewriteEntry_refused (h : ¬RewriteInWindow s p kind addr pte) :
    rewriteEntry p kind addr pte s = .refuse .outsideBackingStore := by
  obtain ⟨due, hout⟩ := Classical.not_imp.1 h
  rw [rewriteEntry, if_pos due, bsWrite, if_neg]
  · rfl
  · rw [bytesOf_length, Bool.and_eq_true]
    exact hout

/-- The rewrite changes the byte list and the latency alone (R188). -/
theorem rewritten_frame (p : Paging) (kind : AccessKind) (addr : Addr) (pte : Word) (s : State) :
    rewritten p kind addr pte s =
      { s with bs := (rewritten p kind addr pte s).bs, lat := (rewritten p kind addr pte s).lat } := by
  rw [rewritten]
  split <;> rfl

theorem rewritten_tlb (p : Paging) (kind : AccessKind) (addr : Addr) (pte : Word) (s : State) :
    (rewritten p kind addr pte s).tlb = s.tlb := by
  rw [rewritten_frame]

theorem rewritten_cfg (p : Paging) (kind : AccessKind) (addr : Addr) (pte : Word) (s : State) :
    (rewritten p kind addr pte s).cfg = s.cfg := by
  rw [rewritten_frame]

theorem rewritten_lat (p : Paging) (kind : AccessKind) (addr : Addr) (pte : Word) (s : State) :
    (rewritten p kind addr pte s).lat =
      s.lat + BitVec.ofNat 64 (if needsRewrite kind pte then s.cfg.latPteWrite else 0) := by
  rw [rewritten]
  split
  · rfl
  · exact (BitVec.add_zero s.lat).symm

/-- The bytes of an entry that does not wrap, after its rewrite (R188). -/
theorem rewritten_bsByte (hm : Memory.wf s.bs = true) (ha : addr.toNat + p.pteSize ≤ 2 ^ 64) (x : Addr) :
    (rewritten p kind addr pte s).bsByte x = s.rewrittenByte p kind addr pte x := by
  have hx := x.isLt
  have haddr := addr.isLt
  rw [rewritten, State.rewrittenByte]
  split
  · next due =>
    have written : ((s.setBs (Memory.writeBytes s.bs addr (bytesOf p.pteSize (withAccessed kind pte)))).addLat
        s.cfg.latPteWrite).bsByte x = _ :=
      Memory.read_writeBytes hm addr (bytesOf p.pteSize (withAccessed kind pte)) (by rwa [bytesOf_length]) x.toNat
    rw [written, bytesOf_length, bytesOf_getD, BitVec.toNat_sub]
    by_cases inside : addr.toNat ≤ x.toNat ∧ x.toNat < addr.toNat + p.pteSize
    · have hsub : (2 ^ 64 - addr.toNat + x.toNat) % 2 ^ 64 = x.toNat - addr.toNat := by omega
      have hlt : x.toNat - addr.toNat < p.pteSize := by omega
      rw [if_pos inside, hsub, if_pos hlt, if_pos ⟨due, hlt⟩]
      rfl
    · rw [if_neg inside, if_neg fun h => inside (by omega)]
      rfl
  · next h => rw [if_neg fun k => h k.1]

/-- An entry address leaves room for the entry. -/
theorem pteAddr_add_pteSize_le (p : Paging) (level : Nat) (parent : BitVec 44) (a : Addr) :
    (p.pteAddr level parent a).toNat + p.pteSize ≤ 2 ^ 64 := by
  have hparent := parent.isLt
  have htable := vpn_mul_pteSize_le p level a
  rw [pteAddr_toNat]
  omega

theorem Walked.sameCaches (h : Walked s u) : SameCaches s u := by rw [h.frame]; exact ⟨rfl, rfl, rfl, rfl, rfl, rfl, rfl⟩

theorem SameCaches.trans {t : State} (h : SameCaches s t) (k : SameCaches t u) : SameCaches s u := by
  simp only [SameCaches] at *; simp [*]

theorem rewritten_sameControl (p : Paging) (kind : AccessKind) (addr : Addr) (pte : Word) (s : State) :
    SameControl s (rewritten p kind addr pte s) := by
  rw [rewritten_frame]; exact .refl s

theorem rewritten_sameCaches (p : Paging) (kind : AccessKind) (addr : Addr) (pte : Word) (s : State) :
    SameCaches s (rewritten p kind addr pte s) := by
  rw [rewritten_frame]; exact ⟨rfl, rfl, rfl, rfl, rfl, rfl, rfl⟩

/-! Leaves -/

/-- A leaf whose rewrite is made is checked after it (R188 to R191). -/
theorem useLeaf_checked (h : RewriteInWindow s p kind addr pte) : useLeaf p kind level addr a pte s =
    if permits kind pte = true ∧ misaligned p level pte = false then
      .ok (p.leafAddr level pte a) (rewritten p kind addr pte s)
    else .raise () (rewritten p kind addr pte s) := by
  rw [useLeaf, rewriteEntry_ok h, Run.bind_ok]
  cases permits kind pte <;> cases misaligned p level pte <;> rfl

theorem useLeaf_refused (h : ¬RewriteInWindow s p kind addr pte) :
    useLeaf p kind level addr a pte s = .refuse .outsideBackingStore := by
  rw [useLeaf, rewriteEntry_refused h]; rfl

theorem useLeaf_raises_iff : (∃ t, useLeaf p kind level addr a pte s = .raise () t) ↔
    RewriteInWindow s p kind addr pte ∧ (permits kind pte = false ∨ misaligned p level pte = true) := by
  by_cases h : RewriteInWindow s p kind addr pte
  · rw [useLeaf_checked h]
    split
    · next hc => simp [hc]
    · next hc => simpa [h, or_iff_not_imp_left] using hc
  · simp [useLeaf_refused h, h]

/-! The walk on a fetched entry -/

/-- What the walk makes of a pointer at a level (R186). -/
def descendFrom (p : Paging) (kind : AccessKind) (a : Addr) : Nat → BitVec 44 → State → Run Unit Addr
  | 0, _, s => .raise () s
  | level + 1, parent, s => walk p kind a level parent s

theorem walk_eq_walkStep (p : Paging) (kind : AccessKind) (a : Addr) (level : Nat) (parent : BitVec 44) (s : State) :
    walk p kind a level parent s = walkStep p kind a level parent (descendFrom p kind a level) s := by
  cases level <;> rfl

theorem walk_rejected (e : fetchPte p level parent a s = .ok pte u) (hr : rejectedEntry pte = true) :
    walk p kind a level parent s = .raise () u := by
  rw [walk_eq_walkStep, walkStep, e, Run.bind_ok, if_pos hr]

theorem walk_descends (e : fetchPte p level parent a s = .ok pte u) (hr : rejectedEntry pte = false)
    (hp : isPointer pte = true) : walk p kind a level parent s = descendFrom p kind a level (p.ppn pte) u := by
  rw [walk_eq_walkStep, walkStep, e, Run.bind_ok, hr, hp]; rfl

theorem walk_leaf (e : fetchPte p level parent a s = .ok pte u) (hr : rejectedEntry pte = false)
    (hp : isPointer pte = false) :
    walk p kind a level parent s = useLeaf p kind level (p.pteAddr level parent a) a pte u := by
  rw [walk_eq_walkStep, walkStep, e, Run.bind_ok, hr, hp]; rfl

theorem descendFrom_raises_iff {n : BitVec 44} : (∃ t, descendFrom p kind a level n u = .raise () t) ↔
    level = 0 ∨ ∃ l t, level = l + 1 ∧ walk p kind a l n u = .raise () t := by
  cases level <;> simp [descendFrom]

/-! The five causes of failure -/

theorem rejectedEntry_iff : rejectedEntry pte = true ↔ pteV pte = false ∨ (pteW pte = true ∧ pteR pte = false) := by
  simp [rejectedEntry, and_comm]

theorem isPointer_iff : isPointer pte = true ↔ pteR pte = false ∧ pteX pte = false := by
  simp [isPointer]

theorem isPointer_eq_false_iff : isPointer pte = false ↔ pteR pte = true ∨ pteX pte = true := by
  rw [← Bool.not_eq_true, isPointer_iff, not_and_or, Bool.not_eq_false, Bool.not_eq_false]

/-- A leaf looks like one (R170, R186). -/
theorem looksLikeLeaf_of_not_pointer (h : isPointer pte = false) : looksLikeLeaf pte = true := by
  rcases isPointer_eq_false_iff.1 h with hR | hX <;> simp [looksLikeLeaf, *]

theorem permits_eq_false_iff : permits kind pte = false ↔
    (kind = .execute ∧ pteX pte = false) ∨ (kind = .read ∧ pteR pte = false) ∨ (kind = .write ∧ pteW pte = false) := by
  cases kind <;> simp [permits]

theorem misaligned_iff (hl : level ≤ p.top) : misaligned p level pte = true ↔
    (p = .twoLevel ∧ level = 1 ∧ pte.extractLsb' 10 10 ≠ 0) ∨ (p = .threeLevel ∧ level = 1 ∧ pte.extractLsb' 10 9 ≠ 0) ∨
      (p = .threeLevel ∧ level = 2 ∧ (pte.extractLsb' 19 9 ≠ 0 ∨ pte.extractLsb' 10 9 ≠ 0)) := by
  cases p with
  | twoLevel =>
    obtain rfl | rfl : level = 0 ∨ level = 1 := by simp only [Paging.top] at hl; omega
    · simp [misaligned]
    · simp [misaligned]
  | threeLevel =>
    obtain rfl | rfl | rfl : level = 0 ∨ level = 1 ∨ level = 2 := by simp only [Paging.top] at hl; omega
    · simp [misaligned]
    · simp [misaligned]
    · simp [misaligned]

/-- The failures of a walk step on a fetched entry, by what the entry is (R193). -/
theorem walk_raises_iff (e : fetchPte p level parent a s = .ok pte u) :
    (∃ t, walk p kind a level parent s = .raise () t) ↔ rejectedEntry pte = true ∨
      (isPointer pte = true ∧ ∃ t, descendFrom p kind a level (p.ppn pte) u = .raise () t) ∨
      (isPointer pte = false ∧ ∃ t, useLeaf p kind level (p.pteAddr level parent a) a pte u = .raise () t) := by
  cases hr : rejectedEntry pte with
  | true => simp [walk_rejected e hr]
  | false =>
    cases hp : isPointer pte with
    | true => simp [walk_descends e hr hp]
    | false => simp [walk_leaf e hr hp]

/-- Settles O25: `walk_raises_iff`, with what each test of the step asks of the entry's bits. -/
theorem walkFailsForTheFiveCausesOnly : Obligations.WalkFailsForTheFiveCausesOnly := by
  intro p kind a level parent s u pte hl e
  rw [walk_raises_iff e, rejectedEntry_iff, isPointer_iff, descendFrom_raises_iff, isPointer_eq_false_iff, useLeaf_raises_iff,
    permits_eq_false_iff, misaligned_iff hl, RewriteInWindow]
  simp only [or_assoc, and_assoc]

/-- Settles O38: the leaf is rewritten, `useLeaf_checked`, and the state left is `rewritten`. -/
theorem rewritePrecedesThePermissionCheck : Obligations.RewritePrecedesThePermissionCheck := by
  intro p kind a level parent s u pte e _ hm hw hr hp hperm hdue
  have hlat := rewritten_lat p kind (p.pteAddr level parent a) pte u
  rw [if_pos hdue] at hlat
  refine ⟨rewritten p kind (p.pteAddr level parent a) pte u, ?_,
    rewritten_bsByte hm (pteAddr_add_pteSize_le p level parent a), hlat, rewritten_tlb .., rewritten_sameCaches ..,
    rewritten_sameControl ..⟩
  rw [walk_leaf e hr hp, useLeaf_checked fun _ => hw, if_neg (by simp [hperm])]

end Sys2Proof.Machine
end

section
/-! A translation that fails (R193): the page fault of the access's kind, with no data phase (R232, R233). -/

namespace Sys2Proof.Machine

variable {s u : State} {va : Addr} {kind : AccessKind} {n : Nat}

theorem memRead_translate_failed (hp : singlePage va n = true) (e : translate va kind s = .raise () u) :
    memRead va n kind s = .raise ⟨pageFault kind, va⟩ u := by
  rw [memRead, if_pos hp, access_failed e]

theorem memWrite_translate_failed {bytes : List Byte} (hp : singlePage va bytes.length = true)
    (e : translate va .write s = .raise () u) : memWrite va bytes s = .raise ⟨pageFault .write, va⟩ u := by
  rw [memWrite, if_pos hp, access_failed e]

theorem finish_failed {α : Type} {x : Run Failure α} {f : Failure} (e : x = .raise f u) (answer : α → Response) :
    finish answer x = .next { u with response := some ⟨f.kind.status, 0, f.tval, []⟩ } := by
  rw [e]; rfl

theorem translate_failed_keeps (e : translate va kind s = .raise () u) : SameCaches s u ∧ SameControl s u := by
  have walked := translate_leaves va kind s
  rw [e] at walked
  exact ⟨walked.sameCaches, walked.sameControl⟩

theorem singlePage_one (va : Addr) : singlePage va 1 = true := (singlePage_iff va 1).2 (by omega)

/-- Settles O24: each command is the end of a read or of a write whose translation failed. -/
theorem failedTranslationIsAPageFault : Obligations.FailedTranslationIsAPageFault := by
  intro s a d
  have loaded : ∀ {n u}, singlePage a n = true → translate a .read s = .raise () u →
      load a n s = .next { u with response := some ⟨.loadPageFault, 0, a, []⟩ } ∧ SameCaches s u ∧ SameControl s u :=
    fun hp e => ⟨finish_failed (memRead_translate_failed hp e) _, translate_failed_keeps e⟩
  have stored : ∀ {n u}, singlePage a n = true → translate a .write s = .raise () u →
      store a n d s = .next { u with response := some ⟨.storePageFault, 0, a, []⟩ } ∧ SameCaches s u ∧ SameControl s u :=
    fun hp e => ⟨finish_failed (memWrite_translate_failed (by rwa [bytesOf_length]) e) _, translate_failed_keeps e⟩
  refine ⟨fun _ => loaded (singlePage_one a), fun _ => loaded, fun _ => loaded, fun _ => loaded,
    fun _ => stored (singlePage_one a), fun _ => stored, fun _ => stored, fun _ => stored,
    fun _ hp e => ⟨finish_failed (memRead_translate_failed hp e) _, translate_failed_keeps e⟩, fun len u hlen hp e => ?_⟩
  rw [exec_fetchBlk hlen]
  exact ⟨finish_failed (memRead_translate_failed hp e) _, translate_failed_keeps e⟩

end Sys2Proof.Machine
end

section
/-! A leaf reached with no TLB entry for its page (R184 to R191): at once or through pointers. -/

namespace Sys2Proof.Machine

variable {s t : State} {p : Paging} {kind : AccessKind} {level l : Nat} {parent : BitVec 44} {a e e0 : Addr} {ptr leaf : Word}
  {reads : Nat}

/-- What a walk leaves that read a number of entries, the last a leaf at a level (R170, R171, R188). -/
structure LeafUsed (s t : State) (p : Paging) (kind : AccessKind) (a : Addr) (level : Nat) (e : Addr) (leaf : Word)
    (reads : Nat) : Prop where
  bytes : ∀ x, t.bsByte x = s.rewrittenByte p kind e leaf x
  cached : ∃ i, t.tlbEntry i = ⟨true, tlbTag s.cfg.tagMode level (p.key a), leaf, true⟩
  lat : t.lat = s.lat + BitVec.ofNat 64 (reads * s.cfg.latPteRead + if needsRewrite kind leaf then s.cfg.latPteWrite else 0)
  caches : SameCaches s t
  control : SameControl s t

/-- A walk from a level that ends at a permitted leaf at level `l`, with the alignment check still to decide (R190, R191). -/
def EndsAtLeaf (s : State) (p : Paging) (kind : AccessKind) (a : Addr) (level : Nat) (parent : BitVec 44) (l : Nat) (e : Addr)
    (leaf : Word) (reads : Nat) : Prop :=
  ∃ t, walk p kind a level parent s =
      (if misaligned p l leaf = true then .raise () t else .ok (p.leafAddr l leaf a) t) ∧
    LeafUsed s t p kind a l e leaf reads

/-- An entry that looks like a leaf, read, is cached as it was read (R170). -/
theorem fetchPte_cached (hmiss : tlbLookup s (tlbTag s.cfg.tagMode level (p.key a)) = none) (he : e = p.pteAddr level parent a)
    (hw : EntryInWindow s p e) (hleaf : s.entryAt p e = leaf) (hl : looksLikeLeaf leaf = true) :
    fetchPte p level parent a s =
      .ok leaf (tlbInsert (tlbTag s.cfg.tagMode level (p.key a)) leaf (s.addLat s.cfg.latPteRead)) := by
  subst he hleaf
  rw [fetchPte_read hmiss hw, if_pos hl]

theorem endsAtLeaf_here (hm : Memory.wf s.bs = true) (hmiss : tlbLookup s (tlbTag s.cfg.tagMode level (p.key a)) = none)
    (he : e = p.pteAddr level parent a) (hw : EntryInWindow s p e) (hleaf : s.entryAt p e = leaf) (hv : ValidLeaf kind leaf) :
    EndsAtLeaf s p kind a level parent level e leaf 1 := by
  obtain ⟨hr, hp, hperm⟩ := hv
  have fetched := fetchPte_cached hmiss he hw hleaf (looksLikeLeaf_of_not_pointer hp)
  have frame := tlbInsert_frame (tlbTag s.cfg.tagMode level (p.key a)) leaf (s.addLat s.cfg.latPteRead)
  have stored := tlbEntry_tlbInsert (tlbTag s.cfg.tagMode level (p.key a)) leaf (s.addLat s.cfg.latPteRead)
  generalize tlbInsert (tlbTag s.cfg.tagMode level (p.key a)) leaf (s.addLat s.cfg.latPteRead) = u at fetched frame stored
  have hbs : u.bs = s.bs := by rw [frame]; rfl
  have hcfg : u.cfg = s.cfg := by rw [frame]; rfl
  have hlat : u.lat = s.lat + BitVec.ofNat 64 s.cfg.latPteRead := by rw [frame]; rfl
  have sameBytes : ∀ x, u.rewrittenByte p kind e leaf x = s.rewrittenByte p kind e leaf x := fun x => by
    simp only [State.rewrittenByte, State.bsByte, hbs]
  refine ⟨rewritten p kind e leaf u, ?walk, fun x => ?bytes,
    ⟨insertSlot (insertReady (s.addLat s.cfg.latPteRead)), ?cached⟩, ?lat, ?caches, ?control⟩
  case walk =>
    have window : RewriteInWindow u p kind e leaf := fun _ => by rw [EntryInWindow, hcfg]; exact hw
    rw [walk_leaf fetched hr hp, ← he, useLeaf_checked window, hperm]
    cases misaligned p level leaf <;> rfl
  case bytes =>
    rw [← sameBytes]
    exact rewritten_bsByte (by rwa [hbs]) (he ▸ pteAddr_add_pteSize_le p level parent a) x
  case cached =>
    rw [tlbEntry_congr (rewritten_tlb ..), stored]
    exact if_pos rfl
  case lat => rw [rewritten_lat, hlat, hcfg, BitVec.add_assoc, ← BitVec.ofNat_add, Nat.one_mul]
  case caches =>
    refine SameCaches.trans ?_ (rewritten_sameCaches ..)
    rw [frame]; exact ⟨rfl, rfl, rfl, rfl, rfl, rfl, rfl⟩
  case control =>
    refine SameControl.trans ?_ (rewritten_sameControl ..)
    rw [frame]; exact ⟨rfl, rfl, rfl, rfl, rfl, rfl⟩

theorem LeafUsed.afterRead (h : LeafUsed (s.addLat s.cfg.latPteRead) t p kind a l e leaf reads) :
    LeafUsed s t p kind a l e leaf (reads + 1) where
  bytes := h.bytes
  cached := h.cached
  lat := by
    rw [h.lat, State.addLat_lat, State.addLat_cfg, BitVec.add_assoc, ← BitVec.ofNat_add, Nat.add_mul, Nat.one_mul,
      Nat.add_right_comm, Nat.add_comm s.cfg.latPteRead]
  caches := h.caches
  control := h.control

theorem endsAtLeaf_pointer (hmiss : tlbLookup s (tlbTag s.cfg.tagMode (level + 1) (p.key a)) = none)
    (he : e = p.pteAddr (level + 1) parent a) (hw : EntryInWindow s p e) (hptr : s.entryAt p e = ptr) (hv : ValidPointer ptr)
    (h : EndsAtLeaf (s.addLat s.cfg.latPteRead) p kind a level (p.ppn ptr) l e0 leaf reads) :
    EndsAtLeaf s p kind a (level + 1) parent l e0 leaf (reads + 1) := by
  obtain ⟨t, hwalk, used⟩ := h
  subst he hptr
  exact ⟨t, by rw [walk_pointer hmiss hw hv, hwalk], used.afterRead⟩

/-! The address of each kind of page -/

/-- A two-level entry has 32 bits, so that its page number needs no mask (R164, R170). -/
theorem entryAt_twoLevel_ppn (s : State) (e : Addr) :
    s.entryAt .twoLevel e >>> 10 &&& (0x3FFFFF : Word) = s.entryAt .twoLevel e >>> 10 := by
  apply BitVec.eq_of_getLsbD_eq
  intro k hk
  rw [BitVec.getLsbD_and, show (0x3FFFFF : Word) = BitVec.ofNat 64 (2 ^ 22 - 1) from rfl, getLsbD_mask 22 hk,
    BitVec.getLsbD_ushiftRight]
  by_cases low : k < 22
  · simp [low]
  · have high : (s.entryAt .twoLevel e).getLsbD (10 + k) = false := by
      by_cases hin : 10 + k < 64
      · rw [State.entryAt, getLsbD_leWord _ hin, List.getD_eq_default]
        · simp
        · simp only [List.length_map, List.length_range, Paging.pteSize]; omega
      · exact BitVec.getLsbD_of_ge _ _ (by omega)
    simp [low, high]

/-- A 4 MiB page (R191). -/
theorem leafAddr_twoLevel_top (pte a : Word) :
    Paging.twoLevel.leafAddr 1 pte a = (pte >>> 20 &&& 0xFFF) <<< 22 ||| a &&& 0x3FFFFF := by
  obtain ⟨-, h, -⟩ := leafAddressesAreReconstructed pte a
  rw [h, BitVec.or_assoc]
  exact congrArg _ (field_or_low a 12 10)

/-- A 2 MiB page (R191). -/
theorem leafAddr_threeLevel_middle (pte a : Word) : Paging.threeLevel.leafAddr 1 pte a =
    (pte >>> 28 &&& 0x3FFFFFF) <<< 30 ||| (pte >>> 19 &&& 0x1FF) <<< 21 ||| a &&& 0x1FFFFF := by
  obtain ⟨-, -, -, h, -⟩ := leafAddressesAreReconstructed pte a
  rw [h, BitVec.or_assoc]
  exact congrArg _ (field_or_low a 12 9)

/-- A 1 GiB page (R191). -/
theorem leafAddr_threeLevel_top (pte a : Word) :
    Paging.threeLevel.leafAddr 2 pte a = (pte >>> 28 &&& 0x3FFFFFF) <<< 30 ||| a &&& 0x3FFFFFFF := by
  obtain ⟨-, -, -, -, h⟩ := leafAddressesAreReconstructed pte a
  have below : (a >>> 12 &&& 0x1FF) <<< 12 ||| a &&& 0xFFF = a &&& 0x1FFFFF := field_or_low a 12 9
  rw [h, BitVec.or_assoc, below, BitVec.or_assoc]
  exact congrArg _ (field_or_low a 21 9)

/-! Translations that end at a leaf -/

/-- Settles O36: the pointers by `endsAtLeaf_pointer`, the leaf by `endsAtLeaf_here`, its address by the formulas of R191. -/
theorem pagesReachedThroughPointersTranslate : Obligations.PagesReachedThroughPointersTranslate := by
  refine ⟨?twoLevel, ?threeLevel, ?middle⟩
  case twoLevel =>
    intro s va kind ptr leaf e1 e0 _ hm hs hpriv cold he1 hw1 hptr hvp he0 hw0 hleaf hvl
    have hp : s.scheme.paging = some .twoLevel := by rw [hs]; rfl
    have miss := cold _ hp
    obtain ⟨t, hwalk, used⟩ := endsAtLeaf_pointer (miss 1) he1 hw1 hptr hvp
      (endsAtLeaf_here (s := s.addLat s.cfg.latPteRead) hm (miss 0) he0 hw0 hleaf hvl)
    refine ⟨t, ?_, used.bytes, used.cached, used.lat, used.caches, used.control⟩
    obtain ⟨haddr, -⟩ := leafAddressesAreReconstructed leaf (effective s.xlen va)
    have hppn : leaf >>> 10 &&& (0x3FFFFF : Word) = leaf >>> 10 := hleaf ▸ entryAt_twoLevel_ppn s e0
    rw [translate_walk hp (.inl hpriv)]
    refine hwalk.trans ?_
    rw [haddr, hppn]
    rfl
  case threeLevel =>
    intro s va kind ptr2 ptr1 leaf e2 e1 e0 _ hm hs hpriv cold he2 hw2 hptr2 hvp2 he1 hw1 hptr1 hvp1 he0 hw0 hleaf hvl
    have hp : s.scheme.paging = some .threeLevel := by rw [hs]; rfl
    have miss := cold _ hp
    obtain ⟨t, hwalk, used⟩ := endsAtLeaf_pointer (miss 2) he2 hw2 hptr2 hvp2
      (endsAtLeaf_pointer (s := s.addLat s.cfg.latPteRead) (miss 1) he1 hw1 hptr1 hvp1
        (endsAtLeaf_here (s := (s.addLat s.cfg.latPteRead).addLat s.cfg.latPteRead) hm (miss 0) he0 hw0 hleaf hvl))
    refine ⟨t, ?_, used.bytes, used.cached, used.lat, used.caches, used.control⟩
    obtain ⟨-, -, haddr, -⟩ := leafAddressesAreReconstructed leaf (effective s.xlen va)
    rw [translate_walk hp (.inl hpriv)]
    refine hwalk.trans ?_
    rw [haddr]
    rfl
  case middle =>
    intro s va kind ptr leaf e2 e1 _ hm hs hpriv cold he2 hw2 hptr hvp he1 hw1 hleaf hvl
    have hp : s.scheme.paging = some .threeLevel := by rw [hs]; rfl
    have miss := cold _ hp
    obtain ⟨t, hwalk, used⟩ := endsAtLeaf_pointer (miss 2) he2 hw2 hptr hvp
      (endsAtLeaf_here (s := s.addLat s.cfg.latPteRead) hm (miss 1) he1 hw1 hleaf hvl)
    have translated := (translate_walk hp (.inl hpriv) va).trans hwalk
    rw [leafAddr_threeLevel_middle] at translated
    refine ⟨t, fun h => ?_, fun h => ?_, used.bytes, used.cached, used.lat, used.caches, used.control⟩
    · simpa [misaligned, h] using translated
    · have hmis : misaligned .threeLevel 1 leaf = true := by simpa [misaligned] using h
      rwa [if_pos hmis] at translated

/-- A 1 GiB page is aligned when both lower page-number fields are zero (R190). -/
theorem extractLsb'_eighteen_eq_zero_iff (pte : Word) :
    pte.extractLsb' 10 18 = 0 ↔ pte.extractLsb' 19 9 = 0 ∧ pte.extractLsb' 10 9 = 0 := by
  simp only [← BitVec.toNat_inj, BitVec.extractLsb'_toNat, Nat.shiftRight_eq_div_pow, BitVec.ofNat_eq_ofNat, BitVec.toNat_ofNat]
  omega

/-- Settles O37: the leaf by `endsAtLeaf_here`, its address and its alignment by the scheme. -/
theorem superpageTranslatesOrIsMisaligned : Obligations.SuperpageTranslatesOrIsMisaligned := by
  intro s va kind p leaf e _ hm hp hpriv cold he hw hleaf hvl
  obtain ⟨t, hwalk, used⟩ := endsAtLeaf_here hm (cold p hp p.top) he hw hleaf hvl
  have translated := (translate_walk hp (.inl hpriv) va).trans hwalk
  refine ⟨t, ?_, ?_, ?_, ?_, used.bytes, used.cached, used.caches, used.control⟩ <;> rintro rfl h
  · simpa [misaligned, Paging.top, h, leafAddr_twoLevel_top] using translated
  · obtain ⟨hhigh, hlow⟩ := (extractLsb'_eighteen_eq_zero_iff leaf).1 h
    simpa [misaligned, Paging.top, hhigh, hlow, leafAddr_threeLevel_top] using translated
  · have hmis : misaligned .twoLevel Paging.twoLevel.top leaf = true := by simpa [misaligned, Paging.top] using h
    rwa [if_pos hmis] at translated
  · rw [Ne, extractLsb'_eighteen_eq_zero_iff, not_and_or] at h
    have hmis : misaligned .threeLevel Paging.threeLevel.top leaf = true := by simpa [misaligned, Paging.top] using h
    rwa [if_pos hmis] at translated

end Sys2Proof.Machine
end

section
/-! Translating a page again (R169, R172): what a walk left in the TLB answers, whatever memory holds; the pointers above it
are read again, unchanged. -/

namespace Sys2Proof.Machine

variable {s t v : State} {p : Paging} {kind : AccessKind} {level : Nat} {parent : BitVec 44} {a e pa : Addr} {pte leaf : Word}

/-! A rejected entry -/

/-- After a walk step cached an entry, the same step holds it again, whatever memory holds (R169). -/
theorem fetchPte_again (hmiss : tlbLookup s (tlbTag s.cfg.tagMode level (p.key a)) = none)
    (htlb : v.tlb = (tlbInsert (tlbTag s.cfg.tagMode level (p.key a)) pte s).tlb) (hcfg : v.cfg = s.cfg) :
    ∃ u, fetchPte p level parent a v = .ok pte u ∧ u.cfg = v.cfg := by
  obtain ⟨i, hlookup, hentry⟩ := tlbLookup_tlbInsert_same hmiss pte
  rw [← tlbLookup_congr htlb, ← hcfg] at hlookup
  refine ⟨(v.markTlb i).addLat v.cfg.latTlbHit, ?_, rfl⟩
  rw [fetchPte_hit hlookup, tlbEntry_congr htlb, hentry]

theorem SameControl.cfg_eq (h : SameControl s t) : t.cfg = s.cfg := h.1

/-- Settles O42: the root entry is cached before it is rejected, and a hit rejects it again, `fetchPte_again`. -/
theorem faultingLeafLookingEntryStaysCached : Obligations.FaultingLeafLookingEntryStaysCached := by
  intro s va kind p e hp hpriv cold he hw hleaf hrej
  have hmiss := cold p hp p.top
  have fetched := fetchPte_cached hmiss he hw rfl hleaf
  refine ⟨_, by rw [translate_walk hp (.inl hpriv), walk_rejected fetched hrej], fun kind' bs draws count => ?_⟩
  generalize ht : tlbInsert (tlbTag s.cfg.tagMode p.top (p.key (effective s.xlen va))) (s.entryAt p e)
    (s.addLat s.cfg.latPteRead) = t
  have control : SameControl s { t with bs := bs, draws := draws, drawCount := count } := by
    rw [← ht, tlbInsert_frame]; exact .refl s
  have htlb := congrArg State.tlb ht.symm
  obtain ⟨u, again, -⟩ := fetchPte_again (s := s.addLat s.cfg.latPteRead) (parent := s.rootPpn)
    (v := { t with bs := bs, draws := draws, drawCount := count }) hmiss htlb control.cfg_eq
  exact ⟨u, (translate_sameControl control hp (.inl hpriv) va).trans (walk_rejected again hrej)⟩

/-! Memory after the rewrite of a leaf -/

theorem entryAt_congr (h : t.bs = s.bs) (p : Paging) (e : Addr) : t.entryAt p e = s.entryAt p e := by
  simp only [State.entryAt, State.bsByte, h]

theorem entryAt_addLat (s : State) (n : Nat) (p : Paging) (e : Addr) : (s.addLat n).entryAt p e = s.entryAt p e := rfl

theorem Memory.read_writeBytes_other (m : List Host.Cell) (addr : Addr) (bs : List Byte) {x : Addr}
    (h : ∀ k < bs.length, addr + BitVec.ofNat 64 k ≠ x) :
    Memory.read (Memory.writeBytes m addr bs) x.toNat = Memory.read m x.toNat := by
  induction bs generalizing m addr with
  | nil => rfl
  | cons b bs ih =>
    have hfirst : addr.toNat ≠ x.toNat := fun hx => h 0 (by simp) (by simpa using BitVec.eq_of_toNat_eq hx)
    rw [Memory.writeBytes, ih _ _ fun k hk => by rw [add_one_add]; exact h (k + 1) (by simpa using hk),
      Memory.read_write_other m hfirst]

/-- Two entries are the same or have no byte in common (R165). -/
theorem pteAddr_add_ne {l : Nat} {parent' : BitVec 44} {a' : Addr} {j k : Nat} (hj : j < p.pteSize) (hk : k < p.pteSize)
    (h : p.pteAddr l parent' a' ≠ p.pteAddr level parent a) :
    p.pteAddr l parent' a' + BitVec.ofNat 64 j ≠ p.pteAddr level parent a + BitVec.ofNat 64 k := by
  have hne := mt BitVec.eq_of_toNat_eq h
  have fits := pteAddr_add_pteSize_le p level parent a
  have fits' := pteAddr_add_pteSize_le p l parent' a'
  have aligned := pteAddr_mod_pteSize p level parent a
  have aligned' := pteAddr_mod_pteSize p l parent' a'
  intro same
  have hsum := congrArg BitVec.toNat same
  simp only [BitVec.toNat_add, BitVec.toNat_ofNat] at hsum
  cases p <;> simp only [Paging.pteSize] at * <;> omega

/-- The rewrite of one entry leaves every other entry as it is. -/
theorem rewritten_entryAt {l : Nat} {parent' : BitVec 44} {a' : Addr}
    (h : p.pteAddr l parent' a' ≠ p.pteAddr level parent a) :
    (rewritten p kind (p.pteAddr l parent' a') leaf s).entryAt p (p.pteAddr level parent a) =
      s.entryAt p (p.pteAddr level parent a) := by
  rw [State.entryAt, State.entryAt]
  refine congrArg leWord (List.map_congr_left fun k hk => ?_)
  rw [rewritten]
  split
  · exact Memory.read_writeBytes_other _ _ _ fun j hj =>
      pteAddr_add_ne (by rwa [bytesOf_length] at hj) (List.mem_range.1 hk) h
  · rfl

/-! A walk from a cold TLB, inverted -/

/-- No entry of the TLB is found for a page at any level of the walk (R168). -/
def ColdWalk (s : State) (p : Paging) (a : Addr) : Prop := ∀ level, tlbLookup s (tlbTag s.cfg.tagMode level (p.key a)) = none

/-- What a walk that returned met at its first level: a permitted leaf, or a valid pointer to the levels below (R185, R186). -/
theorem walk_ok_cases (cold : ColdWalk s p a) (he : e = p.pteAddr level parent a)
    (h : walk p kind a level parent s = .ok pa t) : EntryInWindow s p e ∧
      ((isPointer (s.entryAt p e) = false ∧ rejectedEntry (s.entryAt p e) = false ∧
          useLeaf p kind level e a (s.entryAt p e)
            (tlbInsert (tlbTag s.cfg.tagMode level (p.key a)) (s.entryAt p e) (s.addLat s.cfg.latPteRead)) = .ok pa t) ∨
        (ValidPointer (s.entryAt p e) ∧
          ∃ l, level = l + 1 ∧ walk p kind a l (p.ppn (s.entryAt p e)) (s.addLat s.cfg.latPteRead) = .ok pa t)) := by
  subst he
  by_cases hw : EntryInWindow s p (p.pteAddr level parent a)
  · refine ⟨hw, ?_⟩
    have fetched := fetchPte_read (cold level) hw
    cases hr : rejectedEntry (s.entryAt p (p.pteAddr level parent a)) with
    | true => rw [walk_rejected fetched hr] at h; cases h
    | false =>
      cases hp : isPointer (s.entryAt p (p.pteAddr level parent a)) with
      | false =>
        rw [if_pos (looksLikeLeaf_of_not_pointer hp)] at fetched
        exact .inl ⟨rfl, rfl, by rwa [walk_leaf fetched hr hp] at h⟩
      | true =>
        obtain ⟨hR, hX⟩ := isPointer_iff.1 hp
        have valid : ValidPointer (s.entryAt p (p.pteAddr level parent a)) := by
          simpa [ValidPointer, rejectedEntry, hR, hX] using hr
        rw [valid.notLeafLooking] at fetched
        rw [walk_descends fetched hr hp] at h
        cases level with
        | zero => cases h
        | succ l => exact .inr ⟨valid, l, rfl, h⟩
  · rw [walk_eq_walkStep, walkStep, fetchPte_refused (cold level) hw] at h
    cases h

/-- A leaf that was used left its rewrite, and is used alike wherever the window is the same (R188 to R191). -/
theorem useLeaf_ok (h : useLeaf p kind level e a leaf s = .ok pa t) :
    t = rewritten p kind e leaf s ∧ ∀ v : State, v.cfg = s.cfg → ∃ u, useLeaf p kind level e a leaf v = .ok pa u := by
  by_cases window : RewriteInWindow s p kind e leaf
  · rw [useLeaf_checked window] at h
    split at h
    · next checked =>
      cases h
      refine ⟨rfl, fun v hv => ⟨rewritten p kind e leaf v, ?_⟩⟩
      have window' : RewriteInWindow v p kind e leaf := by rwa [RewriteInWindow, EntryInWindow, hv]
      rw [useLeaf_checked window', if_pos checked]
    · cases h
  · rw [useLeaf_refused window] at h
    cases h

/-- What a walk that returned changed of the TLB and of memory: one leaf, at its level or below, was inserted and
rewritten (R171, R188). -/
theorem walk_ok_leaves (cold : ColdWalk s p a) (h : walk p kind a level parent s = .ok pa t) :
    ∃ l ≤ level, ∃ parent' leaf u, leaf = s.entryAt p (p.pteAddr l parent' a) ∧ isPointer leaf = false ∧
      u.tlb = s.tlb ∧ u.bs = s.bs ∧
      t = rewritten p kind (p.pteAddr l parent' a) leaf (tlbInsert (tlbTag s.cfg.tagMode l (p.key a)) leaf u) := by
  induction level using Nat.strongRecOn generalizing parent s with
  | ind level ih =>
    obtain ⟨-, ⟨hp, -, hleaf⟩ | ⟨-, l, rfl, hbelow⟩⟩ := walk_ok_cases cold rfl h
    · exact ⟨level, le_rfl, parent, _, s.addLat s.cfg.latPteRead, rfl, hp, rfl, rfl, (useLeaf_ok hleaf).1⟩
    · obtain ⟨m, hm, rest⟩ := ih l l.lt_succ_self (s := s.addLat s.cfg.latPteRead) cold hbelow
      exact ⟨m, Nat.le_succ_of_le hm, rest⟩

/-- A walk that went below a pointer left the pointer uncached and unchanged (R170, R188). -/
theorem walk_ok_pointer_kept (hmode : s.cfg.tagMode = .levelQualified) (hl : level < 3) (cold : ColdWalk s p a)
    {n : BitVec 44} (h : walk p kind a level n s = .ok pa t) (he : e = p.pteAddr (level + 1) parent a)
    (hv : ValidPointer (s.entryAt p e)) :
    tlbLookup t (tlbTag s.cfg.tagMode (level + 1) (p.key a)) = none ∧ t.entryAt p e = s.entryAt p e := by
  obtain ⟨l, hle, parent', leaf, u, hleaf, hp, htlb, hbs, rfl⟩ := walk_ok_leaves cold h
  constructor
  · rw [tlbLookup_congr (rewritten_tlb ..), hmode]
    refine tlbLookup_tlbInsert_other ?_ (tlbTag_levelQualified_ne (by omega) (by omega) (by omega) _ _) leaf
    rw [tlbLookup_congr htlb, ← hmode]
    exact cold (level + 1)
  · subst he
    have hne : p.pteAddr l parent' a ≠ p.pteAddr (level + 1) parent a := fun same => by
      obtain ⟨-, hR, -, hX⟩ := hv
      rw [← same, ← hleaf] at hR hX
      simp [isPointer, hR, hX] at hp
    rw [rewritten_entryAt hne]
    exact entryAt_congr (by rw [tlbInsert_bs, hbs]) p _

/-- A walk that returned from a cold TLB returns the same again from the TLB and the memory it left (R172). -/
theorem walk_again (hmode : s.cfg.tagMode = .levelQualified) (hl : level < 4) (cold : ColdWalk s p a)
    (h : walk p kind a level parent s = .ok pa t) (hcfg : v.cfg = s.cfg) (htlb : v.tlb = t.tlb) (hbs : v.bs = t.bs) :
    ∃ u, walk p kind a level parent v = .ok pa u := by
  induction level using Nat.strongRecOn generalizing parent s v with
  | ind level ih =>
    obtain ⟨hw, ⟨hp, hr, hleaf⟩ | ⟨hv, l, rfl, hbelow⟩⟩ := walk_ok_cases cold rfl h
    · obtain ⟨rfl, useAgain⟩ := useLeaf_ok hleaf
      rw [rewritten_tlb] at htlb
      obtain ⟨u, fetched, hu⟩ := fetchPte_again (s := s.addLat s.cfg.latPteRead) (parent := parent) (cold level) htlb hcfg
      rw [walk_leaf fetched hr hp]
      exact useAgain u (by rw [hu, hcfg, tlbInsert_cfg, State.addLat_cfg])
    · obtain ⟨hmiss, hkept⟩ := walk_ok_pointer_kept (s := s.addLat s.cfg.latPteRead) hmode (by omega) cold hbelow rfl hv
      rw [← tlbLookup_congr htlb, State.addLat_cfg, ← hcfg] at hmiss
      rw [← entryAt_congr hbs, entryAt_addLat] at hkept
      rw [walk_pointer hmiss (by rwa [EntryInWindow, hcfg]) (by rwa [hkept]), hkept]
      exact ih l l.lt_succ_self hmode (by omega) (s := s.addLat s.cfg.latPteRead) cold hbelow hcfg htlb hbs

/-- Settles O41: a bypassed translation reads nothing; a walk by `walk_again`. -/
theorem translatingTwiceGivesTheSameAddress : Obligations.TranslatingTwiceGivesTheSameAddress := by
  intro s t va pa kind draws count hmode cold h
  have walked : Walked s t := by
    have := translate_leaves va kind s
    rwa [h] at this
  have control : SameControl s { t with draws := draws, drawCount := count } := walked.sameControl
  obtain hb | hr | ⟨p, hp, ht⟩ := translate_cases s va kind
  · rw [translate_bypassed hb] at h
    cases h
    exact ⟨_, translate_bypassed (s := { s with draws := draws, drawCount := count }) hb va⟩
  · rw [hr] at h
    cases h
  · rw [translate_walk hp ht] at h
    have top : p.top < 4 := by cases p <;> decide
    obtain ⟨u, hu⟩ := walk_again hmode top (cold p hp) h control.cfg_eq rfl rfl
    exact ⟨u, (translate_sameControl control hp ht va).trans hu⟩

end Sys2Proof.Machine
end

section
/-! The write-backs of a line of either level (R217, R218), whatever state they are made in. -/

namespace Sys2Proof.Machine

variable {s : State}

/-- An L1 write-back into the L2 line that holds the block (R217). -/
theorem writeBack1_found {line : L1Line} {i : Fin 64} {x : Fin 8} (o : lookup2 s (l1BlockAddr i line.tag) = some x) :
    writeBack1 line i s = .ok () (s.setLine2 (l2Index (l1BlockAddr i line.tag)) x
      { s.line2 (l2Index (l1BlockAddr i line.tag)) x with data := line.data, incl := false }) := by
  simp only [writeBack1, o]

/-- An L1 write-back without an owner fails (R217, R220). -/
theorem writeBack1_orphan {line : L1Line} {i : Fin 64} (o : lookup2 s (l1BlockAddr i line.tag) = none) :
    writeBack1 line i s = .raise () s := by
  simp only [writeBack1, o]

/-- Settles O50: the two cases of the owner's lookup. -/
theorem l1WriteBackGoesToTheOwningL2Line : Obligations.L1WriteBackGoesToTheOwningL2Line :=
  fun _ _ _ => ⟨fun _ o => ⟨_, writeBack1_found o, rfl, line2_setLine2_same .., fun j y other => by
    rw [line2_setLine2, if_neg other]⟩, writeBack1_orphan⟩

/-- An L2 write-back is one block write and one trace entry (R126, R218). -/
theorem writeBack2_inWindow (hc : s.cfg.wf) {line : L2Line} {j : Fin 256} (hv : bsValid s.cfg (l2BlockAddr j line.tag) = true) :
    writeBack2 line j s = .ok () ((s.setBs (Memory.writeBytes s.bs (l2BlockAddr j line.tag) (blockGet line.data 0 64))).appendTrace
      (l2BlockAddr j line.tag) .write) := by
  have written := bsWriteBlock_ok (ε := Unit) hc hv line.data
  rw [blockOf_l2BlockAddr] at written
  simp only [writeBack2, written, Run.bind_ok]

/-- Settles O51: `writeBack2_inWindow`, and `read_writeBlock` for the bytes it leaves. -/
theorem l2WriteBackGoesToTheBackingStore : Obligations.L2WriteBackGoesToTheBackingStore := by
  intro s line j hc hm hv
  have bytes := read_writeBlock hm (l2BlockAddr j line.tag) line.data
  have canonical := Memory.wf_writeBytes hm (l2BlockAddr j line.tag) (blockGet line.data 0 64)
  have written := writeBack2_inWindow hc hv
  rw [blockOf_l2BlockAddr] at bytes
  generalize Memory.writeBytes s.bs (l2BlockAddr j line.tag) (blockGet line.data 0 64) = m at bytes canonical written
  exact ⟨_, written, rfl, canonical, bytes⟩

end Sys2Proof.Machine
end

section
/-! A `flush` (R146, R219): on a coherent state both halves return; a valid L1 line without an owner stops the first half. -/

namespace Sys2Proof.Machine

variable {s t u : State}

/-- The entries of a set depend on the validity and the tags of its lines alone. -/
theorem rowEntries_of_tags {j : Fin 256}
    (h : ∀ x, (u.line2 j x).valid = (s.line2 j x).valid ∧ (u.line2 j x).tag = (s.line2 j x).tag) (xs : List (Fin 8)) :
    rowEntries s u j xs = rowEntries s s j xs := by
  simp only [rowEntries, State.block2, h]

/-- A coherent state with no valid line caches nothing: an inclusion flag that is set is a valid line's (R44 (b)). -/
theorem Coherent.nothingCached (h : Coherent t) (h1 : ∀ i w, (t.line1 i w).valid = false)
    (h2 : ∀ j x, (t.line2 j x).valid = false) : NothingCached t := by
  refine ⟨h1, fun j x => ⟨h2 j x, ?_⟩⟩
  by_contra set
  obtain ⟨valid, -⟩ := h.inclusion.resident j x (by simpa using set)
  simp [h2] at valid

/-- With nothing cached, `View` is the Backing Store (R71, R76). -/
theorem NothingCached.view_eq (h : NothingCached t) (pa : Addr) : t.view pa = t.bsByte pa :=
  view_bs (fun i w c => by simpa [h.1 i w] using c.1) fun j x c => by simpa [(h.2 j x).1] using c.1

/-- What a flush of a coherent state leaves (R146, R219). -/
theorem flushBoth_ok (h : Coherent s) :
    ∃ t, flushBoth s = .ok () t ∧ L1Empty s t ∧ NothingCached t ∧ t.trace = s.trace ++ flushEntries s := by
  obtain ⟨u, flushed1, keeps, empty1, frame, tags⟩ := flushAll1_ok h
  obtain ⟨t, flushed2, empty, empty2, trace⟩ := flushAll2_ok (s := s) (u := u) ⟨keeps, empty1, by rw [frame]⟩
  refine ⟨t, by rw [flushBoth, flushed1, Run.bind_ok, flushed2], empty, empty.keeps.coherent.nothingCached empty.empty empty2, ?_⟩
  simp only [trace, rowEntries_of_tags (tags _)]
  rw [frame]
  rfl

/-- Settles O12: `flushBoth_ok`, answered; with nothing cached `View` is the Backing Store. -/
theorem flushWritesBackAndInvalidatesEverything : Obligations.FlushWritesBackAndInvalidatesEverything := by
  intro s h
  obtain ⟨t, flushed, ⟨keeps, -, frame⟩, nothing, trace⟩ := flushBoth_ok h
  refine ⟨t.respond .done, by rw [exec, execFlush, flushed], rfl, keeps.coherent.respond _, nothing,
    fun x => (nothing.view_eq x).symm.trans (keeps.view x), keeps.view, trace, keeps.outside, ?_⟩
  rw [frame]
  exact ⟨rfl, rfl, rfl, rfl, rfl, rfl, rfl⟩

/-- A procedure fails. -/
def Run.Raises {ε α : Type} (x : Run ε α) : Prop := ∃ e t, x = .raise e t

/-- `forEach` fails, or it returns with a property every run keeps, and each element allowed its run to return. -/
theorem Run.forEach_raises_or {ε α : Type} {P : State → Prop} {Q : α → Prop} {f : α → State → Run ε Unit}
    (hf : ∀ a s, P s → (f a s).Raises ∨ Q a ∧ ∃ t, f a s = .ok () t ∧ P t) (as : List α) (hs : P s) :
    (Run.forEach f as s).Raises ∨ (∀ a ∈ as, Q a) ∧ ∃ t, Run.forEach f as s = .ok () t ∧ P t := by
  induction as generalizing s with
  | nil => exact .inr ⟨by simp, s, rfl, hs⟩
  | cons a as ih =>
    rw [Run.forEach_cons]
    obtain ⟨e, t, raised⟩ | ⟨ha, t, returned, ht⟩ := hf a s hs
    · exact .inl ⟨e, t, by rw [raised, Run.bind_raise]⟩
    · rw [returned, Run.bind_ok, List.forall_mem_cons]
      exact (ih ht).imp_right fun ⟨hrest, done⟩ => ⟨⟨ha, hrest⟩, done⟩

/-- `L1[i][w]` is valid, and no valid L2 line holds its block (R219, U13). -/
structure Orphan (i : Fin 64) (w : Fin 8) (s : State) : Prop where
  valid : (s.line1 i w).valid = true
  unowned : lookup2 s (s.block1 i w) = none

/-- Whether an L1 line has an owner depends on the line and on the validity and the tags of L2 (R141). -/
theorem Orphan.of_tags {i : Fin 64} {w : Fin 8} (h : Orphan i w s) (h1 : t.line1 i w = s.line1 i w)
    (h2 : ∀ j y, (t.line2 j y).valid = (s.line2 j y).valid ∧ (t.line2 j y).tag = (s.line2 j y).tag) : Orphan i w t :=
  ⟨by rw [h1]; exact h.valid, by rw [State.block1, h1]; exact (lookup2_of_tags h2 _).trans h.unowned⟩

/-- One line of `FlushAll(L1)` fails at a line without an owner, and leaves it without one at every other (R146, R217). -/
theorem flushLine1_orphan {i : Fin 64} {w : Fin 8} (h : Orphan i w s) (i' : Fin 64) (w' : Fin 8) :
    (flushLine1 i' w' s).Raises ∨ ¬(i' = i ∧ w' = w) ∧ ∃ t, flushLine1 i' w' s = .ok () t ∧ Orphan i w t := by
  rw [flushLine1]
  split
  · next hv =>
    have l2 : (s.invalidate1 i' w').l2 = s.l2 := rfl
    cases o : lookup2 s (s.block1 i' w') with
    | none => exact .inl ⟨(), _, writeBack1_orphan ((lookup2_congr l2 _).trans o)⟩
    | some x =>
      have other : ¬(i' = i ∧ w' = w) := by
        rintro ⟨rfl, rfl⟩
        rw [h.unowned] at o
        cases o
      refine .inr ⟨other, _, writeBack1_found ((lookup2_congr l2 _).trans o), h.of_tags ?_ fun j y => ?_⟩
      · rw [line1_setLine2, State.invalidate1, line1_setLine1, if_neg fun c => other ⟨c.1.symm, c.2.symm⟩]
      · rw [line2_setLine2]
        split
        · next c => rw [c.1, c.2]; exact ⟨rfl, rfl⟩
        · exact ⟨rfl, rfl⟩
  · next hv => exact .inr ⟨by rintro ⟨rfl, rfl⟩; exact hv h.valid, s, rfl, h⟩

/-- `FlushAll(L1)` visits every line, so it fails (R146, R219). -/
theorem flushAll1_orphan {i : Fin 64} {w : Fin 8} (h : Orphan i w s) : (flushAll1 s).Raises := by
  obtain raised | ⟨returned, -⟩ := Run.forEach_raises_or
    (fun i' u hu => Run.forEach_raises_or (fun w' u hu => flushLine1_orphan hu i' w') allWays hu) (List.finRange 64) h
  · exact raised
  · exact absurd ⟨rfl, rfl⟩ (returned i (List.mem_finRange i) w (mem_allWays w))

/-- Settles O13: `flushAll1_orphan`. -/
theorem flushWithoutOwnerIsRefused : Obligations.FlushWithoutOwnerIsRefused := by
  intro s i w valid unowned
  have orphan : Orphan i w s := ⟨valid, lookup2_none_iff.2 fun j x c => unowned j x c.1 (c.2.trans (blockOf_l1BlockAddr ..))⟩
  obtain ⟨e, t, raised⟩ := flushAll1_orphan orphan
  rw [exec, execFlush, flushBoth, raised, Run.bind_raise]

end Sys2Proof.Machine
end

section
/-! `AcquireLine` on a hit, on a miss whose L1 victim is evicted, and where it fails (R211, R212, R214, R220). -/

namespace Sys2Proof.Machine

variable {s w : State} {pa : Addr} {v : Fin 8}

/-- An L1 hit (R211). -/
theorem acquireLine_hitL1 (a : lookup1 s pa = some v) : acquireLine pa s = .ok v (s.addLat s.cfg.latL1Hit).bumpL1Hit := by
  rw [acquireLine, a]

/-- Settles O47: `acquireLine_hitL1`. -/
theorem l1HitChangesCountAndLatencyOnly : Obligations.L1HitChangesCountAndLatencyOnly :=
  fun _ _ _ a => acquireLine_hitL1 a

/-- The state in which a miss consults L2: the miss counted, the draw taken, the checking latency added, and the lines those of
`w`, in which the victim is evicted (R212). -/
def evictedL1 (s w : State) : State := State.addLat { missedL1 s with l1 := w.l1, l2 := w.l2 } s.cfg.latL1Check

theorem evictedL1_eq (s w : State) : evictedL1 s w =
    { s with l1 := w.l1, l2 := w.l2, l1Miss := s.l1Miss + 1, lat := s.lat + BitVec.ofNat 64 s.cfg.latL1Check,
             draws := s.tookL1Draw.draws, drawCount := s.tookL1Draw.drawCount } := by
  rw [evictedL1, missedL1_eq]; rfl

@[simp] theorem evictedL1_l1 (s w : State) : (evictedL1 s w).l1 = w.l1 := rfl
@[simp] theorem evictedL1_l2 (s w : State) : (evictedL1 s w).l2 = w.l2 := rfl

/-- A miss whose victim is evicted goes on to L2 (R212, R213). -/
theorem acquireLine_evicted (n : lookup1 s pa = none) (hv : victim1 s = v) (e : evict1 (l1Index pa) v s = .ok () w) :
    acquireLine pa s = consultL2 pa v (evictedL1 s w) := by
  subst hv
  rw [acquireLine_miss n, evict1_missed e, Run.bind_ok, evictedL1, missedL1_eq]

/-- The eviction does not change what the L2 lookup finds (R141, R212). -/
theorem lookup2_evictedL1 {i : Fin 64} (e : evict1 i v s = .ok () w) (pb : Addr) :
    lookup2 (evictedL1 s w) pb = lookup2 s pb := by
  rw [lookup2_congr (evictedL1_l2 s w), lookup2_of_tags (evict1_returns e).2]

/-- A miss whose valid victim has no owner fails (R217, R220). -/
theorem acquireLine_orphan (n : lookup1 s pa = none) (hv : (s.line1 (l1Index pa) (victim1 s)).valid = true)
    (o : lookup2 s (s.block1 (l1Index pa) (victim1 s)) = none) : acquireLine pa s = .raise () (missedL1 s) := by
  have sameBlock : (missedL1 s).block1 (l1Index pa) (victim1 s) = s.block1 (l1Index pa) (victim1 s) := by
    rw [State.block1, State.block1, missedL1_line1]
  rw [acquireLine_miss n, evict1_orphan (by rwa [missedL1_line1]) (by rwa [sameBlock, lookup2_congr (missedL1_l2 s)]),
    Run.bind_raise]

/-- A miss of both levels with no eligible L2 way fails (R215, R220). -/
theorem acquireLine_noVictim (n1 : lookup1 s pa = none) (hv : victim1 s = v) (e : evict1 (l1Index pa) v s = .ok () w)
    (n2 : lookup2 s pa = none) (full : ∀ x, (w.line2 (l2Index pa) x).incl = true) :
    acquireLine pa s = .raise () (evictedL1 s w).bumpL2Miss := by
  rw [acquireLine_evicted n1 hv e, consultL2, lookup2_evictedL1 e, n2]
  exact missL2_noVictim (fun x => by rw [line2_congr (evictedL1_l2 s w), full x]) v

/-- A miss that hits L2 in way `x`, by the lines `w` in which the victim is evicted (R212, R214). -/
theorem acquireLine_hitL2 {x : Fin 8} (n : lookup1 s pa = none) (hv : victim1 s = v)
    (e : evict1 (l1Index pa) v s = .ok () w) (a : lookup2 s pa = some x) :
    ∃ t, acquireLine pa s = .ok v t ∧
      (∀ i y, t.line1 i y =
        if i = l1Index pa ∧ y = v then ⟨true, l1Tag pa, (w.line2 (l2Index pa) x).data⟩ else w.line1 i y) ∧
      (∀ j y, t.line2 j y =
        if j = l2Index pa ∧ y = x then { w.line2 (l2Index pa) x with incl := true } else w.line2 j y) ∧
      t = { s with l1 := t.l1, l2 := t.l2, l1Miss := s.l1Miss + 1, l2Hit := s.l2Hit + 1,
                   lat := s.lat + BitVec.ofNat 64 (s.cfg.latL1Check + s.cfg.latL2Hit),
                   draws := s.tookL1Draw.draws, drawCount := s.tookL1Draw.drawCount } := by
  rw [acquireLine_evicted n hv e, consultL2, lookup2_evictedL1 e, a, evictedL1_eq]
  refine ⟨_, rfl, fun i y => ?_, fun j y => ?_, ?_⟩
  · rw [State.setIncl, line1_setLine2, refill1, line1_setLine1]; rfl
  · rw [State.setIncl, line2_setLine2]; rfl
  · rw [BitVec.ofNat_add, ← BitVec.add_assoc]; rfl

/-- The block that an L1 miss is for is not the victim's, so their L2 lines differ. -/
theorem owner_ne_of_miss {x z : Fin 8} (n : lookup1 s pa = none) (hv : (s.line1 (l1Index pa) v).valid = true)
    (a : lookup2 s pa = some x) (o : lookup2 s (s.block1 (l1Index pa) v) = some z) :
    ¬(l2Index pa = l2Index (s.block1 (l1Index pa) v) ∧ x = z) := by
  rintro ⟨hi, rfl⟩
  have held := lookup2_holds o
  rw [← hi] at held
  have sameBlock : s.block1 (l1Index pa) v = blockOf pa := by
    rw [← (lookup2_holds a).2, held.2, State.block1, blockOf_l1BlockAddr]
  exact lookup1_none_iff.1 n _ v ⟨hv, sameBlock⟩

/-- Settles O53: `acquireLine_hitL2` with the victim invalid and with the victim written back. -/
theorem l2HitFillsL1AndBecomesInclusive : Obligations.L2HitFillsL1AndBecomesInclusive := by
  intro s pa v x n hv a
  refine ⟨fun invalid => ?_, ?_⟩
  · obtain ⟨t, acquired, line1, line2, frame⟩ := acquireLine_hitL2 n hv (evict1_invalid invalid) a
    exact ⟨t, acquired, by rw [line1, if_pos ⟨rfl, rfl⟩], by rw [line2, if_pos ⟨rfl, rfl⟩],
      fun i w other => by rw [line1, if_neg other], fun j y other => by rw [line2, if_neg other], frame⟩
  · rintro b z valid rfl o
    have distinct := owner_ne_of_miss n valid a o
    obtain ⟨t, acquired, line1, line2, frame⟩ := acquireLine_hitL2 n hv (evict1_valid valid o) a
    refine ⟨t, acquired, ?_, ?_, ?_, fun i w other => ?_, fun j y other owner => ?_, frame⟩
    · rw [line1, if_pos ⟨rfl, rfl⟩, leftL1_line2, if_neg distinct]
    · rw [line2, if_pos ⟨rfl, rfl⟩, leftL1_line2, if_neg distinct]
    · rw [line2, if_neg fun c => distinct ⟨c.1.symm, c.2.symm⟩, leftL1_line2, if_pos ⟨rfl, rfl⟩]
    · rw [line1, if_neg other, leftL1_line1, if_neg other]
    · rw [line2, if_neg other, leftL1_line2, if_neg owner]

end Sys2Proof.Machine
end

section
/-! A first round trip that fails (R220): the access fault of the command, in one line or across a line or a page (R232 to R235,
R238, R239). -/

namespace Sys2Proof.Machine

variable {s u c : State} {va pa : Addr} {n : Nat}

theorem physRead_failed (e : acquireLine pa u = .raise () c) (hn : 0 < n) : physRead pa n u = .raise () c := by
  have first : ∀ m, readLine pa m u = .raise () c := fun m => by rw [readLine, e, Run.bind_raise]
  rw [physRead]
  split
  · exact first n
  · obtain ⟨m, rfl⟩ := Nat.exists_eq_add_of_lt hn
    rw [Nat.zero_add, readLineBytes, first, Run.bind_raise]

theorem physWrite_failed {bytes : List Byte} (e : acquireLine pa u = .raise () c) (hn : 0 < bytes.length) :
    physWrite pa bytes u = .raise () c := by
  have first : ∀ bs, writeLine pa bs u = .raise () c := fun bs => by rw [writeLine, e, Run.bind_raise]
  rw [physWrite]
  split
  · exact first bytes
  · obtain ⟨b, bs, rfl⟩ := List.exists_cons_of_length_pos hn
    rw [writeLineBytes, first, Run.bind_raise]

theorem access_phase_failed {α : Type} {kind : AccessKind} {phase : Addr → State → Run Unit α}
    (ht : translate va kind s = .ok pa u) (hp : phase pa u = .raise () c) :
    access va kind phase s = .raise ⟨accessFault kind, va⟩ c := by
  rw [access_translated ht, hp, Run.mapFailure_raise]

/-- A read whose first round trip fails (R232, R234). -/
theorem memRead_phase_failed {kind : AccessKind} (ht : translate va kind s = .ok pa u) (e : acquireLine pa u = .raise () c)
    (hn : 0 < n) : memRead va n kind s = .raise ⟨accessFault kind, va⟩ c := by
  have first : ∀ {m}, 0 < m → access va kind (fun pa s => physRead pa m s) s = .raise ⟨accessFault kind, va⟩ c :=
    fun hm => access_phase_failed ht (physRead_failed e hm)
  rw [memRead]
  split
  · exact first hn
  · obtain ⟨m, rfl⟩ := Nat.exists_eq_add_of_lt hn
    rw [Nat.zero_add, memReadBytes, first Nat.one_pos, Run.bind_raise]

/-- A write whose first round trip fails (R233, R235). -/
theorem memWrite_phase_failed {bytes : List Byte} (ht : translate va .write s = .ok pa u)
    (e : acquireLine pa u = .raise () c) (hn : 0 < bytes.length) :
    memWrite va bytes s = .raise ⟨.storeAccessFault, va⟩ c := by
  have first : ∀ {bs : List Byte}, 0 < bs.length →
      access va .write (fun pa s => physWrite pa bs s) s = .raise ⟨.storeAccessFault, va⟩ c :=
    fun hb => access_phase_failed ht (physWrite_failed e hb)
  rw [memWrite]
  split
  · exact first hn
  · obtain ⟨b, bs, rfl⟩ := List.exists_cons_of_length_pos hn
    rw [memWriteBytes, first (List.length_singleton ▸ Nat.one_pos), Run.bind_raise]

/-- Every command that moves data answers the access fault of a failed first round trip (R220, R232, R233). -/
theorem accessFaults_of_failed (e : acquireLine pa u = .raise () c) (a : Addr) (d : Word) : AccessFaults s u a pa d c := by
  have loaded : ∀ {n kind} (answer : List Byte → Response), translate a kind s = .ok pa u → 0 < n →
      finish answer (memRead a n kind s) = .next { c with response := some ⟨(accessFault kind).status, 0, a, []⟩ } :=
    fun answer ht hn => finish_failed (memRead_phase_failed ht e hn) answer
  have stored : ∀ {n}, translate a .write s = .ok pa u → 0 < n →
      store a n d s = .next { c with response := some ⟨.storeAccessFault, 0, a, []⟩ } :=
    fun ht hn => finish_failed (memWrite_phase_failed ht e (by rwa [bytesOf_length])) _
  constructor
  case loads =>
    simp only [List.forall_mem_cons]
    exact fun ht => ⟨loaded _ ht (by decide), loaded _ ht (by decide), loaded _ ht (by decide), loaded _ ht (by decide), by simp⟩
  case fetchW => exact fun ht => loaded _ ht (by decide)
  case fetchBlk =>
    intro ht len hlen
    rw [exec_fetchBlk hlen]
    exact loaded _ ht (by bv_omega)
  case stores =>
    simp only [List.forall_mem_cons]
    exact fun ht => ⟨stored ht (by decide), stored ht (by decide), stored ht (by decide), stored ht (by decide), by simp⟩

/-- Settles O27: `accessFaults_of_failed` at the two failures, `acquireLine_orphan` and `acquireLine_noVictim`. -/
theorem inconsistentCachesGiveAnAccessFault : Obligations.InconsistentCachesGiveAnAccessFault := by
  rintro s u a pa d v n rfl
  refine ⟨fun valid orphan => ?_, fun w evicted n2 full => ?_⟩
  · have failed := acquireLine_orphan n valid orphan
    rw [missedL1_eq] at failed
    exact accessFaults_of_failed failed a d
  · have failed := acquireLine_noVictim n rfl evicted n2 full
    rw [evictedL1_eq] at failed
    exact accessFaults_of_failed failed a d

end Sys2Proof.Machine
end

section
/-! `AcquireLine` on a miss of both levels (R212, R215): the L1 victim into its owner, the L2 victim into the Backing Store, then
the block into both levels. -/

namespace Sys2Proof.Machine

variable {s m t w : State} {pa : Addr} {v u : Fin 8}

/-- The L2 lines once an L1 way is evicted: the owner of a valid victim takes its data and becomes evictable (R212, R217). -/
theorem evict1_line2 (h : Inclusion s) {i : Fin 64} (e : evict1 i v s = .ok () w) (j : Fin 256) (y : Fin 8) :
    w.line2 j y = if (s.line1 i v).valid = true ∧ (s.line2 j y).valid = true ∧ s.block2 j y = s.block1 i v then
      { s.line2 j y with data := (s.line1 i v).data, incl := false } else s.line2 j y := by
  cases hv : (s.line1 i v).valid with
  | false =>
    rw [evict1_invalid hv] at e
    cases e
    simp
  | true =>
    obtain ⟨k, z, valid, block, -, o, hk⟩ := writeBack1_owned h hv
    rw [evict1_valid hv o] at e
    cases e
    rw [leftL1_line2, hk]
    by_cases owner : j = k ∧ y = z
    · obtain ⟨rfl, rfl⟩ := owner
      rw [if_pos ⟨rfl, rfl⟩, if_pos ⟨rfl, valid, block⟩]
    · rw [if_neg owner, if_neg fun c => owner (h.distinct2 _ _ _ _ c.2.1 valid (c.2.2.trans block.symm))]

/-- The state that consults L2 keeps everything, and the victim's way is invalid in it (R212). -/
theorem evictedL1_keeps (h : Coherent s) {i : Fin 64} (e : evict1 i v s = .ok () w) :
    Keeps s (evictedL1 s w) ∧ ((evictedL1 s w).line1 i v).valid = false := by
  obtain ⟨t, evicted, keeps, invalid, -, frame⟩ := evict1_ok h i v
  cases e.symm.trans evicted
  have same : Keeps w (evictedL1 s w) := by
    refine .of_same keeps.coherent rfl rfl ?_ ?_ ?_
    · rw [evictedL1_eq, frame]
    · rw [evictedL1_eq, frame]
      exact .refl s
    · rw [evictedL1_eq, frame]
  exact ⟨keeps.trans same, by rw [line1_congr (evictedL1_l1 s w), invalid]⟩

/-- What the eviction of an L2 way with its inclusion flag clear does: if the line is valid, the Backing Store takes `View` at its
block, with one Write entry and one miss latency (R215, R218). -/
structure Evicts2 (m t : State) (j : Fin 256) (u : Fin 8) : Prop where
  bytes : ∀ x, t.bsByte x = if (m.line2 j u).valid = true ∧ blockOf x = m.block2 j u then m.view x else m.bsByte x
  trace : t.trace = m.trace ++ if (m.line2 j u).valid = true then [⟨m.block2 j u, .write, m.now⟩] else []
  lat : t.lat = m.lat + BitVec.ofNat 64 (if (m.line2 j u).valid = true then m.cfg.latL2Miss else 0)
  frame : t = { m with bs := t.bs, trace := t.trace, lat := t.lat }

theorem evict2_evicts (h : Coherent m) {j : Fin 256} (hi : (m.line2 j u).incl = false) :
    ∃ t, evict2 j u m = .ok () t ∧ Evicts2 m t j u := by
  cases hv : (m.line2 j u).valid with
  | false => exact ⟨m, evict2_invalid hv, by simp [hv], by simp [hv], by simp [hv], rfl⟩
  | true =>
    refine ⟨_, evict2_valid h.config h.window hv, fun x => ?_, by rw [if_pos hv]; rfl, by rw [if_pos hv]; rfl, rfl⟩
    rw [bsByte_addLat, wroteL2_bsByte h]
    by_cases hx : blockOf x = m.block2 j u
    · have held : Holds2 m x j u := ⟨hv, hx.symm⟩
      rw [if_pos hx, if_pos ⟨hv, hx⟩, h.inclusion.view2 (h.inclusion.not_holds1_of_incl held hi) held]
    · rw [if_neg hx, if_neg fun c => hx c.2]

/-- The miss counted and the draw taken (R215). -/
def missedL2 (m : State) : State := m.bumpL2Miss.tookL2Draw

theorem missedL2_eq (m : State) : missedL2 m =
    { m with l2Miss := m.l2Miss + 1, draws := (missedL2 m).draws, drawCount := (missedL2 m).drawCount } := by
  rw [missedL2, tookL2Draw_eq]; rfl

theorem missedL2_keeps (h : Coherent m) : Keeps m (missedL2 m) :=
  have counted : Keeps m m.bumpL2Miss := .of_same h rfl rfl rfl (by simp [SameTranslation, SameControl, SameInputs]) rfl
  counted.trans (tookL2Draw_keeps counted.coherent)

/-- An L2 miss with a victim evicts it and fills both levels from the Backing Store (R215). -/
theorem missL2_evicts (h : Coherent m) (hu : victim2 m (l2Index pa) = some u) (v : Fin 8) :
    ∃ q, missL2 pa v m = fillFromBs pa v u q ∧ Evicts2 (missedL2 m) q (l2Index pa) u := by
  have drawn : victim2 m.bumpL2Miss (l2Index pa) = some u := hu
  have eligible : ((missedL2 m).line2 (l2Index pa) u).incl = false := by
    rw [missedL2, line2_congr (tookL2Draw_lines m.bumpL2Miss).2]
    exact victim2_some drawn
  obtain ⟨q, evicted, evicts⟩ := evict2_evicts (missedL2_keeps h).coherent eligible
  rw [missedL2] at evicted
  exact ⟨q, by simp only [missL2, drawn, evicted, Run.bind_ok], evicts⟩

theorem missedL2_evictedL1_eq (s w : State) : missedL2 (evictedL1 s w) =
    { s with l1 := w.l1, l2 := w.l2, l1Miss := s.l1Miss + 1, l2Miss := s.l2Miss + 1,
             lat := s.lat + BitVec.ofNat 64 s.cfg.latL1Check, draws := (missedL2 (evictedL1 s w)).draws,
             drawCount := (missedL2 (evictedL1 s w)).drawCount } := by
  have counted := missedL2_eq (evictedL1 s w)
  generalize missedL2 (evictedL1 s w) = m at counted ⊢
  rwa [evictedL1_eq] at counted

/-- A miss of both levels up to the block read, by the lines `w` in which the L1 victim is evicted (R212, R215). -/
theorem acquireLine_missBoth (h : Coherent s) (n1 : lookup1 s pa = none) (n2 : lookup2 s pa = none) (hv : victim1 s = v)
    (e : evict1 (l1Index pa) v s = .ok () w) :
    ∃ u q, acquireLine pa s = fillFromBs pa v u q ∧ (w.line2 (l2Index pa) u).incl = false ∧
      (∀ x, q.bsByte x =
        if (s.line2 (l2Index pa) u).valid = true ∧ blockOf x = s.block2 (l2Index pa) u then s.view x else s.bsByte x) ∧
      q = { s with
        l1 := w.l1, l2 := w.l2, bs := q.bs, l1Miss := s.l1Miss + 1, l2Miss := s.l2Miss + 1,
        trace := s.trace ++
          if (s.line2 (l2Index pa) u).valid = true then [⟨s.block2 (l2Index pa) u, .write, s.now⟩] else [],
        lat := s.lat + BitVec.ofNat 64 s.cfg.latL1Check +
          BitVec.ofNat 64 (if (s.line2 (l2Index pa) u).valid = true then s.cfg.latL2Miss else 0),
        draws := q.draws, drawCount := q.drawCount } := by
  obtain ⟨keeps, invalid⟩ := evictedL1_keeps h e
  obtain ⟨u, drawn⟩ := victim2_exists keeps.coherent.inclusion invalid
  obtain ⟨q, missed, evicts⟩ := missL2_evicts keeps.coherent drawn v
  have view := (keeps.trans (missedL2_keeps keeps.coherent)).view
  have counted := missedL2_evictedL1_eq s w
  refine ⟨u, q, ?_, by rw [← line2_congr (evictedL1_l2 s w)]; exact victim2_some drawn, ?_⟩
  · rw [acquireLine_evicted n1 hv e, consultL2, lookup2_evictedL1 e, n2]
    exact missed
  generalize missedL2 (evictedL1 s w) = m at evicts view counted
  obtain ⟨bytes, trace, lat, frame⟩ := evicts
  obtain ⟨valid, tag⟩ := (evict1_returns e).2 (l2Index pa) u
  have line : m.line2 (l2Index pa) u = w.line2 (l2Index pa) u := line2_congr (by rw [counted]) ..
  have block : m.block2 (l2Index pa) u = s.block2 (l2Index pa) u := by rw [State.block2, line, tag, State.block2]
  simp only [line, valid, block, view] at bytes trace lat
  refine ⟨fun x => ?_, ?_⟩
  · rw [bytes, counted]; rfl
  · rw [frame, trace, lat, counted]

/-- The lines that a block read from the Backing Store fills (R145, R215). -/
theorem fillFromBs_fills (hc : s.cfg.wf) (hp : bsValid s.cfg pa = true) (v u : Fin 8) :
    ∃ t, fillFromBs pa v u s = .ok v t ∧
      (∀ i y, t.line1 i y = if i = l1Index pa ∧ y = v then
        ⟨true, l1Tag pa, blockOfFn fun k => s.bsByte (blockOf pa + BitVec.ofNat 64 k)⟩ else s.line1 i y) ∧
      (∀ j y, t.line2 j y = if j = l2Index pa ∧ y = u then
        ⟨true, l2Tag pa, blockOfFn fun k => s.bsByte (blockOf pa + BitVec.ofNat 64 k), true⟩ else s.line2 j y) ∧
      t = { s with l1 := t.l1, l2 := t.l2, trace := s.trace ++ [⟨blockOf pa, .read, s.now⟩],
                   lat := s.lat + BitVec.ofNat 64 s.cfg.latL2Miss } := by
  refine ⟨_, fillFromBs_eq hc hp v u, fun i y => ?_, fun j y => ?_, rfl⟩
  · rw [refill1, line1_setLine1, refill2]; rfl
  · rw [refill1, line2_setLine1, refill2, line2_setLine2]; rfl

theorem blockOfFn_congr {f g : Nat → Byte} (h : ∀ k < 64, f k = g k) : blockOfFn f = blockOfFn g :=
  block_ext fun k hk => by rw [blockByte_ofFn f hk, blockByte_ofFn g hk, h k hk]

/-- Settles O60: `acquireLine_missBoth` up to the block read, `fillFromBs_fills` after it; the evicted block is not the one read. -/
theorem l2MissEvictsAndRefillsBothLevels : Obligations.L2MissEvictsAndRefillsBothLevels := by
  intro s pa v h hp n1 n2 hv
  obtain ⟨w, evicted, -, -, others, -⟩ := evict1_ok h (l1Index pa) v
  have owner := evict1_line2 h.inclusion evicted
  obtain ⟨u, q, acquired, eligible, bytes, frame⟩ := acquireLine_missBoth h n1 n2 hv evicted
  have cfg : q.cfg = s.cfg := by rw [frame]
  have lines1 := line1_congr (s := w) (t := q) (by rw [frame])
  have lines2 := line2_congr (s := w) (t := q) (by rw [frame])
  have block : (blockOfFn fun k => q.bsByte (blockOf pa + BitVec.ofNat 64 k)) =
      blockOfFn fun k => s.bsByte (blockOf pa + BitVec.ofNat 64 k) := by
    refine blockOfFn_congr fun k hk => ?_
    rw [bytes, blockOf_add_block pa hk, if_neg]
    exact fun c => lookup2_none_iff.1 n2 _ u ⟨c.1, c.2.symm⟩
  obtain ⟨t, filled, line1, line2, filledFrame⟩ := fillFromBs_fills (by rw [cfg]; exact h.config) (by rwa [cfg]) v u
  simp only [block, lines1, lines2] at line1 line2
  refine ⟨u, t, acquired.trans filled, ?_, ?_, ?_, fun x => ?_, ?_, ?_, fun i y other => ?_, fun j y other => ?_, ?_⟩
  · rw [owner] at eligible
    split at eligible
    · next c => exact .inr ⟨c.1, c.2.2⟩
    · exact .inl eligible
  · rw [filledFrame, frame]
  · rw [filledFrame, frame]
    split <;> simp [BitVec.ofNat_add, Nat.two_mul, BitVec.add_assoc]
  · rw [← bytes, filledFrame]; rfl
  · rw [line1, if_pos ⟨rfl, rfl⟩]
  · rw [line2, if_pos ⟨rfl, rfl⟩]
  · rw [line1, if_neg other, others i y other]
  · rw [line2, if_neg other, owner]
  · rw [filledFrame, frame]

end Sys2Proof.Machine
end

section
/-! A load of one line (R238), and the first and second load of a fresh hierarchy (R223). -/

namespace Sys2Proof.Machine

variable {s t : State} {a pa : Addr} {n : Nat} {w : Fin 8}

/-- An access to bytes of one line lies in one page: truncation keeps the offset in the page (R180, R231). -/
theorem singlePage_of_block (xlen : XLen) (h : blockOffset (effective xlen a) + n ≤ 64) : singlePage a n = true := by
  rw [singlePage_iff]
  rw [blockOffset_eq, effective_toNat] at h
  cases xlen <;> grind

/-- A bypassed load of bytes of one line is one round trip (R232, R238). -/
theorem load_oneLine (hb : Bypassed s .read) (hn : n ≤ 8) (hpa : pa = effective s.xlen a) (hl : blockOffset pa + n ≤ 64)
    (e : acquireLine pa s = .ok w t) :
    load a n s = .next (t.respond (.value (leWord (blockGet (t.line1 (l1Index pa) w).data (blockOffset pa) n)))) := by
  subst hpa
  have inLine : oneLine (effective s.xlen a) n = true := by simp [oneLine, hn, hl]
  rw [load, memRead, if_pos (singlePage_of_block s.xlen hl), access_translated (translate_bypassed hb a), physRead,
    if_pos inLine, readLine, e]
  rfl

/-- `AcquireLine` that returned in the window kept everything and gave a way that holds the block (R210). -/
theorem acquireLine_returned (h : Coherent s) (hp : bsValid s.cfg pa = true) (e : acquireLine pa s = .ok w t) :
    Keeps s t ∧ Holds1 t pa (l1Index pa) w := by
  obtain ⟨w', t', acquired, keeps, holds⟩ := acquireLine_ok h hp
  cases e.symm.trans acquired
  exact ⟨keeps, holds⟩

/-- Settles O48: the first load by `l2MissEvictsAndRefillsBothLevels` with invalid victims, the second by the hit it left. -/
theorem firstLoadOfAFreshHierarchy : Obligations.FirstLoadOfAFreshHierarchy := by
  intro s a pa h nothing hb hpa hl hp
  have n1 : lookup1 s pa = none := lookup1_none_iff.2 fun i w c => by simpa [nothing.1 i w] using c.1
  have n2 : lookup2 s pa = none := lookup2_none_iff.2 fun j x c => by simpa [(nothing.2 j x).1] using c.1
  obtain ⟨u, t, acquired, -, trace, lat, -, -, line2, -, -, frame⟩ :=
    l2MissEvictsAndRefillsBothLevels s pa _ h hp n1 n2 rfl
  simp only [(nothing.2 _ _).1, Bool.false_eq_true, if_false, List.append_nil] at trace lat
  obtain ⟨keeps, holds⟩ := acquireLine_returned h hp acquired
  obtain ⟨⟨cfg, xlen, -⟩, -⟩ := keeps.outside
  have samePa : pa = effective t.xlen a := by rw [hpa, xlen]
  have found1 : lookup1 t pa = some (victim1 s) := keeps.coherent.inclusion.lookup1_eq holds
  have found2 : lookup2 t pa = some u := keeps.coherent.inclusion.lookup2_eq (j := l2Index pa)
    ⟨by rw [line2], by rw [State.block2, line2, l2BlockAddr_of]⟩
  refine ⟨_, load_oneLine hb (by decide) hpa hl acquired, ?_, ?_, ?_, ?_, trace, lat, ⟨_, found1⟩, ⟨u, found2, ?_⟩, ?_⟩
  · rw [frame]; rfl
  · rw [frame]; rfl
  · rw [frame]; rfl
  · rw [frame]; rfl
  · exact congrArg L2Line.incl line2
  · rw [← cfg]
    exact load_oneLine (s := t.respond _) (hb.congr keeps.outside) (by decide) samePa hl (acquireLine_hitL1 found1)

end Sys2Proof.Machine
end

section
/-! `validate` (R250): one translation and the test of the address it gives. -/

namespace Sys2Proof.Machine

variable {s u : State} {a pa : Addr}

/-- What `validate` accepts, on plain numbers (R120, R250). -/
theorem acceptable_iff (cfg : Config) (pa : Addr) : acceptable cfg pa = true ↔
    (cfg.memBase ≤ pa.toNat ∧ pa.toNat < cfg.memBase + cfg.memSize) ∨
      ∃ r ∈ cfg.extraValid, r.base ≤ pa.toNat ∧ pa.toNat < r.base + r.size := by
  simp [acceptable, bsValid]

theorem Walked.sameInputs (h : Walked s u) : SameInputs s u := by rw [h.frame]; exact ⟨rfl, rfl⟩

/-- A translation that returned did what a walk can do (R179, R195). -/
theorem walked_of_translated {kind : AccessKind} (e : translate a kind s = .ok pa u) : Walked s u := by
  have walked := translate_leaves a kind s
  rwa [e] at walked

theorem exec_validate_translated (e : translate a .dontCare s = .ok pa u) :
    exec (.validate a) s = .next (u.respond (.value (if acceptable s.cfg pa then 1 else 0))) := by
  rw [exec, execValidate, e, ← (walked_of_translated e).sameControl.1]

theorem exec_validate_failed (e : translate a .dontCare s = .raise () u) :
    exec (.validate a) s = .next (u.respond (.value 0)) := by
  rw [exec, execValidate, e]

/-- Settles O23: the answers by the outcome of the translation, the frame by what a walk can do. -/
theorem validateAnswersAndTouchesNoCache : Obligations.ValidateAnswersAndTouchesNoCache := by
  intro s a
  refine ⟨fun pa u e => ?_, fun u e => exec_validate_failed e,
    fun hb => ⟨_, exec_validate_translated (translate_bypassed hb a)⟩, fun t e => ?_⟩
  · rw [exec_validate_translated e, if_congr (acceptable_iff s.cfg pa) rfl rfl]
    rfl
  · obtain ⟨u, r, walked, rfl⟩ := exec_validate e
    exact ⟨walked.sameCaches, walked.sameControl, walked.sameInputs⟩

end Sys2Proof.Machine
end

section
/-! Loads, fetches and stores in one page (R232, R233): the data phase at the address that the translation gave. -/

namespace Sys2Proof.Machine

variable {s u : State} {va pa : Addr} {n : Nat}

/-- A translated read of bytes in the window, as a command (R72, R232). -/
theorem finish_memRead_translated {kind : AccessKind} (h : Coherent s) (e : translate va kind s = .ok pa u)
    (hs : singlePage va n = true) (hn : 0 < n) (hp : InWindow s.cfg pa n) (answer : List Byte → Response) :
    ∃ t, finish answer (memRead va n kind s) = .next t ∧ ReadDone u t (answer (u.viewBytes pa n)) := by
  rw [memRead, if_pos hs]
  obtain ⟨t, read, keeps⟩ := access_read_ok h e hn hp
  exact finish_read read keeps answer

/-- Settles O18: each command is the end of a read, `finish_memRead_translated`. -/
theorem translatedReadsReturnTheView : Obligations.TranslatedReadsReturnTheView := by
  intro s u a pa h
  have valued : ∀ {kind n}, translate a kind s = .ok pa u → 0 < n → singlePage a n = true → InWindow s.cfg pa n →
      ∃ t, finish (fun bs => .value (leWord bs)) (memRead a n kind s) = .next t ∧
        ReadDone u t ⟨.ok, leWord (u.viewBytes pa n), 0, []⟩ :=
    fun e hn hs hp => finish_memRead_translated h e hs hn hp _
  refine ⟨fun e => ⟨valued e (by decide) (singlePage_one a), valued e (by decide), valued e (by decide),
    valued e (by decide)⟩, fun e => ⟨valued e (by decide), fun len hlen hs hp => ?_⟩⟩
  rw [exec_fetchBlk hlen]
  exact finish_memRead_translated h e hs (by bv_omega) hp _

/-- A translated store to bytes in the window (R72, R233). -/
theorem store_translated (h : Coherent s) (e : translate va .write s = .ok pa u) (data : Word)
    (hs : singlePage va n = true) (hn : 0 < n) (hl : n < 2 ^ 64) (hp : InWindow s.cfg pa n) :
    ∃ t, store va n data s = .next t ∧ t.response = some ⟨.ok, 0, 0, []⟩ ∧ Coherent t ∧ SameTranslation u t ∧
      ∀ x, t.view x = if (x - pa).toNat < n then data.extractLsb' (8 * (x - pa).toNat) 8 else u.view x := by
  rw [← bytesOf_length n data] at hs hn hl hp
  obtain ⟨t, written, writes⟩ := access_write_ok h e hn hp hl
  refine ⟨t.respond .done, by rw [store, memWrite, if_pos hs, written]; rfl, rfl, writes.coherent.respond _,
    writes.outside, fun x => (writes.view x).trans ?_⟩
  rw [bytesOf_length]
  exact ite_congr rfl (fun inside => by rw [bytesOf_getD, if_pos inside]) fun _ => rfl

/-- Settles O19: each command is a store of its width, `store_translated`. -/
theorem translatedStoresWriteTheView : Obligations.TranslatedStoresWriteTheView := by
  intro s u a pa d h e
  exact ⟨store_translated h e d (singlePage_one a) (by decide) (by decide),
    fun hs => store_translated h e d hs (by decide) (by decide),
    fun hs => store_translated h e d hs (by decide) (by decide),
    fun hs => store_translated h e d hs (by decide) (by decide)⟩

end Sys2Proof.Machine
end

section
/-! A read of bytes that a store has just written, neither of them translated (R65, R80, R251). -/

namespace Sys2Proof.Machine

variable {s t u : State} {va : Addr} {n : Nat} {data : Word}

theorem plainAddr_add (s : State) (va : Addr) (o k : Nat) :
    s.plainAddr (va + BitVec.ofNat 64 o) k = s.plainAddr va (o + k) := by
  rw [State.plainAddr, State.plainAddr, add_ofNat_add]

/-- The bytes within a stored value are its own bytes at their place (R65). -/
theorem StoreDone.plainBytes_within (k : StoreDone s t va n data) {o m : Nat} (hm : o + m ≤ n) :
    t.plainBytes (va + BitVec.ofNat 64 o) m = (List.range m).map fun i => data.extractLsb' (8 * (o + i)) 8 := by
  refine List.map_congr_left fun i hi => ?_
  have inside : o + i < n := by have := List.mem_range.1 hi; omega
  rw [plainAddr_add, plainAddr_congr k.outside, k.stored _ inside]

/-- A read within the bytes of a store answers the stored bytes at their place (R65, R80). -/
theorem read_within_store {kind : AccessKind} {answer : List Byte → Response} (h : Coherent s) (hw : Bypassed s .write)
    (hr : Bypassed s kind) (hl : n ≤ 4096) (hp : PlainInWindow s va n) (stored : store va n data s = .next t) {o m : Nat}
    (hpos : 0 < m) (hm : o + m ≤ n) (read : finish answer (memRead (va + BitVec.ofNat 64 o) m kind t) = .next u) :
    u.response = some (answer ((List.range m).map fun i => data.extractLsb' (8 * (o + i)) 8)) := by
  obtain ⟨t', stored', done⟩ := store_bypassed h hw data (by omega) hl hp
  cases stored.symm.trans stored'
  have inWindow : PlainInWindow t (va + BitVec.ofNat 64 o) m := fun i hi => by
    rw [plainAddr_add, plainAddr_congr done.outside, done.outside.control.1]
    exact hp (o + i) (by omega)
  obtain ⟨u', read', readDone⟩ :=
    finish_memRead_bypassed done.coherent (hr.congr done.outside) hpos (by omega) inWindow answer
  cases read.symm.trans read'
  rw [readDone.response, done.plainBytes_within hm]

/-- A read of the address and the width of a store answers all its bytes (R251). -/
theorem read_after_store {kind : AccessKind} {answer : List Byte → Response} (h : Coherent s) (hw : Bypassed s .write)
    (hr : Bypassed s kind) (hpos : 0 < n) (hl : n ≤ 4096) (hp : PlainInWindow s va n)
    (stored : store va n data s = .next t) (read : finish answer (memRead va n kind t) = .next u) :
    u.response = some (answer (bytesOf n data)) := by
  have := read_within_store (o := 0) (answer := answer) h hw hr hl hp stored hpos (by omega)
    (by rwa [BitVec.add_zero])
  simpa only [Nat.zero_add, bytesOf] using this

/-- Settles O17: the same width by `read_after_store` and `leWord_bytesOf`, the byte within a word by `read_within_store`. -/
theorem loadAfterStoreReturnsTheStoredValue : Obligations.LoadAfterStoreReturnsTheStoredValue := by
  intro s a d h hw hr hx
  have same : ∀ {kind n t u}, Bypassed s kind → 0 < n → n ≤ 8 → store a n d s = .next t → PlainInWindow s a n →
      finish (fun bs => .value (leWord bs)) (memRead a n kind t) = .next u →
        u.response = some ⟨.ok, (d.setWidth (8 * n)).setWidth 64, 0, []⟩ := by
    intro kind n t u hb hn hl stored hp read
    rw [read_after_store h hw hb hn (by omega) hp stored read, leWord_bytesOf]
    rfl
  refine ⟨fun _ _ e _ => same hr (by decide) (by decide) e, fun _ _ e _ => same hr (by decide) (by decide) e,
    fun _ _ e _ => same hr (by decide) (by decide) e, fun _ _ e _ => same hr (by decide) (by decide) e,
    fun _ _ e _ => same hx (by decide) (by decide) e, fun t u stored hp read => ?_⟩
  rw [read_within_store (o := 1) h hw hr (by decide) hp stored (by decide) (by decide) read]
  simp [leWord, Response.value]

end Sys2Proof.Machine
end

section
/-! Reads and writes over a page boundary (R234, R235): the rest of a run of one-byte accesses goes on from the state the first
ones left, and a failing one ends it with its own address. -/

namespace Sys2Proof.Machine

variable {s t u : State} {va : Addr} {n : Nat} {f : Failure} {kind : AccessKind}

theorem add_ofNat_cons (va : Addr) (b : Byte) (bs : List Byte) :
    va + 1 + BitVec.ofNat 64 bs.length = va + BitVec.ofNat 64 (b :: bs).length := by
  rw [add_one_add, List.length_cons]

/-- A one-byte read is one access (R231, R232). -/
theorem memRead_one (va : Addr) (kind : AccessKind) (s : State) :
    memRead va 1 kind s = access va kind (fun pa s => physRead pa 1 s) s := by
  rw [memRead, if_pos (singlePage_one va)]

/-- A one-byte write is one access (R231, R233). -/
theorem memWrite_one (va : Addr) (b : Byte) (s : State) :
    memWrite va [b] s = access va .write (fun pa s => physWrite pa [b] s) s := by
  rw [memWrite, List.length_singleton, if_pos (singlePage_one va)]

/-- A failure of an access carries the address of the access (R193, R232, R233). -/
theorem access_raise_tval {α : Type} {phase : Addr → State → Run Unit α} (e : access va kind phase s = .raise f u) :
    f.tval = va := by
  cases ht : translate va kind s with
  | refuse r => rw [access_refused ht] at e; cases e
  | raise x v => rw [access_failed ht] at e; cases e; rfl
  | ok pa v =>
    rw [access_translated ht] at e
    cases hp : phase pa v with
    | raise x w => rw [hp] at e; cases e; rfl
    | ok x w => rw [hp] at e; cases e
    | refuse r => rw [hp] at e; cases e

/-- Byte reads that returned, then those that remain (R234). -/
theorem memReadBytes_of_bytesRead {bs : List Byte} (read : BytesRead kind s va bs t) (n : Nat) :
    memReadBytes kind (bs.length + n) va s =
      (memReadBytes kind n (va + BitVec.ofNat 64 bs.length) t).bind fun cs u => .ok (bs ++ cs) u := by
  induction bs generalizing s va with
  | nil =>
    obtain rfl : t = s := read
    simp only [List.length_nil, Nat.zero_add, BitVec.add_zero, List.nil_append]
    cases memReadBytes kind n va t <;> rfl
  | cons b bs ih =>
    obtain ⟨v, first, rest⟩ := read
    rw [memRead_one] at first
    rw [List.length_cons, Nat.add_right_comm, memReadBytes, first, Run.bind_ok, ih rest, add_ofNat_cons va b,
      List.length_cons]
    cases memReadBytes kind n (va + BitVec.ofNat 64 (bs.length + 1)) t <;> rfl

/-- Byte reads that all returned (R234). -/
theorem memReadBytes_all {bs : List Byte} (read : BytesRead kind s va bs t) :
    memReadBytes kind bs.length va s = .ok bs t := by
  have := memReadBytes_of_bytesRead read 0
  simpa only [Nat.add_zero, memReadBytes, Run.bind_ok, List.append_nil] using this

/-- Byte reads of which the one after those that returned fails (R234). -/
theorem memReadBytes_failed {bs : List Byte} (read : BytesRead kind s va bs t) (hn : bs.length < n)
    (e : memRead (va + BitVec.ofNat 64 bs.length) 1 kind t = .raise f u) : memReadBytes kind n va s = .raise f u := by
  obtain ⟨m, rfl⟩ := Nat.exists_eq_add_of_lt hn
  rw [memRead_one] at e
  rw [Nat.add_assoc, memReadBytes_of_bytesRead read, memReadBytes, e, Run.bind_raise, Run.bind_raise]

/-- A page-crossing read as a command: all bytes read, or the failure of the first that fails (R234, R296). -/
theorem finish_memRead_crossing {bs : List Byte} (hs : singlePage va n = false) (read : BytesRead kind s va bs t)
    (answer : List Byte → Response) :
    (bs.length = n → finish answer (memRead va n kind s) = .next (t.respond (answer bs))) ∧
    ∀ (f : Failure) (u : State), bs.length < n → memRead (va + BitVec.ofNat 64 bs.length) 1 kind t = .raise f u →
      f.tval = va + BitVec.ofNat 64 bs.length ∧
        finish answer (memRead va n kind s) = .next { u with response := some ⟨f.kind.status, 0, f.tval, []⟩ } := by
  have crossing : memRead va n kind s = memReadBytes kind n va s := by rw [memRead, hs]; rfl
  rw [crossing]
  refine ⟨?_, fun f u hlt e => ⟨?_, finish_failed (memReadBytes_failed read hlt e) answer⟩⟩
  · rintro rfl
    rw [memReadBytes_all read, finish]
  · rw [memRead_one] at e
    exact access_raise_tval e

/-- Settles O20: each command is the end of a page-crossing read, `finish_memRead_crossing`. -/
theorem pageCrossingReadsAreByteReadsInOrder : Obligations.PageCrossingReadsAreByteReadsInOrder := by
  refine fun s a => ⟨fun hs _ _ read => finish_memRead_crossing hs read _,
    fun hs _ _ read => finish_memRead_crossing hs read _, fun hs _ _ read => finish_memRead_crossing hs read _,
    fun hs _ _ read => finish_memRead_crossing hs read _, fun len hlen hs bs t read => ?_⟩
  rw [exec_fetchBlk hlen]
  exact finish_memRead_crossing hs read _

/-- Byte writes that completed, then those that remain (R235). -/
theorem memWriteBytes_of_bytesWritten {bs : List Byte} (written : BytesWritten s va bs t) (cs : List Byte) :
    memWriteBytes (bs ++ cs) va s = memWriteBytes cs (va + BitVec.ofNat 64 bs.length) t := by
  induction bs generalizing s va with
  | nil =>
    obtain rfl : t = s := written
    simp
  | cons b bs ih =>
    obtain ⟨v, first, rest⟩ := written
    rw [memWrite_one] at first
    rw [List.cons_append, memWriteBytes, first, Run.bind_ok, ih rest, add_ofNat_cons va b]

/-- Byte writes that all completed (R235). -/
theorem memWriteBytes_all {bs : List Byte} (written : BytesWritten s va bs t) : memWriteBytes bs va s = .ok () t := by
  have := memWriteBytes_of_bytesWritten written []
  rwa [List.append_nil] at this

/-- Byte writes of which the one after those that completed fails (R235). -/
theorem memWriteBytes_failed {bs cs : List Byte} {b : Byte} (written : BytesWritten s va bs t)
    (e : memWrite (va + BitVec.ofNat 64 bs.length) [b] t = .raise f u) :
    memWriteBytes (bs ++ b :: cs) va s = .raise f u := by
  rw [memWrite_one] at e
  rw [memWriteBytes_of_bytesWritten written, memWriteBytes, e, Run.bind_raise]

theorem bytesOf_split {k : Nat} (hk : k < n) (v : Word) :
    bytesOf n v = (bytesOf n v).take k ++ v.extractLsb' (8 * k) 8 :: (bytesOf n v).drop (k + 1) := by
  have at_k : (bytesOf n v)[k]'(by rwa [bytesOf_length]) = v.extractLsb' (8 * k) 8 := by simp [bytesOf]
  rw [← at_k, ← List.drop_eq_getElem_cons, List.take_append_drop]

/-- A page-crossing store: all bytes written, or the failure of the first that fails (R235, R296). -/
theorem store_crossing (hs : singlePage va n = false) (data : Word) (s : State) :
    (∀ t, BytesWritten s va (bytesOf n data) t →
      store va n data s = .next { t with response := some ⟨.ok, 0, 0, []⟩ }) ∧
    ∀ (k : Nat) (t u : State) (f : Failure), k < n → BytesWritten s va ((bytesOf n data).take k) t →
      memWrite (va + BitVec.ofNat 64 k) [data.extractLsb' (8 * k) 8] t = .raise f u →
      f.tval = va + BitVec.ofNat 64 k ∧
        store va n data s = .next { u with response := some ⟨f.kind.status, 0, f.tval, []⟩ } := by
  have crossing : memWrite va (bytesOf n data) s = memWriteBytes (bytesOf n data) va s := by
    rw [memWrite, bytesOf_length, hs]; rfl
  rw [store, crossing]
  refine ⟨fun t written => by rw [memWriteBytes_all written]; rfl, fun k t u f hk written e => ⟨?_, ?_⟩⟩
  · rw [memWrite_one] at e
    exact access_raise_tval e
  · have taken : ((bytesOf n data).take k).length = k := by rw [List.length_take, bytesOf_length]; omega
    refine finish_failed ?_ _
    rw [bytesOf_split hk data]
    exact memWriteBytes_failed written (by rwa [taken])

/-- Settles O21: each command is a page-crossing store of its width, `store_crossing`. -/
theorem pageCrossingStoresAreByteStoresInOrder : Obligations.PageCrossingStoresAreByteStoresInOrder :=
  fun s _ d => ⟨fun hs => store_crossing hs d s, fun hs => store_crossing hs d s, fun hs => store_crossing hs d s⟩

end Sys2Proof.Machine
end

section
/-! A store of one line that hits L1 (R239): write-back, so the line alone changes. -/

namespace Sys2Proof.Machine

variable {s : State} {a pa : Addr} {w : Fin 8} {n : Nat}

/-- A bypassed store that hits L1 within a line: the answer, the count, the latency and the line's bytes (R211, R239). -/
theorem store_hitL1 (hb : Bypassed s .write) (hpa : pa = effective s.xlen a) (hit : lookup1 s pa = some w) (hn : n ≤ 8)
    (hl : blockOffset pa + n ≤ 64) (data : Word) : ∃ t, store a n data s = .next t ∧
      t = { s with l1 := t.l1, lat := s.lat + BitVec.ofNat 64 s.cfg.latL1Hit, l1Hit := s.l1Hit + 1,
                   response := some ⟨.ok, 0, 0, []⟩ } ∧
      ∀ j v, t.line1 j v = if j = l1Index pa ∧ v = w then { s.line1 (l1Index pa) w with
        data := blockSet (s.line1 (l1Index pa) w).data (blockOffset pa) (bytesOf n data) } else s.line1 j v := by
  subst hpa
  have onePage : singlePage a n = true := singlePage_of_block s.xlen hl
  have inLine : oneLine (effective s.xlen a) n = true := by simp [oneLine, hn, hl]
  rw [store, memWrite, bytesOf_length, if_pos onePage, access_translated (translate_bypassed hb a), physWrite,
    bytesOf_length, if_pos inLine, writeLine, acquireLine_hitL1 hit]
  exact ⟨_, rfl, rfl, line1_setLine1 (s.addLat s.cfg.latL1Hit).bumpL1Hit _ _ _⟩

/-- Settles O49: `store_hitL1`, with the bytes of the written line by `blockByte_set`. -/
theorem storeHitChangesTheL1LineAlone : Obligations.StoreHitChangesTheL1LineAlone := by
  intro s a pa d w hb hpa hit
  have stored : ∀ n ≤ 8, blockOffset pa + n ≤ 64 → ∃ t, store a n d s = .next t ∧ t.response = some ⟨.ok, 0, 0, []⟩ ∧
      t = { s with l1 := t.l1, lat := s.lat + BitVec.ofNat 64 s.cfg.latL1Hit, l1Hit := s.l1Hit + 1, response := t.response } ∧
      (t.line1 (l1Index pa) w).valid = true ∧ (t.line1 (l1Index pa) w).tag = (s.line1 (l1Index pa) w).tag ∧
      (∀ k < 64, blockByte (t.line1 (l1Index pa) w).data k = if blockOffset pa ≤ k ∧ k < blockOffset pa + n then
        d.extractLsb' (8 * (k - blockOffset pa)) 8 else blockByte (s.line1 (l1Index pa) w).data k) ∧
      ∀ j v, ¬(j = l1Index pa ∧ v = w) → t.line1 j v = s.line1 j v := by
    intro n hn hl
    obtain ⟨t, next, frame, line1⟩ := store_hitL1 hb hpa hit hn hl d
    have answered : t.response = some ⟨.ok, 0, 0, []⟩ := by rw [frame]
    refine ⟨t, next, answered, by rw [answered]; exact frame, ?_, ?_, fun k hk => ?_, fun j v other => ?_⟩
    · rw [line1, if_pos ⟨rfl, rfl⟩]; exact (lookup1_some hit).1
    · rw [line1, if_pos ⟨rfl, rfl⟩]
    · rw [line1, if_pos ⟨rfl, rfl⟩, blockByte_set _ _ _ hk, bytesOf_length]
      exact ite_congr rfl (fun inside => by rw [bytesOf_getD, if_pos (by omega)]) fun _ => rfl
    · rw [line1, if_neg other]
  exact ⟨stored 1 (by decide), stored 2 (by decide), stored 4 (by decide), stored 8 (by decide)⟩

end Sys2Proof.Machine
end

section
/-! The miss balance (R280): an L1 miss consults L2 once, which counts a hit or a miss. Only a miss whose L1 victim has no owner
ends before that and counts at L1 alone; a coherent state has no such victim (R212, R217, R221). -/

namespace Sys2Proof.Machine

variable {s t : State}

/-- The step invariant behind R280: coherence, which every miss needs to be completed, and the balance itself. -/
structure Balanced (s : State) : Prop where
  coherent : Coherent s
  balance : MissesBalance s

/-- A change that leaves the counters leaves the balance. -/
theorem MissesBalance.of_sameCounters (b : MissesBalance s) (h : SameCounters s t) : MissesBalance t := by
  obtain ⟨-, l1Miss, l2Hit, l2Miss⟩ := h
  rw [MissesBalance, l1Miss, l2Hit, l2Miss]
  exact b

/-- An L1 miss that hits L2 adds one to each side (R212, R214). -/
theorem MissesBalance.of_hitL2 (b : MissesBalance s) (l1Miss : t.l1Miss = s.l1Miss + 1) (l2Hit : t.l2Hit = s.l2Hit + 1)
    (l2Miss : t.l2Miss = s.l2Miss) : MissesBalance t := by
  rw [MissesBalance, l1Miss, l2Hit, l2Miss, b, add_right_comm]

/-- An L1 miss that misses L2 adds one to each side (R212, R215). -/
theorem MissesBalance.of_missL2 (b : MissesBalance s) (l1Miss : t.l1Miss = s.l1Miss + 1) (l2Hit : t.l2Hit = s.l2Hit)
    (l2Miss : t.l2Miss = s.l2Miss + 1) : MissesBalance t := by
  rw [MissesBalance, l1Miss, l2Hit, l2Miss, b, BitVec.add_assoc]

/-- `AcquireLine` on a coherent state keeps the balance, by where it finds the block: L1, L2 or the Backing Store (R211, R214,
R215); out of the window it is refused (R124). -/
theorem acquireLine_missesBalance (h : Balanced s) (pa : Addr) : (acquireLine pa s).Leaves MissesBalance := by
  cases hp : bsValid s.cfg pa with
  | false =>
    rw [acquireLine_refused h.coherent hp]
    trivial
  | true =>
    cases n1 : lookup1 s pa with
    | some v =>
      rw [acquireLine_hitL1 n1]
      exact h.balance
    | none =>
      cases n2 : lookup2 s pa with
      | some x =>
        obtain ⟨w, evicted, -⟩ := evict1_ok h.coherent (l1Index pa) (victim1 s)
        obtain ⟨t, acquired, -, -, frame⟩ := acquireLine_hitL2 n1 rfl evicted n2
        rw [acquired]
        exact h.balance.of_hitL2 (by rw [frame]) (by rw [frame]) (by rw [frame])
      | none =>
        obtain ⟨u, t, acquired, -, -, -, -, -, -, -, -, frame⟩ :=
          l2MissEvictsAndRefillsBothLevels s pa _ h.coherent hp n1 n2 rfl
        rw [acquired]
        exact h.balance.of_missL2 (by rw [frame]) (by rw [frame]) (by rw [frame])

theorem dataInvariant_balanced : DataInvariant Balanced where
  translated va kind s h := (translate_leaves va kind s).mono fun _ k =>
    ⟨k.coherent h.coherent, h.balance.of_sameCounters k.sameCounters⟩
  acquired pa _ h := ((acquireLine_coherent h.coherent pa).and (acquireLine_missesBalance h pa)).mono fun _ k => ⟨k.1, k.2⟩
  wroteData i w d s h := ⟨setData1_coherent h.coherent i w d, h.balance.of_sameCounters (writesBack_setLine1 s i w _).counters⟩
  responded r _ h := ⟨h.coherent.respond r, h.balance⟩

/-- Every command keeps the balance: the data moves by `dataInvariant_balanced`, and no other command counts (R33, R305). -/
theorem exec_balanced {i : Instr} (h : Balanced s) (e : exec i s = .next t) : Balanced t := by
  cases hm : movesData i with
  | true => exact dataInvariant_balanced.exec hm h e
  | false => exact ⟨exec_coherent h.coherent e, h.balance.of_sameCounters (exec_sameCounters e hm)⟩

theorem hostWrite_sameCounters {a : Addr} {b : Byte} (e : hostWrite a b s = .next t) : SameCounters s t := by
  obtain ⟨-, rfl, -⟩ := hostWrite_next e
  exact ⟨rfl, rfl, rfl, rfl⟩

theorem stepInvariant_balanced : StepInvariant Balanced where
  took s rest h := ⟨stepInvariant_coherent.took s rest h.coherent, h.balance⟩
  began _ now draws h := ⟨h.coherent.begin now draws, h.balance⟩
  executed _ _ _ h e := exec_balanced h e
  answered _ h := ⟨h.coherent.respond _, h.balance⟩
  hostWrote _ _ _ _ h e := ⟨hostWrite_coherent h.coherent e, h.balance.of_sameCounters (hostWrite_sameCounters e)⟩
  reset s h := ⟨resetWith_coherent h.coherent.config s.inputs s.drawCount, resetWith_missesBalance _ _ _⟩

/-- Settles O56: with coherence, the balance is a step invariant, `stepInvariant_balanced`. -/
theorem stepKeepsTheMissBalance : Obligations.StepKeepsTheMissBalance :=
  fun _ _ h b e => (stepInvariant_balanced.step ⟨h, b⟩ e).balance

end Sys2Proof.Machine
end

section
/-! The control and observation commands (R272 to R283): each is one write and an answer. -/

namespace Sys2Proof.Machine

variable {d : Word}

/-- Settles O6: both meanings are one write and an answer. -/
theorem setXlenAndSetStatusWriteTheirElementAlone : Obligations.SetXlenAndSetStatusWriteTheirElementAlone :=
  fun _ _ => ⟨rfl, rfl⟩

/-- `set.priv` with the code of a level (R97, R273). -/
theorem exec_setPriv_level {p : Priv} (s : State) (h : privOfCode (d.extractLsb' 0 2) = some p) :
    exec (.setPriv d) s = .next ((s.setPriv p).respond .done) := by
  simp only [exec, execSetPriv, h]

/-- `set.priv` with the reserved code (R101, R273). -/
theorem exec_setPriv_reserved (s : State) (h : privOfCode (d.extractLsb' 0 2) = none) :
    exec (.setPriv d) s = .next (s.respond .rejected) := by
  simp only [exec, execSetPriv, h, answerIllegal]

/-- Settles O7: the four codes of a privilege level. -/
theorem setPrivWritesThePrivilegeAlone : Obligations.SetPrivWritesThePrivilegeAlone := fun s _ =>
  ⟨fun h => exec_setPriv_level s (by rw [h]; rfl), fun h => exec_setPriv_level s (by rw [h]; rfl),
    fun h => exec_setPriv_level s (by rw [h]; rfl), fun h => exec_setPriv_reserved s (by rw [h]; rfl)⟩

/-- `set.atp` with the code of a scheme (R98, R275). -/
theorem exec_setAtp_scheme {sch : Scheme} (s : State) (h : schemeOfCode (d.extractLsb' 62 2) = some sch) :
    exec (.setAtp d) s = .next (State.respond { s with scheme := sch, rootPpn := d.extractLsb' 0 44 } .done) := by
  simp only [exec, execSetAtp, h]

/-- `set.atp` with the reserved code (R101, R275). -/
theorem exec_setAtp_reserved (s : State) (h : schemeOfCode (d.extractLsb' 62 2) = none) :
    exec (.setAtp d) s = .next (s.respond .rejected) := by
  simp only [exec, execSetAtp, h, answerIllegal]

/-- Settles O8: the four codes of a scheme. -/
theorem setAtpWritesSchemeAndRootTogether : Obligations.SetAtpWritesSchemeAndRootTogether := fun s _ =>
  ⟨fun h => exec_setAtp_scheme s (by rw [h]; rfl), fun h => exec_setAtp_scheme s (by rw [h]; rfl),
    fun h => exec_setAtp_scheme s (by rw [h]; rfl), fun h => exec_setAtp_reserved s (by rw [h]; rfl)⟩

/-- Settles O10: each read is an answer with its counter. -/
theorem counterReadsReturnTheCounters : Obligations.CounterReadsReturnTheCounters := fun _ => ⟨rfl, rfl, rfl, rfl⟩

/-- The code of a kind (R40). -/
theorem TraceKind.code_eq (k : TraceKind) : k.code = if k = .write then 1 else 0 := by cases k <;> rfl

/-- Settles O11: `drain.lat` and `trace.clr` are one write and an answer, and `trace.rd` is an answer whose kind bytes are
`TraceKind.code_eq`. -/
theorem latencyDrainAndTraceCommands : Obligations.LatencyDrainAndTraceCommands := by
  refine fun s => ⟨rfl, ?_, rfl⟩
  simp only [← TraceKind.code_eq]
  rfl

end Sys2Proof.Machine
end

section
/-! Controller round trips (R305): `AcquireLine` counts once, in every state and however it ends; a read that returned counts once
for each of its round trips, whatever its translation did (R211, R212, R234, R238). -/

namespace Sys2Proof.Machine

/-- `n` controller round trips lie between the two states: each counts a hit or a miss at L1 (R305). -/
def RoundTrips (n : Nat) (s t : State) : Prop := t.l1Hit + t.l1Miss = s.l1Hit + s.l1Miss + BitVec.ofNat 64 n

/-- The counters of L1 are the same (R33). -/
def SameCounters1 (s t : State) : Prop := t.l1Hit = s.l1Hit ∧ t.l1Miss = s.l1Miss

variable {s t u : State} {va pa : Addr} {n m : Nat} {kind : AccessKind} {bs : List Byte}

theorem RoundTrips.trans (h : RoundTrips n s t) (k : RoundTrips m t u) : RoundTrips (n + m) s u := by
  rw [RoundTrips] at *
  rw [k, h, BitVec.ofNat_add, BitVec.add_assoc]

theorem SameCounters.l1 (h : SameCounters s t) : SameCounters1 s t := ⟨h.1, h.2.1⟩

theorem SameCounters1.trans (h : SameCounters1 s t) (k : SameCounters1 t u) : SameCounters1 s u :=
  ⟨k.1.trans h.1, k.2.trans h.2⟩

theorem RoundTrips.before (h : SameCounters1 s t) (k : RoundTrips n t u) : RoundTrips n s u := by
  rwa [RoundTrips, ← h.1, ← h.2]

theorem RoundTrips.after (h : RoundTrips n s t) (k : SameCounters1 t u) : RoundTrips n s u := by
  rwa [RoundTrips, k.1, k.2]

/-! `AcquireLine` -/

/-- Consulting L2 counts at L2 alone (R213 to R215). -/
theorem consultL2_sameCounters1 (pa : Addr) (v : Fin 8) (s : State) : (consultL2 pa v s).Leaves (SameCounters1 s) := by
  rw [consultL2]
  split
  · exact ⟨rfl, rfl⟩
  · simp only [missL2]
    split
    · exact ⟨rfl, rfl⟩
    · next u _ =>
      have drawn : SameCounters1 s s.bumpL2Miss.tookL2Draw := by rw [tookL2Draw_eq]; exact ⟨rfl, rfl⟩
      refine (evict2_leaves (l2Index pa) u _).bind (fun _ h => drawn.trans h.counters.l1) fun _ t h => ?_
      have evicted := drawn.trans h.counters.l1
      refine (bsReadBlock_leaves _ t).bind (fun _ e => e ▸ evicted) fun _ _ e => ?_
      exact e ▸ evicted

/-- `AcquireLine` counts one hit or one miss at L1 (R211, R212). -/
theorem acquireLine_roundTrip (pa : Addr) (s : State) : (acquireLine pa s).Leaves (RoundTrips 1 s) := by
  cases found : lookup1 s pa with
  | some v =>
    rw [acquireLine_hitL1 found]
    exact add_right_comm _ _ _
  | none =>
    have missed : RoundTrips 1 s (missedL1 s) := by rw [missedL1_eq]; exact (BitVec.add_assoc ..).symm
    rw [acquireLine_miss found]
    refine (evict1_leaves _ _ _).bind (fun _ h => missed.after h.counters.l1) fun _ t h => ?_
    exact (consultL2_sameCounters1 ..).mono fun _ k => (missed.after h.counters.l1).after k

/-! Reads that returned -/

theorem readLine_roundTrip (e : readLine pa n s = .ok bs t) : RoundTrips 1 s t := by
  have acquired := acquireLine_roundTrip pa s
  obtain ⟨w, u, ha, hget⟩ := Run.bind_eq_ok.1 e
  rw [ha] at acquired
  cases hget
  exact acquired

theorem readLineBytes_roundTrips (e : readLineBytes n pa s = .ok bs t) : RoundTrips n s t := by
  induction n generalizing s pa bs with
  | zero => cases e; exact (BitVec.add_zero _).symm
  | succ n ih =>
    obtain ⟨b, u, first, rest⟩ := Run.bind_eq_ok.1 e
    obtain ⟨cs, v, others, last⟩ := Run.bind_eq_ok.1 rest
    cases last
    rw [Nat.add_comm]
    exact (readLine_roundTrip first).trans (ih others)

/-- One round trip in a line, one for each byte otherwise (R238). -/
theorem physRead_roundTrips (e : physRead pa n s = .ok bs t) : RoundTrips (if oneLine pa n then 1 else n) s t := by
  rw [physRead] at e
  split at e
  · next h => rw [if_pos h]; exact readLine_roundTrip e
  · next h => rw [if_neg h]; exact readLineBytes_roundTrips e

/-- An access is a translation, which counts nothing, and a data phase (R195, R232). -/
theorem access_read_roundTrips (e : access va kind (fun pa s => physRead pa n s) s = .ok bs t) :
    ∃ pa u, translate va kind s = .ok pa u ∧ RoundTrips (if oneLine pa n then 1 else n) s t := by
  cases ht : translate va kind s with
  | raise f u => rw [access_failed ht] at e; cases e
  | refuse r => rw [access_refused ht] at e; cases e
  | ok pa u =>
    rw [access_translated ht] at e
    cases hp : physRead pa n u with
    | raise f v => rw [hp] at e; cases e
    | refuse r => rw [hp] at e; cases e
    | ok cs v =>
      rw [hp] at e
      cases e
      exact ⟨pa, u, rfl, (physRead_roundTrips hp).before (walked_of_translated ht).sameCounters.l1⟩

theorem memReadBytes_roundTrips (e : memReadBytes kind n va s = .ok bs t) : RoundTrips n s t := by
  induction n generalizing s va bs with
  | zero => cases e; exact (BitVec.add_zero _).symm
  | succ n ih =>
    obtain ⟨b, u, first, rest⟩ := Run.bind_eq_ok.1 e
    obtain ⟨cs, v, others, last⟩ := Run.bind_eq_ok.1 rest
    cases last
    obtain ⟨pa, -, -, counted⟩ := access_read_roundTrips first
    rw [ite_self] at counted
    rw [Nat.add_comm]
    exact counted.trans (ih others)

/-! Bypassed loads -/

theorem blockOffset_effective (xlen : XLen) (va : Addr) : blockOffset (effective xlen va) = va.toNat % 64 := by
  rw [blockOffset_eq, effective_toNat]
  cases xlen
  · exact Nat.mod_mod_of_dvd _ (by decide)
  · rfl

/-- A bypassed read makes one round trip if its bytes lie in one line, and one for each byte otherwise: a read that leaves its
page leaves its line too (R231, R234, R238). -/
theorem memRead_roundTrips (hb : Bypassed s kind) (hn : n ≤ 8) (e : memRead va n kind s = .ok bs t) :
    RoundTrips (if va.toNat % 64 + n ≤ 64 then 1 else n) s t := by
  rw [memRead] at e
  split at e
  · obtain ⟨pa, u, translated, counted⟩ := access_read_roundTrips e
    cases (translate_bypassed hb va).symm.trans translated
    simpa [oneLine, blockOffset_effective, hn] using counted
  · next crossing =>
    have leaves : ¬va.toNat % 64 + n ≤ 64 := by
      rw [singlePage_iff] at crossing
      omega
    rw [if_neg leaves]
    exact memReadBytes_roundTrips e

/-- A bypassed load of bytes in the window returns (`memRead_bypassed`), so it makes the round trips of its read. -/
theorem load_roundTrips (h : Coherent s) (hb : Bypassed s .read) (hn : 0 < n) (hl : n ≤ 8) (hp : PlainInWindow s va n)
    (e : load va n s = .next t) : RoundTrips (if va.toNat % 64 + n ≤ 64 then 1 else n) s t := by
  obtain ⟨u, returned, -⟩ := memRead_bypassed h hb hn (by omega) hp
  rw [load, returned] at e
  cases e
  exact (memRead_roundTrips hb hl returned).after ⟨rfl, rfl⟩

/-- Settles O22: each command is a load of its width, `load_roundTrips`. -/
theorem roundTripsAreCounted : Obligations.RoundTripsAreCounted := by
  intro s t a h hb
  have counted : ∀ {n}, 0 < n → n ≤ 8 → PlainInWindow s a n → load a n s = .next t →
      t.l1Hit + t.l1Miss = s.l1Hit + s.l1Miss + if a.toNat % 64 + n ≤ 64 then 1 else BitVec.ofNat 64 n := by
    intro n hn hl hp e
    rw [load_roundTrips h hb hn hl hp e, apply_ite (BitVec.ofNat 64)]
    rfl
  refine ⟨fun hp e => ?_, counted (by decide) (by decide), counted (by decide) (by decide), counted (by decide) (by decide)⟩
  exact (counted (by decide) (by decide) hp e).trans (by rw [if_pos (by omega)])

end Sys2Proof.Machine
end

section
/-! No access fault from a coherent state (R292): the data phase never fails there, so a failure of a command is the page fault
of one of its translations; the commands without a data phase report no failure at all. -/

namespace Sys2Proof.Machine

/-- Every failure of a procedure is of one kind. -/
def Run.RaisesOnly {α : Type} (k : FailureKind) (x : Run Failure α) : Prop := ∀ f t, x = .raise f t → f.kind = k

/-- The response of a state is no access fault (R292). -/
def AnswersNoAccessFault (t : State) : Prop :=
  ∀ r, t.response = some r → r.status ≠ .loadAccessFault ∧ r.status ≠ .storeAccessFault

variable {s t : State} {kind : AccessKind} {i : Instr}

/-! The data phase -/

theorem physRead_not_raises (h : Coherent s) (pa : Addr) (n : Nat) : ¬(physRead pa n s).Raises := by
  rintro ⟨e, t, raised⟩
  obtain ⟨bs, u, returned, -⟩ | refused := physRead_cases h pa n
  · cases raised.symm.trans returned
  · cases raised.symm.trans refused

/-- A write of bytes in the window returns, and one with a byte outside is refused (R124, R239). -/
theorem physWrite_not_raises (h : Coherent s) (pa : Addr) {bytes : List Byte} (hn : 0 < bytes.length)
    (hl : bytes.length < 2 ^ 64) : ¬(physWrite pa bytes s).Raises := by
  rintro ⟨e, t, raised⟩
  by_cases hp : InWindow s.cfg pa bytes.length
  · obtain ⟨u, returned, -⟩ := physWrite_ok h hn hp hl
    cases raised.symm.trans returned
  · have outside : ∃ k < bytes.length, bsValid s.cfg (pa + BitVec.ofNat 64 k) = false := by simpa [InWindow] using hp
    cases raised.symm.trans (physWrite_refused h outside)

/-! The virtual access -/

/-- An access whose data phase never fails fails in its translation alone (R193, R232, R233). -/
theorem access_raisesOnly {α : Type} {phase : Addr → State → Run Unit α} (h : Coherent s)
    (hp : ∀ pa u, Coherent u → ¬(phase pa u).Raises) (va : Addr) :
    (access va kind phase s).RaisesOnly (pageFault kind) := by
  intro f t e
  cases ht : translate va kind s with
  | refuse r => rw [access_refused ht] at e; cases e
  | raise x u => rw [access_failed ht] at e; cases e; rfl
  | ok pa u =>
    rw [access_translated ht] at e
    cases hx : phase pa u with
    | ok a v => rw [hx] at e; cases e
    | refuse r => rw [hx] at e; cases e
    | raise x v => exact absurd ⟨x, v, hx⟩ (hp pa u ((walked_of_translated ht).coherent h))

/-- One procedure after another, the second from a coherent state. -/
theorem Run.RaisesOnly.bind {α β : Type} {k : FailureKind} {x : Run Failure α} {f : α → State → Run Failure β}
    (hx : x.RaisesOnly k) (coherent : x.Leaves Coherent) (hf : ∀ a u, Coherent u → (f a u).RaisesOnly k) :
    (x.bind f).RaisesOnly k := by
  intro g t e
  obtain first | ⟨a, u, returned, second⟩ := Run.bind_eq_raise.1 e
  · exact hx g t first
  · rw [returned] at coherent
    exact hf a u coherent g t second

theorem Run.raisesOnly_ok {α : Type} (k : FailureKind) (a : α) (s : State) : (Run.ok a s).RaisesOnly k := by
  intro f t e
  cases e

theorem access_read_raisesOnly (h : Coherent s) (va : Addr) (n : Nat) :
    (access va kind (fun pa s => physRead pa n s) s).RaisesOnly (pageFault kind) :=
  access_raisesOnly h (fun pa _ hu => physRead_not_raises hu pa n) va

theorem access_write_raisesOnly (h : Coherent s) (va : Addr) {bytes : List Byte} (hn : 0 < bytes.length)
    (hl : bytes.length < 2 ^ 64) :
    (access va .write (fun pa s => physWrite pa bytes s) s).RaisesOnly .storePageFault :=
  access_raisesOnly h (fun pa _ hu => physWrite_not_raises hu pa hn hl) va

theorem memReadBytes_raisesOnly (h : Coherent s) (n : Nat) (va : Addr) :
    (memReadBytes kind n va s).RaisesOnly (pageFault kind) := by
  induction n generalizing s va with
  | zero => exact Run.raisesOnly_ok _ _ _
  | succ n ih =>
    refine (access_read_raisesOnly h va 1).bind
      (dataInvariant_coherent.access (fun pa _ hu => dataInvariant_coherent.physRead hu pa 1) h va kind) fun b u hu => ?_
    exact (ih hu (va + 1)).bind (dataInvariant_coherent.memReadBytes hu kind n _) fun _ _ _ => Run.raisesOnly_ok _ _ _

theorem memWriteBytes_raisesOnly (h : Coherent s) (bytes : List Byte) (va : Addr) :
    (memWriteBytes bytes va s).RaisesOnly .storePageFault := by
  induction bytes generalizing s va with
  | nil => exact Run.raisesOnly_ok _ _ _
  | cons b bytes ih =>
    exact (access_write_raisesOnly h va (bytes := [b]) (by simp) (by simp)).bind
      (dataInvariant_coherent.access (fun pa _ hu => dataInvariant_coherent.physWrite hu pa [b]) h va .write)
      fun _ _ hu => ih hu (va + 1)

/-- A read fails with the page fault of its kind alone (R232, R234, R292). -/
theorem memRead_raisesOnly (h : Coherent s) (va : Addr) (n : Nat) (kind : AccessKind) :
    (memRead va n kind s).RaisesOnly (pageFault kind) := by
  rw [memRead]
  split
  · exact access_read_raisesOnly h va n
  · exact memReadBytes_raisesOnly h n va

/-- A write fails with the store's page fault alone (R233, R235, R292). -/
theorem memWrite_raisesOnly (h : Coherent s) (va : Addr) {bytes : List Byte} (hn : 0 < bytes.length)
    (hl : bytes.length < 2 ^ 64) : (memWrite va bytes s).RaisesOnly .storePageFault := by
  rw [memWrite]
  split
  · exact access_write_raisesOnly h va hn hl
  · exact memWriteBytes_raisesOnly h bytes va

/-! The commands -/

theorem answersNoAccessFault_respond {r : Response} (u : State)
    (h : r.status ≠ .loadAccessFault ∧ r.status ≠ .storeAccessFault) : AnswersNoAccessFault (u.respond r) := by
  rintro _ ⟨⟩
  exact h

theorem answersNoAccessFault_ok {r : Response} (u : State) (h : r.status = .ok) : AnswersNoAccessFault (u.respond r) :=
  answersNoAccessFault_respond u (by rw [h]; decide)

theorem answersNoAccessFault_illegal (u : State) : AnswersNoAccessFault (answerIllegal u) :=
  answersNoAccessFault_respond u (by decide)

/-- A page fault is no access fault (R290). -/
theorem pageFault_status (kind : AccessKind) :
    (pageFault kind).status ≠ .loadAccessFault ∧ (pageFault kind).status ≠ .storeAccessFault := by
  cases kind <;> decide

/-- The end of a procedure that fails with page faults alone (R12, R296). -/
theorem finish_answersNoAccessFault {α : Type} {answer : α → Response} {x : Run Failure α}
    (hx : x.RaisesOnly (pageFault kind)) (ha : ∀ a, (answer a).status = .ok) (e : finish answer x = .next t) :
    AnswersNoAccessFault t := by
  cases x with
  | ok a u => cases e; exact answersNoAccessFault_ok u (ha a)
  | refuse r => cases e
  | raise f u =>
    cases e
    refine answersNoAccessFault_respond u ?_
    rw [Response.failure, hx f u rfl]
    exact pageFault_status kind

theorem load_answersNoAccessFault {a : Addr} {n : Nat} (h : Coherent s) (e : load a n s = .next t) : AnswersNoAccessFault t :=
  finish_answersNoAccessFault (memRead_raisesOnly h a n .read) (fun _ => rfl) e

theorem store_answersNoAccessFault {a : Addr} {d : Word} {n : Nat} (h : Coherent s) (hn : 0 < n) (hl : n < 2 ^ 64)
    (e : store a n d s = .next t) : AnswersNoAccessFault t :=
  finish_answersNoAccessFault (kind := .write)
    (memWrite_raisesOnly h a (by rwa [bytesOf_length]) (by rwa [bytesOf_length])) (fun _ => rfl) e

/-- `fetch.blk` answers `Illegal` for length 0, and is a read otherwise (R101, R249). -/
theorem fetchBlk_answersNoAccessFault {a : Addr} {len : Byte} (h : Coherent s) (e : exec (.fetchBlk a len) s = .next t) :
    AnswersNoAccessFault t := by
  by_cases hlen : len = 0
  · rw [hlen, exec_fetchBlk_zero] at e
    cases e
    exact answersNoAccessFault_illegal s
  · rw [exec_fetchBlk hlen] at e
    exact finish_answersNoAccessFault (memRead_raisesOnly h a _ .execute) (fun _ => rfl) e

/-- `validate` answers a value whether its translation returns or fails (R250). -/
theorem validate_answersNoAccessFault {a : Addr} (e : exec (.validate a) s = .next t) : AnswersNoAccessFault t := by
  rw [exec, execValidate] at e
  split at e <;> cases e
  · exact answersNoAccessFault_ok _ rfl
  · exact answersNoAccessFault_ok _ rfl

/-- No command answers an access fault in a coherent state (R292). -/
theorem exec_answersNoAccessFault (h : Coherent s) (e : exec i s = .next t) : AnswersNoAccessFault t := by
  cases i with
  | loadB | loadH | loadW | loadD => exact load_answersNoAccessFault h e
  | storeB | storeH | storeW | storeD => exact store_answersNoAccessFault h (by decide) (by decide) e
  | fetchW a => exact finish_answersNoAccessFault (memRead_raisesOnly h a 4 .execute) (fun _ => rfl) e
  | fetchBlk => exact fetchBlk_answersNoAccessFault h e
  | validate => exact validate_answersNoAccessFault e
  | flush =>
    obtain ⟨u, -, rfl⟩ := exec_flush e
    exact answersNoAccessFault_ok u rfl
  | setPriv d =>
    cases hd : privOfCode (d.extractLsb' 0 2) with
    | some p => rw [exec_setPriv_level s hd] at e; cases e; exact answersNoAccessFault_ok _ rfl
    | none => rw [exec_setPriv_reserved s hd] at e; cases e; exact answersNoAccessFault_illegal s
  | setAtp d =>
    cases hd : schemeOfCode (d.extractLsb' 62 2) with
    | some sch => rw [exec_setAtp_scheme s hd] at e; cases e; exact answersNoAccessFault_ok _ rfl
    | none => rw [exec_setAtp_reserved s hd] at e; cases e; exact answersNoAccessFault_illegal s
  | sfenceVma | setXlen | setStatus | rdL1Hit | rdL1Miss | rdL2Hit | rdL2Miss | drainLat | traceRd | traceClr =>
    cases e
    exact answersNoAccessFault_ok _ rfl

/-- Settles O26: `exec_answersNoAccessFault`. -/
theorem coherentStatesGiveNoAccessFault : Obligations.CoherentStatesGiveNoAccessFault :=
  fun _ _ _ r h e => exec_answersNoAccessFault h e r

end Sys2Proof.Machine
end

section
/-! A host write (R331): the byte list changes at one address, and `View` with it where no line holds the block (R71, R336). -/

namespace Sys2Proof.Machine

variable {s : State} {x : Addr} {b : Byte}

/-- A step that takes a host write is that write in the state with the input taken (R331). -/
theorem step_hostWrite {rest : List Input} (h : s.inputs = .hostWrite x b :: rest) :
    step s = hostWrite x b { s with inputs := rest } := by
  have taken : takeInput s = some (.hostWrite x b, { s with inputs := rest }) := takeInput_some.2 ⟨rest, h, rfl⟩
  simp only [step, taken]

/-- The bytes of the Backing Store after a write of one (R35). -/
theorem bsByte_setBs_write (h : Memory.wf s.bs = true) (x : Addr) (b : Byte) (y : Addr) :
    (s.setBs (Memory.write s.bs x.toNat b)).bsByte y = if y = x then b else s.bsByte y := by
  split
  · next same => rw [same]; exact Memory.read_write_same h x.toNat b
  · next other => exact Memory.read_write_other s.bs (fun e => other (BitVec.eq_of_toNat_eq e.symm)) b

/-- `View` with another byte list: the line's byte where a line holds the block, the list's elsewhere (R71). -/
theorem view_setBs (s : State) (m : List Host.Cell) (y : Addr) :
    (s.setBs m).view y = if lookup1 s y = none ∧ lookup2 s y = none then (s.setBs m).bsByte y else s.view y := by
  have hit1 : lookup1 (s.setBs m) y = lookup1 s y := rfl
  have hit2 : lookup2 (s.setBs m) y = lookup2 s y := rfl
  rw [State.view, State.view, hit1, hit2]
  cases lookup1 s y with
  | some w => rw [if_neg (by simp)]; rfl
  | none =>
    cases lookup2 s y with
    | some w => rw [if_neg (by simp)]; rfl
    | none => rw [if_pos ⟨rfl, rfl⟩]

/-- `View` where no line holds the block (R71). -/
theorem view_uncached (h1 : lookup1 s x = none) (h2 : lookup2 s x = none) : s.view x = s.bsByte x := by
  rw [State.view, h1, h2]

/-- `View` after a write of one byte of the Backing Store (R71, R336). -/
theorem view_setBs_write (h : Memory.wf s.bs = true) (x : Addr) (b : Byte) (y : Addr) :
    (s.setBs (Memory.write s.bs x.toNat b)).view y =
      if y = x ∧ lookup1 s x = none ∧ lookup2 s x = none then b else s.view y := by
  rw [view_setBs, bsByte_setBs_write h]
  by_cases uncached : lookup1 s y = none ∧ lookup2 s y = none
  · rw [if_pos uncached, view_uncached uncached.1 uncached.2]
    by_cases same : y = x
    · subst same
      rw [if_pos rfl, if_pos ⟨rfl, uncached⟩]
    · rw [if_neg same, if_neg fun k => same k.1]
  · rw [if_neg uncached, if_neg fun ⟨same, h⟩ => uncached (same ▸ h)]

/-- Settles O59: the step by `step_hostWrite`, what it leaves by `bsByte_setBs_write` and `view_setBs_write`. -/
theorem hostWriteChangesTheBackingStoreAlone : Obligations.HostWriteChangesTheBackingStoreAlone := by
  intro s x b rest coherent waits
  rw [step_hostWrite waits]
  have taken : Coherent { s with inputs := rest } := coherent.congr rfl rfl rfl rfl
  refine ⟨fun outside => ?_, fun inside => ⟨_, ?_, rfl, bsByte_setBs_write taken.memory x b, view_setBs_write taken.memory x b⟩⟩
  · rw [hostWrite, if_neg (by simpa using outside)]
  · rw [hostWrite, if_pos inside]

end Sys2Proof.Machine
end

section
/-! Two runs of a load, store or fetch that differ in the draws alone (R13, R342). The walk inserts in the TLB only after the last
entry it looks up (R170), so the draw of a slot shows in the TLB alone; the draws of victims show in no byte of `View` (R72). -/

namespace Sys2Proof.Machine

/-- The state with other draws (R13). -/
def State.redrawn (s : State) (d : Draws) (c : Nat) : State := { s with draws := d, drawCount := c }

/-- The configuration, the line arrays and the Backing Store are the same: all that a data phase can show of a state but for
the draws. -/
structure SameMemory (s t : State) : Prop where
  cfg : t.cfg = s.cfg
  l1 : t.l1 = s.l1
  l2 : t.l2 = s.l2
  bs : t.bs = s.bs

/-- `View` is the same at every address (R71). -/
def SameView (s t : State) : Prop := ∀ x, t.view x = s.view x

/-- Two procedures end alike (R12): with the same value, failure or refusal, in states so related. -/
inductive Run.Alike {ε α : Type} (R : State → State → Prop) : Run ε α → Run ε α → Prop
  | ok (a : α) {s t : State} (h : R s t) : Alike R (.ok a s) (.ok a t)
  | raise (e : ε) {s t : State} (h : R s t) : Alike R (.raise e s) (.raise e t)
  | refuse (r : Refusal) : Alike R (.refuse r) (.refuse r)

/-- Where one command completes so does the other, with the same response and the same `View`. -/
def AnswersAlike (o o' : Host.Outcome State Fault Refusal) : Prop :=
  ∀ t, o = .next t → ∃ t', o' = .next t' ∧ t'.response = t.response ∧ SameView t t'

variable {s t : State} {va a : Addr} {n : Nat} {d : Draws} {c : Nat} {p : Paging} {kind : AccessKind} {level : Nat}
  {pte : Word}

theorem sameMemory_redrawn (s : State) (d : Draws) (c : Nat) : SameMemory s (s.redrawn d c) := ⟨rfl, rfl, rfl, rfl⟩

theorem SameMemory.view (h : SameMemory s t) : SameView s t := view_congr h.l1 h.l2 h.bs

theorem SameMemory.coherent (h : SameMemory s t) (hs : Coherent s) : Coherent t := hs.congr h.cfg h.l1 h.l2 h.bs

/-! Runs that end alike -/

/-- One procedure after another: the second begins alike, in states that the first one leaves. -/
theorem Run.Alike.bind {ε α β : Type} {R Q : State → State → Prop} {P : State → Prop} {x y : Run ε α}
    {f g : α → State → Run ε β} (h : x.Alike R y) (hx : x.Leaves P) (fails : ∀ s t, R s t → Q s t)
    (hf : ∀ a s t, P s → R s t → (f a s).Alike Q (g a t)) : (x.bind f).Alike Q (y.bind g) := by
  cases h with
  | ok a h => exact hf a _ _ hx h
  | raise e h => exact .raise e (fails _ _ h)
  | refuse r => exact .refuse r

theorem Run.Alike.mapFailure {ε ε' α : Type} {R : State → State → Prop} {x y : Run ε α} (h : x.Alike R y) (g : ε → ε') :
    (x.mapFailure g).Alike R (y.mapFailure g) := by
  cases h with
  | ok a h => exact .ok a h
  | raise e h => exact .raise (g e) h
  | refuse r => exact .refuse r

/-- Commands whose procedures end alike answer alike (R12, R92). -/
theorem Run.Alike.finish {α : Type} {x y : Run Failure α} (h : x.Alike SameView y) (answer : α → Response) :
    AnswersAlike (finish answer x) (finish answer y) := by
  intro t e
  cases h with
  | ok a h => cases e; exact ⟨_, rfl, rfl, h⟩
  | raise f h => cases e; exact ⟨_, rfl, rfl, h⟩
  | refuse r => cases e

/-! The walk -/

theorem tlbInsert_sameMemory (tag : TlbTag) (pte : Word) (s : State) (d : Draws) (c : Nat) :
    SameMemory (tlbInsert tag pte s) (tlbInsert tag pte (s.redrawn d c)) := by
  rw [tlbInsert_frame tag pte s, tlbInsert_frame tag pte (s.redrawn d c)]
  exact ⟨rfl, rfl, rfl, rfl⟩

/-- The entry fetched is the same, and if it was not one to insert, the draws are still all that differs (R169, R170). -/
theorem fetchPte_redrawn (p : Paging) (level : Nat) (parent : BitVec 44) (a : Addr) (s : State) (d : Draws) (c : Nat) :
    (∃ r, fetchPte p level parent a s = .refuse r ∧ fetchPte p level parent a (s.redrawn d c) = .refuse r) ∨
      ∃ pte u u', fetchPte p level parent a s = .ok pte u ∧ fetchPte p level parent a (s.redrawn d c) = .ok pte u' ∧
        SameMemory u u' ∧ (looksLikeLeaf pte = false → u' = u.redrawn d c) := by
  cases hit : tlbLookup s (tlbTag s.cfg.tagMode level (p.key a)) with
  | some i => exact .inr ⟨_, _, _, fetchPte_hit hit, fetchPte_hit (s := s.redrawn d c) hit, sameMemory_redrawn _ d c, fun _ => rfl⟩
  | none =>
    by_cases window : EntryInWindow s p (p.pteAddr level parent a)
    · have read := fetchPte_read hit window
      have read' := fetchPte_read (s := s.redrawn d c) hit window
      have sameEntry : (s.redrawn d c).entryAt p (p.pteAddr level parent a) = s.entryAt p (p.pteAddr level parent a) := rfl
      rw [sameEntry] at read'
      cases leaf : looksLikeLeaf (s.entryAt p (p.pteAddr level parent a)) with
      | true =>
        rw [if_pos leaf] at read read'
        exact .inr ⟨_, _, _, read, read', tlbInsert_sameMemory _ _ (s.addLat s.cfg.latPteRead) d c,
          fun notLeaf => by simp [leaf] at notLeaf⟩
      | false =>
        rw [if_neg (by simp [leaf])] at read read'
        exact .inr ⟨_, _, _, read, read', sameMemory_redrawn (s.addLat s.cfg.latPteRead) d c, fun _ => rfl⟩
    · exact .inl ⟨_, fetchPte_refused hit window, fetchPte_refused (s := s.redrawn d c) hit window⟩

theorem rewritten_sameMemory (h : SameMemory s t) (p : Paging) (kind : AccessKind) (addr : Addr) (pte : Word) :
    SameMemory (rewritten p kind addr pte s) (rewritten p kind addr pte t) := by
  rw [rewritten, rewritten]
  split
  · exact ⟨h.cfg, h.l1, h.l2, congrArg (Memory.writeBytes · addr _) h.bs⟩
  · exact h

/-- The steps on a leaf read the configuration and the entry alone, and write the Backing Store alone (R188 to R191). -/
theorem useLeaf_alike (h : SameMemory s t) (p : Paging) (kind : AccessKind) (level : Nat) (addr a : Addr) (pte : Word) :
    (useLeaf p kind level addr a pte s).Alike SameMemory (useLeaf p kind level addr a pte t) := by
  have window : RewriteInWindow t p kind addr pte ↔ RewriteInWindow s p kind addr pte := by
    rw [RewriteInWindow, RewriteInWindow, EntryInWindow, EntryInWindow, h.cfg]
  by_cases hw : RewriteInWindow s p kind addr pte
  · rw [useLeaf_checked hw, useLeaf_checked (window.2 hw)]
    split
    · exact .ok _ (rewritten_sameMemory h ..)
    · exact .raise _ (rewritten_sameMemory h ..)
  · rw [useLeaf_refused hw, useLeaf_refused (window.not.2 hw)]
    exact .refuse _

/-- A pointer that is not rejected is not inserted (R170, R185, R186). -/
theorem looksLikeLeaf_of_pointer (hr : rejectedEntry pte = false) (hp : isPointer pte = true) : looksLikeLeaf pte = false := by
  obtain ⟨hR, hX⟩ := isPointer_iff.1 hp
  exact ValidPointer.notLeafLooking (by simpa [ValidPointer, rejectedEntry, hR, hX] using hr)

/-- A walk step ends alike if the walk one level down does (R184 to R191). -/
theorem walk_alike_of_descends
    (hd : ∀ n u, (descendFrom p kind a level n u).Alike SameMemory (descendFrom p kind a level n (u.redrawn d c)))
    (parent : BitVec 44) (s : State) :
    (walk p kind a level parent s).Alike SameMemory (walk p kind a level parent (s.redrawn d c)) := by
  obtain ⟨r, e, e'⟩ | ⟨pte, u, u', e, e', same, redrawn⟩ := fetchPte_redrawn p level parent a s d c
  · rw [walk_eq_walkStep, walk_eq_walkStep, walkStep, walkStep, e, e']
    exact .refuse r
  · cases hr : rejectedEntry pte with
    | true =>
      rw [walk_rejected e hr, walk_rejected e' hr]
      exact .raise () same
    | false =>
      cases hp : isPointer pte with
      | true =>
        rw [walk_descends e hr hp, walk_descends e' hr hp, redrawn (looksLikeLeaf_of_pointer hr hp)]
        exact hd _ u
      | false =>
        rw [walk_leaf e hr hp, walk_leaf e' hr hp]
        exact useLeaf_alike same ..

theorem walk_alike (p : Paging) (kind : AccessKind) (a : Addr) (level : Nat) (parent : BitVec 44) (s : State) (d : Draws) (c : Nat) :
    (walk p kind a level parent s).Alike SameMemory (walk p kind a level parent (s.redrawn d c)) := by
  induction level generalizing parent s with
  | zero => exact walk_alike_of_descends (level := 0) (fun _ u => .raise () (sameMemory_redrawn u d c)) parent s
  | succ level ih => exact walk_alike_of_descends (level := level + 1) ih parent s

/-- A translation is bypassed, refused or the walk whatever the draws are (R181, R182). -/
theorem translate_alike (va : Addr) (kind : AccessKind) (s : State) (d : Draws) (c : Nat) :
    (translate va kind s).Alike SameMemory (translate va kind (s.redrawn d c)) := by
  by_cases bypassed : Bypassed s kind
  · rw [translate_bypassed bypassed, translate_bypassed (s := s.redrawn d c) bypassed]
    exact .ok _ (sameMemory_redrawn s d c)
  · by_cases translated : ∃ p, s.scheme.paging = some p ∧ TranslatedFor s kind
    · obtain ⟨p, hp, ht⟩ := translated
      rw [translate_walk hp ht, translate_walk (s := s.redrawn d c) hp ht]
      exact walk_alike p kind _ p.top s.rootPpn s d c
    · rw [((translate_cases s va kind).resolve_left bypassed).resolve_right translated,
        ((translate_cases (s.redrawn d c) va kind).resolve_left bypassed).resolve_right translated]
      exact .refuse _

/-! The data phase -/

/-- A read in coherent states with the same memory: the same `View` bytes, or refused in both (R72, R124, R238). -/
theorem physRead_alike (h : Coherent s) (same : SameMemory s t) (hn : 0 < n) (pa : Addr) :
    (physRead pa n s).Alike SameView (physRead pa n t) := by
  have ht := same.coherent h
  by_cases hp : InWindow s.cfg pa n
  · obtain ⟨u, e, k⟩ := physRead_ok h hn hp
    obtain ⟨u', e', k'⟩ := physRead_ok ht hn (by rwa [same.cfg])
    rw [e, e', viewBytes_congr same.view]
    exact .ok _ fun x => by rw [k.view, k'.view, same.view]
  · have outside : ∃ k < n, bsValid s.cfg (pa + BitVec.ofNat 64 k) = false := by simpa [InWindow] using hp
    rw [physRead_refused h outside, physRead_refused ht (by rwa [same.cfg])]
    exact .refuse _

/-- A write in coherent states with the same memory: the same `View` after it, or refused in both (R72, R124, R239). -/
theorem physWrite_alike {bytes : List Byte} (h : Coherent s) (same : SameMemory s t) (hn : 0 < bytes.length)
    (hl : bytes.length < 2 ^ 64) (pa : Addr) : (physWrite pa bytes s).Alike SameView (physWrite pa bytes t) := by
  have ht := same.coherent h
  by_cases hp : InWindow s.cfg pa bytes.length
  · obtain ⟨u, e, k⟩ := physWrite_ok h hn hp hl
    obtain ⟨u', e', k'⟩ := physWrite_ok ht hn (by rwa [same.cfg]) hl
    rw [e, e']
    exact .ok _ fun x => by rw [k.view, k'.view, same.view]
  · have outside : ∃ k < bytes.length, bsValid s.cfg (pa + BitVec.ofNat 64 k) = false := by simpa [InWindow] using hp
    rw [physWrite_refused h outside, physWrite_refused ht (by rwa [same.cfg])]
    exact .refuse _

/-! The virtual access -/

/-- One access with other draws: one translation, then a data phase that does not show the draws (R232, R233). -/
theorem access_alike {α : Type} {phase : Addr → State → Run Unit α} (h : Coherent s)
    (hp : ∀ pa {u v}, Coherent u → SameMemory u v → (phase pa u).Alike SameView (phase pa v)) (va : Addr) (kind : AccessKind)
    (d : Draws) (c : Nat) : (access va kind phase s).Alike SameView (access va kind phase (s.redrawn d c)) :=
  ((translate_alike va kind s d c).mapFailure _).bind
    (Run.leaves_mapFailure.2 ((translate_leaves va kind s).mono fun _ walked => walked.coherent h))
    (fun _ _ same => same.view) fun pa _ _ hu same => (hp pa hu same).mapFailure _

theorem memRead_alike (h : Coherent s) (hs : singlePage va n = true) (hn : 0 < n) (kind : AccessKind) (d : Draws) (c : Nat) :
    (memRead va n kind s).Alike SameView (memRead va n kind (s.redrawn d c)) := by
  rw [memRead, memRead, if_pos hs, if_pos hs]
  exact access_alike h (fun pa _ _ hu same => physRead_alike hu same hn pa) va kind d c

theorem store_alike (h : Coherent s) (hs : singlePage va n = true) (hn : 0 < n) (hl : n < 2 ^ 64) (data : Word) (d : Draws)
    (c : Nat) : AnswersAlike (store va n data s) (store va n data (s.redrawn d c)) := by
  rw [← bytesOf_length n data] at hs hn hl
  rw [store, store, memWrite, memWrite, if_pos hs, if_pos hs]
  exact (access_alike h (fun pa _ _ hu same => physWrite_alike hu same hn hl pa) va .write d c).finish _

/-! The commands -/

/-- Settles O46: each command is the end of a read, `memRead_alike`, or a store, `store_alike`; `fetch.blk` of length 0 is
answered at once. -/
theorem drawsDoNotShowInLoadsAndStores : Obligations.DrawsDoNotShowInLoadsAndStores := by
  intro i s t n d d' c c' h hm hs hn e
  have first : Coherent (s.redrawn d c) := h.congr rfl rfl rfl rfl
  suffices alike : AnswersAlike (exec i (s.redrawn d c)) (exec i ((s.redrawn d c).redrawn d' c')) from alike t e
  have reads : ∀ {va n kind}, singlePage va n = true → 0 < n → ∀ answer : List Byte → Response,
      AnswersAlike (finish answer (memRead va n kind (s.redrawn d c)))
        (finish answer (memRead va n kind ((s.redrawn d c).redrawn d' c'))) :=
    fun hs hn answer => (memRead_alike first hs hn _ d' c').finish answer
  cases i with (dsimp only at hn)
  | loadB | loadH | loadW | loadD | fetchW => subst hn; exact reads hs (by decide) _
  | storeB | storeH | storeW | storeD => subst hn; exact store_alike first hs (by decide) (by decide) _ d' c'
  | fetchBlk a len =>
    by_cases hlen : len = 0
    · rw [hlen, exec_fetchBlk_zero, exec_fetchBlk_zero]
      rintro _ ⟨⟩
      exact ⟨_, rfl, rfl, fun _ => rfl⟩
    · rw [exec_fetchBlk hlen, exec_fetchBlk hlen]
      subst hn
      exact reads hs (by bv_omega) _
  | validate | flush | sfenceVma | setXlen | setPriv | setStatus | setAtp | rdL1Hit | rdL1Miss | rdL2Hit | rdL2Miss | drainLat
  | traceRd | traceClr => cases hm

end Sys2Proof.Machine
end
